-- ==== Sys2Proof/Word.lean ====
section
/-!
DEFINITION. The word types of the ctwz CTW coder core (00_scope.md rules R7 and R8).
Only the types: every operation over them stands in Sys2Proof/Machine/.
-/
namespace Sys2Proof

/-- A byte of a command, of a stream or of the history window (R7, R83). -/
abbrev Byte := BitVec 8

/-- A NUM value, held as its 64-bit IEEE 754 binary64 pattern (R8, R71). -/
abbrev F64 := BitVec 64

/-- A 24-bit coder bound or code window (R41, R47). -/
abbrev Bound := BitVec 24

/-- The keys that lead from a context tree's root to a node, most recent byte first (R32).
It is also the node's handle: handles are internal and any choice of them is equivalent (R34, I5). -/
abbrev KeyPath := List Byte

end Sys2Proof
end

