-- ==== Sys2Proof/Syntax.lean ====
section
/-!
DEFINITION. The commands of the ctwz-core command set, version 1: one constructor for each row of
30_encoding.md rule R84 (spec/opcode_table.json), with the operand fields of R81 as decoded by R83.
-/
namespace Sys2Proof

/-- The 19 commands. Operands are the raw field values: a value outside its legal range is still a
command, which faults when it is executed (R83, R87). -/
inductive Instr where
  /-- INIT d (R155) -/
  | init (d : Byte)
  /-- STAT (R228) -/
  | stat
  /-- KT n0, n1, s (R112) -/
  | kt (n0 n1 s : Byte)
  /-- CTUPD node, bit (R131) -/
  | ctupd (node bit : Byte)
  /-- CTREUPD node, bit (R132) -/
  | ctreupd (node bit : Byte)
  /-- LOADHIST s_0, ..., s_{len-1}, the seed bytes in stream order, oldest first (R156) -/
  | loadhist (seed : List Byte)
  /-- PREDICT b (R157) -/
  | predict (b : Byte)
  /-- CUMPROB b (R158) -/
  | cumprob (b : Byte)
  /-- UPDATE b (R159) -/
  | update (b : Byte)
  /-- DECODE x (R160) -/
  | decode (x : F64)
  /-- EINIT (R195) -/
  | einit
  /-- EBIT bit, p0 (R196) -/
  | ebit (bit : Byte) (p0 : F64)
  /-- EFLUSH (R197) -/
  | eflush
  /-- ERD (R198) -/
  | erd
  /-- DINIT (R199) -/
  | dinit
  /-- DBIT p0 (R203) -/
  | dbit (p0 : F64)
  /-- DRD (R204) -/
  | drd
  /-- ENCBYTE b (R222) -/
  | encbyte (b : Byte)
  /-- DECBYTE (R224) -/
  | decbyte
deriving DecidableEq, Repr

end Sys2Proof
end

