-- ==== Sys2Proof/WellFormed.lean ====
section
/-!
DEFINITION. Which terms of Instr are commands the encoding can write. The field types of Instr
already have the widths of 30_encoding.md rule R81, so ONE check is left: the length byte of
LOADHIST holds the number of seed bytes, 0..255 (R81 format FH, R88).
-/
namespace Sys2Proof

/-- `i` has an encoding (R80, R81). -/
def Instr.wellFormed : Instr → Bool
  | .loadhist seed => decide (seed.length < 256)
  | .init _ => true
  | .stat => true
  | .kt _ _ _ => true
  | .ctupd _ _ => true
  | .ctreupd _ _ => true
  | .predict _ => true
  | .cumprob _ => true
  | .update _ => true
  | .decode _ => true
  | .einit => true
  | .ebit _ _ => true
  | .eflush => true
  | .erd => true
  | .dinit => true
  | .dbit _ => true
  | .drd => true
  | .encbyte _ => true
  | .decbyte => true

end Sys2Proof
end

