-- ==== Sys2Proof/Decode.lean ====
section
/-!
DEFINITION. The command encoding of 30_encoding.md: the opcode map (R84), the formats (R81), the
decoder of R82, total on any bytes, and after it the encoder.
-/
namespace Sys2Proof

/-- The 19 opcodes of R84. -/
inductive Opcode where
  | init | stat | kt | ctupd | ctreupd | loadhist | predict | cumprob | update | decode
  | einit | ebit | eflush | erd | dinit | dbit | drd | encbyte | decbyte
deriving DecidableEq, Repr

/-- The seven command formats of R81. -/
inductive Format where
  | f0 | fb | fk | fn | fh | fr | fe
deriving DecidableEq, Repr

/-- What the decoder says of the bytes at CP (R82). -/
inductive Decoded where
  /-- a complete command and the bytes after it -/
  | command (i : Instr) (rest : List Byte)
  /-- there is no byte: the run has ended (R276) -/
  | ended
  /-- the first byte is no opcode of R84: ILLEGAL_OPCODE (R85) -/
  | illegalOpcode (op : Byte)
  /-- fewer bytes than the command's length: the core is stuck (R276) -/
  | incomplete
deriving DecidableEq, Repr

/-- Column `op` of R84. -/
def opcodeByte : Opcode → Byte
  | .init => 0x01 | .stat => 0x02 | .kt => 0x10 | .ctupd => 0x20 | .ctreupd => 0x21
  | .loadhist => 0x30 | .predict => 0x31 | .cumprob => 0x32 | .update => 0x33 | .decode => 0x34
  | .einit => 0x40 | .ebit => 0x41 | .eflush => 0x42 | .erd => 0x43
  | .dinit => 0x48 | .dbit => 0x49 | .drd => 0x4A | .encbyte => 0x50 | .decbyte => 0x51

/-- The rows of R84, in its order. -/
def allOpcodes : List Opcode :=
  [.init, .stat, .kt, .ctupd, .ctreupd, .loadhist, .predict, .cumprob, .update, .decode,
   .einit, .ebit, .eflush, .erd, .dinit, .dbit, .drd, .encbyte, .decbyte]

/-- The whole opcode byte is matched: every row's mask is 0xFF (R84). -/
def opcodeOf (b : Byte) : Option Opcode := allOpcodes.find? (fun o => opcodeByte o == b)

/-- Column `format` of R84. -/
def opcodeFormat : Opcode → Format
  | .stat | .einit | .eflush | .erd | .dinit | .drd | .decbyte => .f0
  | .init | .predict | .cumprob | .update | .encbyte => .fb
  | .kt => .fk
  | .ctupd | .ctreupd => .fn
  | .loadhist => .fh
  | .decode | .dbit => .fr
  | .ebit => .fe

/-- `f64(b0..b7)`: the big-endian NUM field (R71, R81). -/
def numOfBytes (b0 b1 b2 b3 b4 b5 b6 b7 : Byte) : F64 :=
  b0 ++ b1 ++ b2 ++ b3 ++ b4 ++ b5 ++ b6 ++ b7

/-- Byte `j` of a NUM field, byte 0 the most significant (R71). -/
def numByte (x : F64) (j : Nat) : Byte := (x >>> (8 * (7 - j))).setWidth 8

/-- `be64(x)` of a NUM: its pattern, most significant byte first (R71). -/
def numBytes (x : F64) : List Byte := (List.range 8).map (numByte x)

/-- Read an 8-byte NUM field (R81 formats FR and FE). -/
def takeNum : List Byte → Option (F64 × List Byte)
  | b0 :: b1 :: b2 :: b3 :: b4 :: b5 :: b6 :: b7 :: rest =>
    some (numOfBytes b0 b1 b2 b3 b4 b5 b6 b7, rest)
  | _ => none

/-- Read LOADHIST's length byte and then that many seed bytes (R81 format FH, R88). -/
def takeSeed : List Byte → Option (List Byte × List Byte)
  | [] => none
  | len :: t => if len.toNat ≤ t.length then some (t.take len.toNat, t.drop len.toNat) else none

/-- Format F0. -/
def decodeF0 (i : Instr) (t : List Byte) : Decoded := .command i t

/-- Format FB: one byte field. -/
def decodeFB (mk : Byte → Instr) : List Byte → Decoded
  | b :: rest => .command (mk b) rest
  | _ => .incomplete

/-- Format FN: two byte fields. -/
def decodeFN (mk : Byte → Byte → Instr) : List Byte → Decoded
  | a :: b :: rest => .command (mk a b) rest
  | _ => .incomplete

/-- Format FK: three byte fields. -/
def decodeFK (mk : Byte → Byte → Byte → Instr) : List Byte → Decoded
  | a :: b :: c :: rest => .command (mk a b c) rest
  | _ => .incomplete

/-- Format FH: a length byte and that many bytes. -/
def decodeFH (mk : List Byte → Instr) (t : List Byte) : Decoded :=
  match takeSeed t with
  | some (seed, rest) => .command (mk seed) rest
  | none => .incomplete

/-- Format FR: one NUM field. -/
def decodeFR (mk : F64 → Instr) (t : List Byte) : Decoded :=
  match takeNum t with
  | some (x, rest) => .command (mk x) rest
  | none => .incomplete

/-- Format FE: a byte field and a NUM field. -/
def decodeFE (mk : Byte → F64 → Instr) : List Byte → Decoded
  | b :: t => decodeFR (mk b) t
  | [] => .incomplete

/-- The operand fields of the command whose opcode has been read (R81, R83). -/
def decodeOperands : Opcode → List Byte → Decoded
  | .init => decodeFB .init
  | .stat => decodeF0 .stat
  | .kt => decodeFK .kt
  | .ctupd => decodeFN .ctupd
  | .ctreupd => decodeFN .ctreupd
  | .loadhist => decodeFH .loadhist
  | .predict => decodeFB .predict
  | .cumprob => decodeFB .cumprob
  | .update => decodeFB .update
  | .decode => decodeFR .decode
  | .einit => decodeF0 .einit
  | .ebit => decodeFE .ebit
  | .eflush => decodeF0 .eflush
  | .erd => decodeF0 .erd
  | .dinit => decodeF0 .dinit
  | .dbit => decodeFR .dbit
  | .drd => decodeF0 .drd
  | .encbyte => decodeFB .encbyte
  | .decbyte => decodeF0 .decbyte

/-- DecodeCommand of R82 over the bytes from CP on. The opcode check needs only the first byte, so an
illegal opcode is reported before any completeness check. -/
def decodeCommand : List Byte → Decoded
  | [] => .ended
  | op :: t =>
    match opcodeOf op with
    | none => .illegalOpcode op
    | some o => decodeOperands o t

/-- The opcode of a command (R84). -/
def instrOpcode : Instr → Opcode
  | .init _ => .init
  | .stat => .stat
  | .kt _ _ _ => .kt
  | .ctupd _ _ => .ctupd
  | .ctreupd _ _ => .ctreupd
  | .loadhist _ => .loadhist
  | .predict _ => .predict
  | .cumprob _ => .cumprob
  | .update _ => .update
  | .decode _ => .decode
  | .einit => .einit
  | .ebit _ _ => .ebit
  | .eflush => .eflush
  | .erd => .erd
  | .dinit => .dinit
  | .dbit _ => .dbit
  | .drd => .drd
  | .encbyte _ => .encbyte
  | .decbyte => .decbyte

/-- The operand bytes of a command (R81). -/
def encodeOperands : Instr → List Byte
  | .init d => [d]
  | .kt n0 n1 s => [n0, n1, s]
  | .ctupd node bit => [node, bit]
  | .ctreupd node bit => [node, bit]
  | .loadhist seed => BitVec.ofNat 8 seed.length :: seed
  | .predict b => [b]
  | .cumprob b => [b]
  | .update b => [b]
  | .decode x => numBytes x
  | .ebit bit p0 => bit :: numBytes p0
  | .dbit p0 => numBytes p0
  | .encbyte b => [b]
  | .stat => []
  | .einit => []
  | .eflush => []
  | .erd => []
  | .dinit => []
  | .drd => []
  | .decbyte => []

/-- The bytes of a command: its opcode byte, then its operand fields (R80). -/
def encode (i : Instr) : List Byte := opcodeByte (instrOpcode i) :: encodeOperands i

/-- Column `length` of R84: 2 + len for LOADHIST, fixed by the format for every other command. -/
def commandLength (i : Instr) : Nat :=
  match opcodeFormat (instrOpcode i), i with
  | .fh, .loadhist seed => 2 + seed.length
  | .fh, _ => 2
  | .f0, _ => 1
  | .fb, _ => 2
  | .fk, _ => 4
  | .fn, _ => 3
  | .fr, _ => 9
  | .fe, _ => 10

/-- The length of the longest command, LOADHIST with 255 seed bytes (R80, R81). -/
def longestCommand : Nat := 257

/-- The bytes of a table word: byte `j` is bits 8j+7..8j of `w`, and every bit from `nbits` on is 0. DESIGN
CHOICE (log entry 15): byte 0, the opcode, stands lowest, so 0x010320 is CTUPD 3, 1. R80's bit string has byte
0 highest. No command is decoded from a word; CMD holds bytes. -/
def tableBytes (nbits w : Nat) : List Byte :=
  (List.range longestCommand).map (fun j => BitVec.ofNat 8 ((w % 2 ^ nbits) >>> (8 * j)))

/-- The command the decoder reads from a word numbered as spec/opcode_table.json numbers it. -/
def decodeTableWord (nbits w : Nat) : Option Instr :=
  match decodeCommand (tableBytes nbits w) with
  | .command i _ => some i
  | .ended => none
  | .illegalOpcode _ => none
  | .incomplete => none

end Sys2Proof
end

