-- ==== Sys2Proof/Config.lean ====
section
/-!
DEFINITION. What an implementation fixes (the *param* and *constant* rows of 00_scope.md rule R5),
and the free values: constants with no body, which stand for every value the spec leaves unspecified.
-/
namespace Sys2Proof

/-- SAT_POLICY (R5, R124, D9): what a saturated beta does. -/
inductive SatPolicy where
  | reset
  | sticky
deriving DecidableEq, Repr

/-- REUPDATE_COUNTERS (R5, R129, D11): how a reupdate corrects the counters. -/
inductive ReupdateCounters where
  | restore
  | adjust
deriving DecidableEq, Repr

/-- The parameters of R5 that a model takes as fixed arguments. NUM is binary64 and PEND_BITS is
unbounded in the types themselves, so neither is a field. -/
structure Params where
  /-- BETA_MAX (D8), a NUM -/
  betaMax : F64
  /-- SAT_POLICY (D9) -/
  satPolicy : SatPolicy
  /-- REUPDATE_COUNTERS (D11) -/
  reupdateCounters : ReupdateCounters
  /-- NODE_CAP (D10) -/
  nodeCap : Nat
deriving DecidableEq, Repr

namespace Config

/-- The values rule R5 gives: BETA_MAX = 2^64, SAT_POLICY = reset, REUPDATE_COUNTERS = restore,
NODE_CAP = 2^24. -/
def defaultParams : Params :=
  { betaMax := 0x43F0000000000000#64, satPolicy := .reset, reupdateCounters := .restore,
    nodeCap := 2 ^ 24 }

/-- TOP, the top of the coding interval (R5, R180). -/
def top : Nat := 0xFFFFFF
/-- QTR, the quarter point (R5, R180). -/
def qtr : Nat := 0x400000
/-- HALF, the midpoint (R5, R180). -/
def half : Nat := 0x800000
/-- THREE_QTR, the three-quarter point (R5, R180). -/
def threeQtr : Nat := 0xC00000
/-- CNT_MAX: a counter that reaches it halves both counters (R5, R127). -/
def cntMax : Nat := 255
/-- CNT_BOTH: two counters at or above it halve both (R5, R127). -/
def cntBoth : Nat := 128
/-- BDT_NODES: internal nodes of the byte decomposition tree (R5, R37). -/
def bdtNodes : Nat := 255

/-- FREE VALUE: a NUM the spec leaves unspecified (CACHE, SCR, BM[i] at a saturated node). The first
argument is the state's free-value counter, the second tells the values drawn at one count apart. -/
opaque freeNum : Nat → Nat → F64

/-- FREE VALUE: a byte the spec leaves unspecified (HIST, CACHE.BYTE, SCR.OWNER, saved counters). -/
opaque freeByte : Nat → Nat → Byte

/-- FREE VALUE: a bit the spec leaves unspecified (SCR.SAT). -/
opaque freeBit : Nat → Nat → Bool

/-- FREE VALUE: a node handle the spec leaves unspecified (SCR.PATH). -/
opaque freePath : Nat → Nat → KeyPath

/-- FREE VALUE: sign and payload of a NaN result, which neither the spec nor IEEE 754 fixes. The
first argument tells the operations apart, the others are the operands. -/
opaque nanBits : Nat → F64 → F64 → BitVec 52

/-- FREE VALUE: the floor of a NaN in the threshold rule, which no legal state asks for (R182). -/
opaque freeFloor : F64 → Nat

end Config
end Sys2Proof
end

