-- ==== Sys2Proof/Machine/Num.lean ====
section
/-!
DEFINITION. NUM arithmetic: IEEE 754 binary64, round to nearest, ties to even, subnormals kept, no
fused operations and no flags (00_scope.md rule R8, 60_exceptions.md rule R242, decision D3).

A finite NUM is a whole number of units of 2^-1074. Each operation computes the exact result as a
fraction of units and rounds it ONCE (`roundUnits`).
-/
namespace Sys2Proof.Machine

/-- How many units make 1.0: a unit is the smallest subnormal, 2^-1074. -/
def unitsPerOne : Nat := 2 ^ 1074

/-- The sign bit. -/
def numSign (x : F64) : Bool := x.msb

/-- Exponent and fraction fields as one number: it rises with the magnitude. -/
def numMag (x : F64) : Nat := x.toNat % 2 ^ 63

/-- The magnitude pattern of infinity. -/
def infMag : Nat := 0x7FF * 2 ^ 52

/-- x is a NaN. -/
def numIsNaN (x : F64) : Bool := decide (infMag < numMag x)

/-- x is an infinity. -/
def numIsInf (x : F64) : Bool := decide (numMag x = infMag)

/-- The magnitude of a finite pattern in units of 2^-1074. -/
def magUnits (mag : Nat) : Nat :=
  if mag / 2 ^ 52 = 0 then mag % 2 ^ 52 else (2 ^ 52 + mag % 2 ^ 52) * 2 ^ (mag / 2 ^ 52 - 1)

/-- The magnitude of a finite x in units of 2^-1074. -/
def numUnits (x : F64) : Nat := magUnits (numMag x)

/-- A finite x in units of 2^-1074, with its sign. -/
def numSigned (x : F64) : Int := if numSign x then -(numUnits x : Int) else (numUnits x : Int)

/-- Round the quotient a / d to a whole number, ties to even. -/
def roundQuotient (a d : Nat) : Nat :=
  if d < 2 * (a % d) || (2 * (a % d) == d && (a / d) % 2 == 1) then a / d + 1 else a / d

/-- The magnitude pattern nearest to a / b units of 2^-1074, ties to even: 53 significant bits, or
fewer below the normal range. A pattern at or above `infMag` says that the result overflows. -/
def roundUnits (a b : Nat) : Nat :=
  let k := (a / b).log2 - 52
  k * 2 ^ 52 + roundQuotient a (b * 2 ^ k)

/-- A pattern from its sign and magnitude. -/
def packNum (neg : Bool) (mag : Nat) : F64 :=
  BitVec.ofNat 64 ((if neg then 2 ^ 63 else 0) + mag)

/-- The NUM nearest to a / b units; overflow gives infinity (round to nearest, IEEE 754). -/
def numRound (neg : Bool) (a b : Nat) : F64 := packNum neg (min (roundUnits a b) infMag)

/-- An infinity. -/
def numInf (neg : Bool) : F64 := packNum neg infMag

/-- A zero. -/
def numZero (neg : Bool) : F64 := packNum neg 0

/-- A NaN result: a quiet NaN whose sign and payload are free values (log entry 5). -/
def numNaN (op : Nat) (x y : F64) : F64 :=
  let f := Config.nanBits op x y
  f.extractLsb' 51 1 ++ 0x7FF#11 ++ 1#1 ++ f.extractLsb' 0 51

/-- `x + y`. -/
def numAdd (x y : F64) : F64 :=
  if numIsNaN x || numIsNaN y then numNaN 0 x y
  else if numIsInf x then
    if numIsInf y && (numSign x != numSign y) then numNaN 0 x y else x
  else if numIsInf y then y
  else
    let a := numSigned x + numSigned y
    if a = 0 then numZero (numSign x && numSign y)
    else numRound (decide (a < 0)) a.natAbs 1

/-- `x * y`. -/
def numMul (x y : F64) : F64 :=
  let neg := numSign x != numSign y
  if numIsNaN x || numIsNaN y then numNaN 1 x y
  else if numIsInf x || numIsInf y then
    if numMag x = 0 || numMag y = 0 then numNaN 1 x y else numInf neg
  else numRound neg (numUnits x * numUnits y) unitsPerOne

/-- `x / y`. -/
def numDiv (x y : F64) : F64 :=
  let neg := numSign x != numSign y
  if numIsNaN x || numIsNaN y then numNaN 2 x y
  else if numIsInf x then
    if numIsInf y then numNaN 2 x y else numInf neg
  else if numIsInf y then numZero neg
  else if numMag y = 0 then
    if numMag x = 0 then numNaN 2 x y else numInf neg
  else numRound neg (numUnits x * unitsPerOne) (numUnits y)

/-- The order of the non-NaN patterns; the two zeros are equal. -/
def numKey (x : F64) : Int := if numSign x then -(numMag x : Int) else (numMag x : Int)

/-- `x < y`, false if either is NaN (R8). -/
def numLt (x y : F64) : Bool := !numIsNaN x && !numIsNaN y && decide (numKey x < numKey y)

/-- `x <= y`, false if either is NaN (R8). -/
def numLe (x y : F64) : Bool := !numIsNaN x && !numIsNaN y && decide (numKey x ≤ numKey y)

/-- An integer as a real operand: exact below 2^53 (R8). -/
def numOfNat (n : Nat) : F64 := numRound false (n * unitsPerOne) 1

/-- `floor(x)` for the threshold rule, which asks for it only where x is finite and not negative
(R183). Below zero it is 0 here, which the rule's clamp cannot tell from the true floor; of a NaN it is
a free value (log entry 5). -/
def numFloor (x : F64) : Nat :=
  if numIsNaN x then Config.freeFloor x
  else if numSign x then 0
  else numUnits x / unitsPerOne

/-- 1.0 -/
def numOne : F64 := 0x3FF0000000000000#64
/-- 0.0625, the pseudo-count KT_A (R5) -/
def ktA : F64 := 0x3FB0000000000000#64
/-- 0.125, the pseudo-count KT_B (R5) -/
def ktB : F64 := 0x3FC0000000000000#64

end Sys2Proof.Machine
end

