-- ==== Sys2Proof/Machine/Operands.lean ====
section
/-!
DEFINITION. Operand legality (30_encoding.md rules R83 and R87), and the big-endian integer fields
of results (20_memory.md rule R68, 30_encoding.md rule R86). The byte and NUM fields of commands are
read by Sys2Proof/Decode.lean, with no extension, scaling or shifting (R83).
-/
namespace Sys2Proof.Machine

/-- A bit or symbol operand outside 0..1 (R83). -/
def bitIllegal (b : Byte) : Bool := decide (1 < b.toNat)

/-- A node operand outside 1..255 (R83). -/
def nodeIllegal (node : Byte) : Bool := decide (node.toNat = 0)

/-- An order operand outside 1..15 (R83, R6). -/
def orderIllegal (d : Byte) : Bool := decide (d.toNat < 1) || decide (15 < d.toNat)

/-- A probability operand that is NaN, below 0.0 or above 1.0 (R87). -0.0 is accepted. -/
def probIllegal (x : F64) : Bool := numIsNaN x || numLt x 0#64 || numLt numOne x

/-- The bit a legal bit operand stands for. -/
def operandBit (b : Byte) : Bool := decide (b.toNat = 1)

/-- `beN(v)`: the `n`-byte big-endian form of `v` mod 2^(8n) (R86). -/
def beBytes : Nat → Nat → List Byte
  | 0, _ => []
  | n + 1, v => BitVec.ofNat 8 (v / 2 ^ (8 * n)) :: beBytes n v

end Sys2Proof.Machine
end

