-- ==== Sys2Proof/Machine/State.lean ====
section
/-!
DEFINITION. The state of the core (10_state.md, 20_memory.md), as plain data; the faults a command
raises (60_exceptions.md rule R240); the ways a step has no successor; and the state after reset (R50).

The spec's groups are kept: the model fields (CONFIGURED .. SCR), the encoder fields with the stream
OUT they write, the decoder fields, and the host-interface fields. STATUS is a view, not storage (R27).
-/
namespace Sys2Proof.Machine

/-- A pair of NUM values, one for each value of a bit: (pr0, pr1) or the masses (b0, b1) (R39). -/
structure BitPair where
  zero : F64
  one : F64
deriving DecidableEq, Repr

/-- The counters (n0, n1) of a context-tree node, 8 bits each (R29). -/
structure Counts where
  n0 : Byte
  n1 : Byte
deriving DecidableEq, Repr

/-- A context-tree node (R29). Its children are the nodes of the same tree one key longer. -/
structure CtNode where
  counts : Counts
  beta : F64
deriving DecidableEq, Repr

/-- A context tree (R32): its nodes by key path, in rising order of path and without repeats; the
root is the node at the empty path. A tree with no node is a tree that does not exist yet (R50). -/
abbrev CtTree := List (KeyPath × CtNode)

/-- The prediction cache CACHE (R38). -/
structure Cache where
  /-- CACHE.BYTE -/
  byte : Byte
  /-- CACHE.PROB -/
  prob : F64
  /-- CACHE.CUM -/
  cum : F64
  /-- CACHE.P0[0..7], by bit position -/
  p0 : Vector F64 8
  /-- CACHE.P1[0..7], by bit position -/
  p1 : Vector F64 8
deriving DecidableEq, Repr

/-- The scratch buffer SCR[k] of one level (R39). -/
structure Scratch where
  /-- VALID -/
  valid : Bool
  /-- OWNER, the BDT node whose tree last wrote the buffer -/
  owner : Byte
  /-- PATH[0..D-1], handles of nodes of TREE[OWNER] -/
  path : List KeyPath
  /-- SAVED[0..D-1], the counters before the last update -/
  saved : List Counts
  /-- PR[0..D-1], the probabilities at each path position -/
  pr : List BitPair
  /-- BM[0..D-2], the per-branch weighted masses -/
  bm : List BitPair
  /-- SAT[0..D-2], whether the node's beta was saturated -/
  sat : List Bool
deriving DecidableEq, Repr

/-- The model fields of R20. -/
structure Model where
  /-- CONFIGURED (R25) -/
  configured : Bool
  /-- D, the model order (R26) -/
  d : BitVec 4
  /-- TREE[1..255]: entry i is TREE[i+1] (R32) -/
  trees : Vector CtTree 255
  /-- NODES_USED (R34) -/
  nodesUsed : BitVec 32
  /-- HIST[0..D-1], most recent byte first (R35, R72) -/
  hist : List Byte
  /-- HLOADED (R35) -/
  hloaded : Bool
  /-- DIRTY (R36) -/
  dirty : Bool
  /-- CACHE (R38) -/
  cache : Cache
  /-- SCR[0..7] (R39) -/
  scr : Vector Scratch 8
  /-- THE MODEL'S OWN FIELD, not the spec's: how many free values have been drawn. The values the spec
  leaves unspecified are Config's opaque constants applied to it. -/
  fresh : Nat
deriving DecidableEq, Repr

/-- ESTATE (R40). -/
inductive EState where
  | active
  | flushed
deriving DecidableEq, Repr

/-- DSTATE (R46). -/
inductive DState where
  | idle
  | active
deriving DecidableEq, Repr

/-- The encoder fields of R20, and the stream OUT that only the encoder's packer writes (R66). -/
structure Encoder where
  /-- ESTATE (R40) -/
  mode : EState
  /-- ELOW (R41) -/
  low : Bound
  /-- EHIGH (R41) -/
  high : Bound
  /-- EPEND, unbounded (R42) -/
  pend : Nat
  /-- PACC (R43) -/
  acc : Byte
  /-- PCNT (R43) -/
  cnt : BitVec 3
  /-- OUT, append-only (R66) -/
  out : List Byte
deriving DecidableEq, Repr

/-- The decoder fields of R20. -/
structure Decoder where
  /-- DSTATE (R46) -/
  mode : DState
  /-- DLOW (R47) -/
  low : Bound
  /-- DHIGH (R47) -/
  high : Bound
  /-- DCODE (R47) -/
  code : Bound
  /-- INPOS, unbounded (R48) -/
  pos : Nat
deriving DecidableEq, Repr

/-- The state of the core (R20). -/
structure State where
  /-- CP, the command pointer, unbounded (R22) -/
  cp : Nat
  /-- FAULT (R23) -/
  fault : Bool
  /-- FCODE (R24) -/
  fcode : Byte
  /-- CMD, the command stream, read-only (R61) -/
  cmd : List Byte
  /-- IN, the compressed input stream, read-only (R63, R64) -/
  inp : List Byte
  /-- RES, the result stream, append-only (R67) -/
  res : List Byte
  /-- CONFIGURED, D, TREE, NODES_USED, HIST, HLOADED, DIRTY, CACHE, SCR -/
  model : Model
  /-- ESTATE, ELOW, EHIGH, EPEND, PACC, PCNT, OUT -/
  enc : Encoder
  /-- DSTATE, DLOW, DHIGH, DCODE, INPOS -/
  dec : Decoder
  /-- THE MODEL'S OWN FIELD: the fixed arguments of R5. No command and no reset writes it, so a claim
  about every state is a claim about every parameter value. -/
  params : Params
deriving DecidableEq, Repr

/-- The faults of R240, which a command raises by entering the fault state (R241): a NEXT state with
FAULT = 1, not an outcome of the step. -/
inductive FaultCode where
  | illegalOpcode
  | notConfigured
  | badOrder
  | badOperand
  | badProbability
  | historyLength
  | historyNotLoaded
  | updateWithoutPredict
  | updateMismatch
  | modelBusy
  | reupdateWithoutUpdate
  | nodeCapacity
  | encoderNotActive
  | decoderNotActive
deriving DecidableEq, Repr

/-- Why a step has no successor. Each is an end of a run in the sense of R276, raised by Machine/Step.lean
before any command is executed; no command's meaning ends in one. -/
inductive Fault where
  /-- FAULT = 1: the core has halted and executes no command until RESET (R23, R241). Safe: the model
  stops where the core stops. -/
  | halted
  /-- The command at CP is incomplete: the core waits for bytes that never come (R276, I16). Safe: the
  model stops where the core waits. -/
  | stuck
  /-- CP is at the end of CMD: the run is final, every command has completed (R276). Not a fault of the
  spec. Safe: the model stops where the core holds its state. -/
  | runEnded
deriving DecidableEq, Repr

/-- Refusals: commands the model gives no meaning. -/
inductive Refusal where
  /-- The command has no meaning in this model. No arm of exec raises it. Safe. -/
  | notModelled (mnemonic : String)
deriving DecidableEq, Repr

/-- CACHE after reset: unspecified by R50, all zero here (DESIGN CHOICE, log entry 4). -/
def Cache.reset : Cache :=
  { byte := 0, prob := 0, cum := 0, p0 := Vector.replicate 8 0, p1 := Vector.replicate 8 0 }

/-- SCR[k] after reset: VALID = 0 (R50), the other fields unspecified and empty or zero here
(DESIGN CHOICE, log entry 4). -/
def Scratch.reset : Scratch :=
  { valid := false, owner := 0, path := [], saved := [], pr := [], bm := [], sat := [] }

/-- The model fields after reset (R50). With D = 0 the window HIST[0..D-1] is empty. -/
def Model.reset : Model :=
  { configured := false, d := 0, trees := Vector.replicate 255 [], nodesUsed := 0, hist := [],
    hloaded := false, dirty := false, cache := Cache.reset, scr := Vector.replicate 8 Scratch.reset,
    fresh := 0 }

/-- The encoder fields and OUT after reset (R50). -/
def Encoder.reset : Encoder :=
  { mode := .active, low := 0x000000, high := 0xFFFFFF, pend := 0, acc := 0, cnt := 0, out := [] }

/-- The decoder fields after reset (R50). -/
def Decoder.reset : Decoder :=
  { mode := .idle, low := 0x000000, high := 0xFFFFFF, code := 0x000000, pos := 0 }

/-- The machine right after reset (R50), with nothing launched: CMD and IN empty, and the parameters
of R5. -/
def State.reset : State :=
  { cp := 0, fault := false, fcode := 0, cmd := [], inp := [], res := [], model := Model.reset,
    enc := Encoder.reset, dec := Decoder.reset, params := Config.defaultParams }

end Sys2Proof.Machine
end

