-- ==== Sys2Proof/Machine/Flags.lean ====
section
/-!
DEFINITION. The fault codes (60_exceptions.md rule R240) and the STATUS view (10_state.md rule R27).
-/
namespace Sys2Proof.Machine

/-- Column `code` of R240: the FCODE value of each fault. -/
def faultByte : FaultCode → Byte
  | .illegalOpcode => 0x01
  | .notConfigured => 0x02
  | .badOrder => 0x03
  | .badOperand => 0x04
  | .badProbability => 0x05
  | .historyLength => 0x06
  | .historyNotLoaded => 0x07
  | .updateWithoutPredict => 0x08
  | .updateMismatch => 0x09
  | .modelBusy => 0x0A
  | .reupdateWithoutUpdate => 0x0B
  | .nodeCapacity => 0x0C
  | .encoderNotActive => 0x0D
  | .decoderNotActive => 0x0E

/-- STATUS, the 32-bit view the status port always shows (R27, R65). From the top: 31:24 reserved,
FCODE, 15:12 reserved, D, 7:6 reserved, DACTIVE, EFLUSHED, DIRTY, HLOADED, CONFIGURED, FAULT. -/
def statusWord (s : State) : BitVec 32 :=
  0#8 ++ s.fcode ++ 0#4 ++ s.model.d ++ 0#2 ++ BitVec.ofBool (decide (s.dec.mode = .active)) ++
    BitVec.ofBool (decide (s.enc.mode = .flushed)) ++ BitVec.ofBool s.model.dirty ++
    BitVec.ofBool s.model.hloaded ++ BitVec.ofBool s.model.configured ++ BitVec.ofBool s.fault

end Sys2Proof.Machine
end

