-- ==== Sys2Proof/Machine/Ops.lean ====
section
/-!
DEFINITION. The operations the commands share: fetching, the stream primitives (20_memory.md), the node
store, the free values of unspecified fields, fault entry and the checks before it (60_exceptions.md),
and RESET, the only way back from a fault.
-/
namespace Sys2Proof.Machine

/-! ### Command stream and result stream -/

/-- The bytes of CMD from CP on: CmdByte(CP), CmdByte(CP+1), ... (R61, R80). -/
def fetchBytes (s : State) : List Byte := s.cmd.drop s.cp

/-- `CP <- CP + len` (R10, R22). -/
def advance (len : Nat) (s : State) : State := { s with cp := s.cp + len }

/-- `ResAppend(bytes)` (R67). -/
def resAppend (bytes : List Byte) (s : State) : State := { s with res := s.res ++ bytes }

/-- Replace the model fields. -/
def setModel (m : Model) (s : State) : State := { s with model := m }

/-- Replace the encoder fields. -/
def setEnc (e : Encoder) (s : State) : State := { s with enc := e }

/-- Replace the decoder fields. -/
def setDec (d : Decoder) (s : State) : State := { s with dec := d }

/-! ### Faults and reset -/

/-- Fault entry (R241): FAULT and FCODE are written and nothing else changes, so CP still indexes the
faulting command. -/
def raiseFault (c : FaultCode) (s : State) : State := { s with fault := true, fcode := faultByte c }

/-- RESET (R270): every field takes its reset value, whatever the core was doing. CMD and IN are the
host's and keep their bytes for the run that starts again at CP = 0 (R271, R273), and the parameters are
fixed. There is no trap return (R246). -/
def applyReset (s : State) : State :=
  { State.reset with cmd := s.cmd, inp := s.inp, params := s.params }

/-- The launch state of R273: the reset state with the CMD, IN and parameters the host gives. -/
def launch (params : Params) (cmd inp : List Byte) : State :=
  { State.reset with cmd := cmd, inp := inp, params := params }

/-- One check of a command: whether it fails, and the fault it then raises. -/
abbrev Check := Bool × FaultCode

/-- The first failing check (R243). -/
def firstFault : List Check → Option FaultCode
  | [] => none
  | (fails, c) :: rest => if fails then some c else firstFault rest

/-- A command whose checks fail has no effect except fault entry with the first failing check's code;
otherwise it has exactly its effect (R10, R241, R243). -/
def checked (checks : List Check) (effect : State → State) (s : State) :
    Host.Outcome State Fault Refusal :=
  match firstFault checks with
  | some c => .next (raiseFault c s)
  | none => .next (effect s)

/-- CONFIGURED = 0. -/
def checkConfigured (s : State) : Check := (!s.model.configured, .notConfigured)
/-- HLOADED = 0. -/
def checkHistory (s : State) : Check := (!s.model.hloaded, .historyNotLoaded)
/-- DIRTY = 1 for a command that needs a clean model. -/
def checkClean (s : State) : Check := (s.model.dirty, .modelBusy)
/-- ESTATE = FLUSHED. -/
def checkEncoder (s : State) : Check := (decide (s.enc.mode = .flushed), .encoderNotActive)
/-- DSTATE = IDLE. -/
def checkDecoder (s : State) : Check := (decide (s.dec.mode = .idle), .decoderNotActive)
/-- NODES_USED + need > NODE_CAP (R240, code 0x0C): a worst case, which counts every node as new. -/
def checkCapacity (need : Nat) (s : State) : Check :=
  (decide (s.params.nodeCap < s.model.nodesUsed.toNat + need), .nodeCapacity)

/-! ### The input stream -/

/-- Bit `i` of IN: `IN[i div 8][7 - (i mod 8)]`, and 0 past its end (R64, R69). -/
def inBitAt (inp : List Byte) (i : Nat) : Bool :=
  match inp[i / 8]? with
  | some b => b.getLsbD (7 - i % 8)
  | none => false

/-- `InBit()` (R69): the bit at INPOS, and INPOS moves past it. -/
def inBit (inp : List Byte) (d : Decoder) : Bool × Decoder :=
  (inBitAt inp d.pos, { d with pos := d.pos + 1 })

/-! ### The output stream -/

/-- `OutBit(x)`, the bit packer (R189). -/
def outBit (x : Bool) (e : Encoder) : Encoder :=
  let acc := BitVec.ofNat 8 (2 * e.acc.toNat + x.toNat)
  if e.cnt.toNat + 1 = 8 then { e with out := e.out ++ [acc], acc := 0, cnt := 0 }
  else { e with acc := acc, cnt := e.cnt + 1 }

/-- `repeat n times: OutBit(x)`. -/
def outBits (x : Bool) : Nat → Encoder → Encoder
  | 0, e => e
  | n + 1, e => outBits x n (outBit x e)

/-! ### The node store -/

/-- The order of key paths: a prefix first, then by the first key that differs. -/
def pathLt : KeyPath → KeyPath → Bool
  | [], [] => false
  | [], _ :: _ => true
  | _ :: _, [] => false
  | a :: p, b :: q => if a = b then pathLt p q else decide (a.toNat < b.toNat)

/-- The node at a path. -/
def treeGet : CtTree → KeyPath → Option CtNode
  | [], _ => none
  | (q, v) :: t, p => if q = p then some v else treeGet t p

/-- Write the node at a path: replace it, or put it at its place in the order. -/
def treePut : CtTree → KeyPath → CtNode → CtTree
  | [], p, v => [(p, v)]
  | (q, w) :: t, p, v =>
    if q = p then (p, v) :: t
    else if pathLt p q then (p, v) :: (q, w) :: t
    else (q, w) :: treePut t p v

/-- The canonical form of a tree: paths strictly rise, so none repeats. -/
def CtTree.wf : CtTree → Bool
  | [] => true
  | [_] => true
  | (p, _) :: (q, v) :: t => pathLt p q && CtTree.wf ((q, v) :: t)

/-- The canonical form of the node store. -/
def Model.storeWf (m : Model) : Bool := m.trees.all CtTree.wf

/-- A new node (R29): no counts, beta = 1.0. -/
def newNode : CtNode := { counts := { n0 := 0, n1 := 0 }, beta := numOne }

/-- A tree with one new root node (R155). -/
def newTree : CtTree := [([], newNode)]

/-- The place of TREE[n] in the store, for n = 1..255 (R37). -/
def treeIndex (n : Nat) : Fin 255 := ⟨(n - 1) % 255, Nat.mod_lt _ (by decide)⟩

/-- TREE[n] (R32). -/
def treeOf (m : Model) (n : Nat) : CtTree := m.trees[treeIndex n]

/-- Replace TREE[n]. -/
def setTree (n : Nat) (t : CtTree) (m : Model) : Model :=
  { m with trees := m.trees.set (treeIndex n) t }

/-- The paths of the nodes a walk visits for the keys k_0, k_1, ...: [k_0], [k_0, k_1], ... (R120). -/
def pathPrefixes : List Byte → List KeyPath
  | [] => []
  | k :: ks => [k] :: (pathPrefixes ks).map (k :: ·)

/-- Read the nodes at the given paths. A path with no node reads as a new node, which happens only in
states no run reaches. -/
def nodesAt (t : CtTree) (ps : List KeyPath) : List CtNode := ps.map (fun p => (treeGet t p).getD newNode)

/-- Write one node at each of the given paths. -/
def putNodes : CtTree → List KeyPath → List CtNode → CtTree
  | t, p :: ps, v :: vs => putNodes (treePut t p v) ps vs
  | t, _, _ => t

/-! ### Unspecified fields -/

/-- CACHE while DIRTY = 0 (R38, I2): a free value. -/
def freeCache (c : Nat) : Cache :=
  { byte := Config.freeByte c 0, prob := Config.freeNum c 0, cum := Config.freeNum c 1,
    p0 := Vector.ofFn (fun k => Config.freeNum c (2 + k.val)),
    p1 := Vector.ofFn (fun k => Config.freeNum c (10 + k.val)) }

/-- HIST while HLOADED = 0 (R35, I1): D free bytes. -/
def freeHist (c d : Nat) : List Byte := (List.range d).map (fun i => Config.freeByte c i)

/-- BM[i] where SAT[i] = 1 (R128, I4): a free value. -/
def freeMass (c i : Nat) : BitPair :=
  { zero := Config.freeNum c (2 * i), one := Config.freeNum c (2 * i + 1) }

/-- SCR[k] while VALID = 0 (R39, I3): every other field is a free value, of the buffer's shape. -/
def freeScratch (c d : Nat) : Scratch :=
  { valid := false
    owner := Config.freeByte c 0
    path := (List.range d).map (fun i => Config.freePath c i)
    saved := (List.range d).map
      (fun i => { n0 := Config.freeByte c (1 + 2 * i), n1 := Config.freeByte c (2 + 2 * i) })
    pr := (List.range d).map
      (fun i => { zero := Config.freeNum c (4 * i), one := Config.freeNum c (4 * i + 1) })
    bm := (List.range (d - 1)).map
      (fun i => { zero := Config.freeNum c (4 * i + 2), one := Config.freeNum c (4 * i + 3) })
    sat := (List.range (d - 1)).map (fun i => Config.freeBit c i) }

/-- `SCR[k].VALID <- 0`: the buffer's other fields become unspecified (R39). -/
def invalidate (k : Fin 8) (m : Model) : Model :=
  { m with scr := m.scr.set k (freeScratch m.fresh m.d.toNat), fresh := m.fresh + 1 }

/-! ### The decomposition tree's numbering -/

/-- Level(n) = 7 - floor(log2 n): the byte bit that node n decides (R37). -/
def levelOf (n : Nat) : Fin 8 := ⟨7 - n.log2, by omega⟩

/-- The node that decides bit k of byte b: `(0x100 | b) >> (k+1)` (R37). -/
def nodeFor (b : Byte) (k : Nat) : Nat := (0x100 ||| b.toNat) >>> (k + 1)

/-- The levels of a walk, bit 7 first (R150). -/
def levels : List (Fin 8) := [7, 6, 5, 4, 3, 2, 1, 0]

end Sys2Proof.Machine
end

