-- ==== Sys2Proof/Machine/Kt.lean ====
section
/-!
DEFINITION. kt_estimator_lut: the KT estimator (41_kt.md rule R110) and the KT command (R112). The table
is a constant whose entries equal the formula, so the formula is computed directly (R78, R110).
-/
namespace Sys2Proof.Machine

/-- `KT(n0, n1, s)` (R110), each sum and the quotient one NUM operation in the order written. -/
def kt (n0 n1 : Byte) (s : Bool) : F64 :=
  let c := if s then n1 else n0
  numDiv (numAdd (numOfNat c.toNat) ktA)
    (numAdd (numAdd (numOfNat n0.toNat) (numOfNat n1.toNat)) ktB)

/-- The pair (KT(n0, n1, 0), KT(n0, n1, 1)) (R123). -/
def ktPair (c : Counts) : BitPair := { zero := kt c.n0 c.n1 false, one := kt c.n0 c.n1 true }

/-- KT n0, n1, s (R112): a pure read of the table, legal in every state. -/
def execKt (n0 n1 sym : Byte) (s : State) : Host.Outcome State Fault Refusal :=
  checked [(bitIllegal sym, .badOperand)]
    (fun s => advance 4 (resAppend (numBytes (kt n0 n1 (operandBit sym))) s)) s

end Sys2Proof.Machine
end

