-- ==== Sys2Proof/Machine/ContextTree.lean ====
section
/-!
DEFINITION. context_tree_mixer: CtUpdate and CtReupdate (42_context_tree.md rules R120 to R130) and the
commands CTUPD (R131) and CTREUPD (R132).
-/
namespace Sys2Proof.Machine

/-! ### The walk -/

/-- The keys HIST[0..D-1] (R120). -/
def window (m : Model) : List Byte := m.hist.take m.d.toNat

/-- Create every missing node of a path; answer the tree and how many nodes are new (R120). -/
def createPath : CtTree → List KeyPath → CtTree × Nat
  | t, [] => (t, 0)
  | t, p :: ps =>
    match treeGet t p with
    | some _ => createPath t ps
    | none =>
      let r := createPath (treePut t p newNode) ps
      (r.1, r.2 + 1)

/-! ### Mixing -/

/-- The pair at the head of a list of pairs: PR[i+1] seen from position i, or PR[0] of a whole path. A
path is never empty in a legal state, and the pair of an empty one is a free value. -/
def topPair : List BitPair → BitPair
  | p :: _ => p
  | [] => { zero := Config.freeNum 0 0, one := Config.freeNum 0 1 }

/-- `v.beta >= BETA_MAX` (R124). -/
def saturated (p : Params) (v : CtNode) : Bool := numLe p.betaMax v.beta

/-- The masses (b0, b1) of R125. -/
def nodeMass (v : CtNode) : BitPair :=
  let bp := numDiv v.beta
    (numAdd (numAdd (numOfNat v.counts.n0.toNat) (numOfNat v.counts.n1.toNat)) ktB)
  { zero := numMul bp (numAdd (numOfNat v.counts.n0.toNat) ktA)
    one := numMul bp (numAdd (numOfNat v.counts.n1.toNat) ktA) }

/-- PR[i] of R125: masses `b` plus the child's probabilities `c`, normalized. -/
def mixPair (b c : BitPair) : BitPair :=
  let s0 := numAdd b.zero c.zero
  let s1 := numAdd b.one c.one
  let t := numAdd s0 s1
  { zero := numDiv s0 t, one := numDiv s1 t }

/-- What the mixing of a path computes: PR[0..D-1], BM[0..D-2] and SAT[0..D-2]. -/
structure PathMix where
  pr : List BitPair
  bm : List BitPair
  sat : List Bool
deriving DecidableEq, Repr

/-- Mixing bottom-up over the nodes from path position `i` on (R122 to R125): first the leaf, then each
internal node over the pair below it. `c` counts the free values, one of which is BM at a saturated
node. -/
def mixPath (p : Params) (c : Nat) : Nat → List CtNode → PathMix
  | _, [] => { pr := [], bm := [], sat := [] }
  | _, [leaf] => { pr := [ktPair leaf.counts], bm := [], sat := [] }
  | i, v :: w :: vs =>
    let below := mixPath p c (i + 1) (w :: vs)
    let child := topPair below.pr
    if saturated p v then
      { pr := child :: below.pr, bm := freeMass c i :: below.bm, sat := true :: below.sat }
    else
      { pr := mixPair (nodeMass v) child :: below.pr, bm := nodeMass v :: below.bm,
        sat := false :: below.sat }

/-! ### Counters and beta -/

/-- Age(v) (R127). -/
def age (c : Counts) : Counts :=
  if c.n0.toNat = Config.cntMax ∨ c.n1.toNat = Config.cntMax ∨
      (Config.cntBoth ≤ c.n0.toNat ∧ Config.cntBoth ≤ c.n1.toNat) then
    { n0 := c.n0 >>> 1, n1 := c.n1 >>> 1 }
  else c

/-- Increment the counter of the observed bit. -/
def bump (bit : Bool) (c : Counts) : Counts :=
  if bit then { c with n1 := c.n1 + 1 } else { c with n0 := c.n0 + 1 }

/-- Increment, then age (R127). -/
def countBit (bit : Bool) (c : Counts) : Counts := age (bump bit c)

/-- The component of a pair for a bit. -/
def BitPair.get (b : BitPair) (bit : Bool) : F64 := if bit then b.one else b.zero

/-- The beta an update gives an internal node: R124 at a saturated node, R126 at any other, from its
masses `b` and the child's probabilities `c`. -/
def betaAfter (p : Params) (bit sat : Bool) (v : CtNode) (b c : BitPair) : F64 :=
  if sat then
    match p.satPolicy with
    | .reset => numOne
    | .sticky => v.beta
  else numDiv (b.get bit) (c.get bit)

/-- The node at path position `i` after an update with `bit` (R124, R126, R127); the last position is
the leaf, whose beta stays. -/
def updateNode (p : Params) (bit : Bool) (mix : PathMix) (i : Nat) (v : CtNode) : CtNode :=
  { counts := countBit bit v.counts
    beta :=
      match mix.sat[i]?, mix.bm[i]? with
      | some sat, some b => betaAfter p bit sat v b (topPair (mix.pr.drop (i + 1)))
      | _, _ => v.beta }

/-- CtUpdate(n, bit, k) (R120 to R128): walk, mix, count, and record the work in SCR[k]. -/
def ctUpdate (p : Params) (n : Nat) (bit : Bool) (k : Fin 8) (m : Model) : BitPair × Model :=
  let ps := pathPrefixes (window m)
  let made := createPath (treeOf m n) ps
  let vs := nodesAt made.1 ps
  let mix := mixPath p m.fresh 0 vs
  let t := putNodes made.1 ps (vs.mapIdx (updateNode p bit mix))
  let scratch : Scratch :=
    { valid := true, owner := BitVec.ofNat 8 n, path := ps, saved := vs.map (·.counts),
      pr := mix.pr, bm := mix.bm, sat := mix.sat }
  (topPair mix.pr,
    { setTree n t m with
      nodesUsed := m.nodesUsed + BitVec.ofNat 32 made.2
      scr := m.scr.set k scratch
      fresh := m.fresh + 1 })

/-! ### Reupdate -/

/-- The counters a reupdate with bit 1 gives a node, from its present counters and the saved ones (R129,
R130). In `adjust`, the natural-number subtraction is the rule's max(n0 - 1, 0). -/
def reupdateCounts (p : Params) (saved now : Counts) : Counts :=
  match p.reupdateCounters with
  | .restore => age { n0 := saved.n0, n1 := saved.n1 + 1 }
  | .adjust => age { n0 := BitVec.ofNat 8 (now.n0.toNat - 1), n1 := now.n1 + 1 }

/-- The node at path position `i` after a reupdate with bit 1 (R129). Position D-1, the leaf, has no
entry in SAT and keeps its beta, and so does a saturated node. -/
def reupdateNode (p : Params) (scr : Scratch) (i : Nat) (v : CtNode) : CtNode :=
  { counts := reupdateCounts p (scr.saved.getD i v.counts) v.counts
    beta :=
      match scr.sat[i]?, scr.bm[i]? with
      | some false, some b => numDiv b.one (topPair (scr.pr.drop (i + 1))).one
      | _, _ => v.beta }

/-- CtReupdate(n, bit, k) (R129), its precondition established by the caller. -/
def ctReupdate (p : Params) (n : Nat) (bit : Bool) (k : Fin 8) (m : Model) : Model :=
  let scr := m.scr[k]
  let corrected :=
    if bit then
      let vs := nodesAt (treeOf m n) scr.path
      setTree n (putNodes (treeOf m n) scr.path (vs.mapIdx (reupdateNode p scr))) m
    else m
  invalidate k corrected

/-- SCR[Level(node)].VALID = 0 or SCR[Level(node)].OWNER != node (R129). -/
def checkScratch (node : Byte) (s : State) : Check :=
  let scr := s.model.scr[levelOf node.toNat]
  (!scr.valid || decide (scr.owner ≠ node), .reupdateWithoutUpdate)

/-! ### Commands -/

/-- CTUPD node, bit (R131). -/
def execCtupd (node bit : Byte) (s : State) : Host.Outcome State Fault Refusal :=
  checked
    [(nodeIllegal node, .badOperand), (bitIllegal bit, .badOperand), checkConfigured s,
     checkHistory s, checkClean s, checkCapacity s.model.d.toNat s]
    (fun s =>
      let r := ctUpdate s.params node.toNat (operandBit bit) (levelOf node.toNat) s.model
      advance 3 (resAppend (numBytes r.1.zero ++ numBytes r.1.one) (setModel r.2 s))) s

/-- CTREUPD node, bit (R132). -/
def execCtreupd (node bit : Byte) (s : State) : Host.Outcome State Fault Refusal :=
  checked
    [(nodeIllegal node, .badOperand), (bitIllegal bit, .badOperand), checkConfigured s,
     checkClean s, checkScratch node s]
    (fun s =>
      advance 3
        (setModel (ctReupdate s.params node.toNat (operandBit bit) (levelOf node.toNat) s.model) s)) s

end Sys2Proof.Machine
end

