-- ==== Sys2Proof/Machine/Bdt.lean ====
section
/-!
DEFINITION. byte_decomposition_tree: the walk and the commit (43_bdt.md rules R150 to R153) and the
commands INIT, LOADHIST, PREDICT, CUMPROB, UPDATE and DECODE (R155 to R160).
-/
namespace Sys2Proof.Machine

/-! ### The walk -/

/-- A chooser picks the bit at level k from the level's p0 and the threshold c1 (R151). `σ` is what it
may change: nothing, or the decoder. -/
abbrev Chooser (σ : Type) := Fin 8 → F64 → F64 → σ → Bool × σ

/-- `Known(b)`: bit k of b (R151). -/
def known (b : Byte) : Chooser Unit := fun k _ _ u => (b.getLsbD k, u)

/-- `Target(x)`: 0 if x < c1 and 1 otherwise, so a NaN gives 1 (R151). -/
def target (x : F64) : Chooser Unit := fun _ _ c1 u => (!numLt x c1, u)

/-- The running values of a walk (R152), with the model and what the chooser changes. -/
structure Walking (σ : Type) where
  model : Model
  outer : σ
  prob : F64
  cum : F64
  node : Nat

/-- One level of a walk (R152). -/
def walkLevel {σ : Type} (p : Params) (choose : Chooser σ) (w : Walking σ) (k : Fin 8) : Walking σ :=
  let r := ctUpdate p w.node false k w.model
  let m : Model :=
    { r.2 with cache := { r.2.cache with p0 := r.2.cache.p0.set k r.1.zero,
                                         p1 := r.2.cache.p1.set k r.1.one } }
  let z := numMul w.prob r.1.zero
  let c1 := numAdd w.cum z
  let ch := choose k r.1.zero c1 w.outer
  { model := m
    outer := ch.2
    prob := if ch.1 then numMul w.prob r.1.one else z
    cum := if ch.1 then c1 else w.cum
    node := 2 * w.node + ch.1.toNat }

/-- A walk's running values before its first level (R152). -/
def walkStart {σ : Type} (m : Model) (o : σ) : Walking σ :=
  { model := m, outer := o, prob := numOne, cum := 0, node := 1 }

/-- Walk(chooser) (R152). The byte is CACHE.BYTE of the model it answers. -/
def walk {σ : Type} (p : Params) (choose : Chooser σ) (m : Model) (o : σ) : Model × σ :=
  let w := levels.foldl (walkLevel p choose) (walkStart m o)
  ({ w.model with
      cache := { w.model.cache with byte := BitVec.ofNat 8 (w.node - 256), prob := w.prob,
                                    cum := w.cum }
      dirty := true }, w.outer)

/-! ### The commit -/

/-- One level of a commit of byte b, at BDT node `c.1` (R153). -/
def commitLevel (p : Params) (b : Byte) (c : Nat × Model) (k : Fin 8) : Nat × Model :=
  let bit := b.getLsbD k
  let m := if bit then ctReupdate p c.1 true k c.2 else c.2
  (2 * c.1 + bit.toNat, invalidate k m)

/-- Commit(b) (R153): correct the levels whose bit is 1, push b into the history, go clean. CACHE becomes
unspecified. -/
def commit (p : Params) (b : Byte) (m : Model) : Model :=
  let c := (levels.foldl (commitLevel p b) (1, m)).2
  { c with hist := (b :: c.hist).take c.d.toNat, dirty := false, cache := freeCache c.fresh,
           fresh := c.fresh + 1 }

/-! ### Commands -/

/-- The model INIT d builds (R155): 255 trees of one new root, and nothing pending. HIST, CACHE and the
scratch become unspecified (R35, R38, R39). -/
def initModel (d : BitVec 4) (m : Model) : Model :=
  { configured := true
    d := d
    trees := Vector.replicate 255 newTree
    nodesUsed := BitVec.ofNat 32 Config.bdtNodes
    hist := freeHist m.fresh d.toNat
    hloaded := false
    dirty := false
    cache := freeCache (m.fresh + 1)
    scr := Vector.ofFn (fun k => freeScratch (m.fresh + 2 + k.val) d.toNat)
    fresh := m.fresh + 10 }

/-- INIT d (R155): legal in every state, and it leaves the coders alone. -/
def execInit (d : Byte) (s : State) : Host.Outcome State Fault Refusal :=
  checked [(orderIllegal d, .badOrder)]
    (fun s => advance 2 (setModel (initModel (d.setWidth 4) s.model) s)) s

/-- LOADHIST s_0, ..., s_{len-1} (R156): the seed reversed becomes the window. -/
def execLoadhist (seed : List Byte) (s : State) : Host.Outcome State Fault Refusal :=
  checked
    [checkConfigured s, (decide (seed.length ≠ s.model.d.toNat), .historyLength), checkClean s]
    (fun s =>
      advance (2 + seed.length)
        (setModel { s.model with hist := seed.reverse, hloaded := true } s)) s

/-- The checks PREDICT, CUMPROB and DECODE share: the capacity is checked only when a walk will run
(R157). -/
def queryChecks (s : State) : List Check :=
  [checkConfigured s, checkHistory s,
   (!s.model.dirty && (checkCapacity (8 * s.model.d.toNat) s).1, .nodeCapacity)]

/-- Walk when clean; while dirty the model stays and the cache is read again (R157, D23). -/
def query (choose : Chooser Unit) (s : State) : State :=
  if s.model.dirty then s else setModel (walk s.params choose s.model ()).1 s

/-- PREDICT b (R157). -/
def execPredict (b : Byte) (s : State) : Host.Outcome State Fault Refusal :=
  checked (queryChecks s)
    (fun s =>
      let q := query (known b) s
      advance 2 (resAppend (numBytes q.model.cache.prob) q)) s

/-- CUMPROB b (R158). -/
def execCumprob (b : Byte) (s : State) : Host.Outcome State Fault Refusal :=
  checked (queryChecks s)
    (fun s =>
      let q := query (known b) s
      advance 2 (resAppend (numBytes q.model.cache.cum) q)) s

/-- DECODE x (R160). -/
def execDecode (x : F64) (s : State) : Host.Outcome State Fault Refusal :=
  checked (queryChecks s)
    (fun s =>
      let q := query (target x) s
      advance 9 (resAppend [q.model.cache.byte] q)) s

/-- UPDATE b (R159). -/
def execUpdate (b : Byte) (s : State) : Host.Outcome State Fault Refusal :=
  checked
    [checkConfigured s, checkHistory s, (!s.model.dirty, .updateWithoutPredict),
     (decide (b ≠ s.model.cache.byte), .updateMismatch)]
    (fun s => advance 2 (setModel (commit s.params b s.model) s)) s

end Sys2Proof.Machine
end

