-- ==== Sys2Proof/Machine/Coder.lean ====
section
/-!
DEFINITION. binary_arithmetic_coder: the threshold, the encoder, the flush, the decoder (44_coder.md rules
R180 to R201) and the commands EINIT, EBIT, EFLUSH, ERD, DINIT, DBIT and DRD (R195 to R204).

Bounds are computed as whole numbers (R7). The results fit their 24-bit fields whenever low <= high
(R188); in states no run reaches they are taken mod 2^24 (log entry 6).
-/
namespace Sys2Proof.Machine

/-! ### Interval and threshold -/

/-- `range = high - low + 1` (R181). -/
def rangeOf (low high : Bound) : Nat := high.toNat + 1 - low.toNat

/-- Thresh(p0, range) (R183): one multiply, floor, clamp to [1, range - 1]. -/
def thresh (p0 : F64) (range : Nat) : Nat :=
  max 1 (min (numFloor (numMul p0 (numOfNat range))) (range - 1))

/-- Narrow an interval to the part of the bit (R184, R201). -/
def narrow (bit : Bool) (t : Nat) (low high : Bound) : Bound × Bound :=
  if bit then (BitVec.ofNat 24 (low.toNat + t), high)
  else (low, BitVec.ofNat 24 (low.toNat + t - 1))

/-- The renormalization cases (R185, R186). -/
inductive Scaling where
  /-- case (a): high < HALF -/
  | e1
  /-- case (b): low >= HALF -/
  | e2
  /-- case (c): the interval straddles the midpoint inside [QTR, THREE_QTR) -/
  | e3
deriving DecidableEq, Repr

/-- The case that applies, tested in the order (a), (b), (c) (R185). -/
def scalingOf (low high : Bound) : Option Scaling :=
  if high.toNat < Config.half then some .e1
  else if Config.half ≤ low.toNat then some .e2
  else if Config.qtr ≤ low.toNat ∧ high.toNat < Config.threeQtr then some .e3
  else none

/-- What a case subtracts from both bounds, and from the decoder's code (R186, R201). -/
def scalingOffset : Scaling → Nat
  | .e1 => 0
  | .e2 => Config.half
  | .e3 => Config.qtr

/-- `low <- 2 * (low - offset)`. -/
def scaleLow (c : Scaling) (low : Bound) : Bound :=
  BitVec.ofNat 24 (2 * (low.toNat - scalingOffset c))

/-- `high <- 2 * (high - offset) + 1`. -/
def scaleHigh (c : Scaling) (high : Bound) : Bound :=
  BitVec.ofNat 24 (2 * (high.toNat - scalingOffset c) + 1)

/-- How many passes a renormalization loop makes at most (R275). -/
def maxPasses : Nat := 24

/-! ### Encoder -/

/-- EmitPend(x) (R187). -/
def emitPend (x : Bool) (e : Encoder) : Encoder :=
  { outBits (!x) e.pend (outBit x e) with pend := 0 }

/-- What a case emits or counts (R186). -/
def scalingEmit (c : Scaling) (e : Encoder) : Encoder :=
  match c with
  | .e1 => emitPend false e
  | .e2 => emitPend true e
  | .e3 => { e with pend := e.pend + 1 }

/-- One pass of the encoder's loop in case `c`: emit, subtract, double (R185, R186). -/
def encPass (c : Scaling) (e : Encoder) : Encoder :=
  let f := scalingEmit c e
  { f with low := scaleLow c f.low, high := scaleHigh c f.high }

/-- The encoder's renormalization loop (R185), of at most `fuel` passes. -/
def encRenorm : Nat → Encoder → Encoder
  | 0, e => e
  | fuel + 1, e =>
    match scalingOf e.low e.high with
    | none => e
    | some c => encRenorm fuel (encPass c e)

/-- EncodeBit(bit, p0) (R184 to R187). -/
def encodeBit (bit : Bool) (p0 : F64) (e : Encoder) : Encoder :=
  let n := narrow bit (thresh p0 (rangeOf e.low e.high)) e.low e.high
  encRenorm maxPasses { e with low := n.1, high := n.2 }

/-- Append the partial byte, padded with 0 bits (R190). -/
def padOut (e : Encoder) : Encoder :=
  if 0 < e.cnt.toNat then
    { e with out := e.out ++ [BitVec.ofNat 8 (e.acc.toNat * 2 ^ (8 - e.cnt.toNat))], acc := 0,
             cnt := 0 }
  else e

/-- Flush() (R190). -/
def flushBits (e : Encoder) : Encoder :=
  padOut (emitPend (decide (Config.qtr ≤ e.low.toNat)) { e with pend := e.pend + 1 })

/-! ### Decoder -/

/-- `code <- (2 * (code - offset) + InBit()) mod 2^24` (R201). -/
def scaleCode (c : Scaling) (code : Bound) (x : Bool) : Bound :=
  2 * (code - BitVec.ofNat 24 (scalingOffset c)) + BitVec.ofNat 24 x.toNat

/-- One pass of the decoder's loop in case `c` (R201). -/
def decPass (inp : List Byte) (c : Scaling) (d : Decoder) : Decoder :=
  let r := inBit inp d
  { r.2 with low := scaleLow c d.low, high := scaleHigh c d.high, code := scaleCode c d.code r.1 }

/-- The decoder's renormalization loop (R201), of at most `fuel` passes. -/
def decRenorm (inp : List Byte) : Nat → Decoder → Decoder
  | 0, d => d
  | fuel + 1, d =>
    match scalingOf d.low d.high with
    | none => d
    | some c => decRenorm inp fuel (decPass inp c d)

/-- DecodeBit(p0) (R201): bit 0 exactly when the code is below low + T. -/
def decodeBit (inp : List Byte) (p0 : F64) (d : Decoder) : Bool × Decoder :=
  let t := thresh p0 (rangeOf d.low d.high)
  let bit := !decide (d.code.toNat < d.low.toNat + t)
  let n := narrow bit t d.low d.high
  (bit, decRenorm inp maxPasses { d with low := n.1, high := n.2 })

/-- `repeat n times: DCODE <- 2 * DCODE + InBit()` (R200). -/
def seedCode (inp : List Byte) : Nat → Decoder → Decoder
  | 0, d => d
  | n + 1, d =>
    let r := inBit inp d
    seedCode inp n { r.2 with code := BitVec.ofNat 24 (2 * d.code.toNat + r.1.toNat) }

/-- The seeding of R200. -/
def seedDecoder (inp : List Byte) : Decoder :=
  { seedCode inp 24 { mode := .idle, low := 0x000000, high := 0xFFFFFF, code := 0, pos := 0 } with
    mode := .active }

/-! ### Commands -/

/-- EINIT (R195): legal in every state; OUT stays, the packer's partial byte is discarded. -/
def execEinit (s : State) : Host.Outcome State Fault Refusal :=
  checked []
    (fun s =>
      advance 1
        (setEnc { mode := .active, low := 0x000000, high := 0xFFFFFF, pend := 0, acc := 0, cnt := 0,
                  out := s.enc.out } s)) s

/-- EBIT bit, p0 (R196). -/
def execEbit (bit : Byte) (p0 : F64) (s : State) : Host.Outcome State Fault Refusal :=
  checked [(bitIllegal bit, .badOperand), (probIllegal p0, .badProbability), checkEncoder s]
    (fun s => advance 10 (setEnc (encodeBit (operandBit bit) p0 s.enc) s)) s

/-- EFLUSH (R197). -/
def execEflush (s : State) : Host.Outcome State Fault Refusal :=
  checked [checkEncoder s]
    (fun s => advance 1 (setEnc { flushBits s.enc with mode := .flushed } s)) s

/-- ERD (R198). -/
def execErd (s : State) : Host.Outcome State Fault Refusal :=
  checked []
    (fun s =>
      advance 1
        (resAppend
          (beBytes 3 s.enc.low.toNat ++ beBytes 3 s.enc.high.toNat ++ beBytes 8 s.enc.pend ++
            beBytes 1 s.enc.cnt.toNat ++ [s.enc.acc]) s)) s

/-- DINIT (R199, R200): legal in every state, and each one restarts at bit 0 of IN. -/
def execDinit (s : State) : Host.Outcome State Fault Refusal :=
  checked [] (fun s => advance 1 (setDec (seedDecoder s.inp) s)) s

/-- DBIT p0 (R203). -/
def execDbit (p0 : F64) (s : State) : Host.Outcome State Fault Refusal :=
  checked [(probIllegal p0, .badProbability), checkDecoder s]
    (fun s =>
      let r := decodeBit s.inp p0 s.dec
      advance 9 (resAppend [BitVec.ofNat 8 r.1.toNat] (setDec r.2 s))) s

/-- DRD (R204). -/
def execDrd (s : State) : Host.Outcome State Fault Refusal :=
  checked []
    (fun s =>
      advance 1
        (resAppend
          (beBytes 3 s.dec.low.toNat ++ beBytes 3 s.dec.high.toNat ++ beBytes 3 s.dec.code.toNat ++
            beBytes 8 s.dec.pos) s)) s

end Sys2Proof.Machine
end

