-- ==== Sys2Proof/Machine/Stream.lean ====
section
/-!
DEFINITION. The byte-serial coupling of model and coder (45_stream.md rules R220 to R223) and the commands
ENCBYTE (R222), DECBYTE (R224) and STAT (R228).
-/
namespace Sys2Proof.Machine

/-- One coder event of EncodeByte: bit k of b at the level's speculative p0 (R220, R221). -/
def encodeLevel (b : Byte) (p0 : Vector F64 8) (e : Encoder) (k : Fin 8) : Encoder :=
  encodeBit (b.getLsbD k) p0[k] e

/-- EncodeByte(b) (R221): walk, eight coder events, commit. -/
def encodeByte (p : Params) (b : Byte) (m : Model) (e : Encoder) : Model × Encoder :=
  let w := (walk p (known b) m ()).1
  (commit p b w, levels.foldl (encodeLevel b w.cache.p0) e)

/-- `Coded`: the bit DecodeBit(p0) returns (R151, R223). -/
def coded (inp : List Byte) : Chooser Decoder := fun _ p0 _ d => decodeBit inp p0 d

/-- DecodeByte() (R223): the walk and the coder interleave, then the commit. -/
def decodeByte (p : Params) (inp : List Byte) (m : Model) (d : Decoder) : Byte × Model × Decoder :=
  let w := walk p (coded inp) m d
  (w.1.cache.byte, commit p w.1.cache.byte w.1, w.2)

/-- ENCBYTE b (R222). -/
def execEncbyte (b : Byte) (s : State) : Host.Outcome State Fault Refusal :=
  checked
    [checkConfigured s, checkHistory s, checkClean s, checkEncoder s,
     checkCapacity (8 * s.model.d.toNat) s]
    (fun s =>
      let r := encodeByte s.params b s.model s.enc
      advance 2 (setEnc r.2 (setModel r.1 s))) s

/-- DECBYTE (R224). -/
def execDecbyte (s : State) : Host.Outcome State Fault Refusal :=
  checked
    [checkConfigured s, checkHistory s, checkClean s, checkDecoder s,
     checkCapacity (8 * s.model.d.toNat) s]
    (fun s =>
      let r := decodeByte s.params s.inp s.model s.dec
      advance 1 (resAppend [r.1] (setDec r.2.2 (setModel r.2.1 s)))) s

/-- STAT (R228): legal in every state. -/
def execStat (s : State) : Host.Outcome State Fault Refusal :=
  checked []
    (fun s =>
      advance 1
        (resAppend (beBytes 4 (statusWord s).toNat ++ beBytes 4 s.model.nodesUsed.toNat) s)) s

end Sys2Proof.Machine
end

