-- ==== Sys2Proof/Machine/Dispatch.lean ====
section
/-!
DEFINITION. The dispatch of a decoded command to its meaning, one arm a command.
-/
namespace Sys2Proof.Machine

/-- The execution of one command: its checks, then its effect or fault entry (R10). -/
def exec (i : Instr) (s : State) : Host.Outcome State Fault Refusal :=
  match i with
  | .init d => Sys2Proof.Machine.execInit d s
  | .stat => Sys2Proof.Machine.execStat s
  | .kt n0 n1 sym => Sys2Proof.Machine.execKt n0 n1 sym s
  | .ctupd node bit => Sys2Proof.Machine.execCtupd node bit s
  | .ctreupd node bit => Sys2Proof.Machine.execCtreupd node bit s
  | .loadhist seed => Sys2Proof.Machine.execLoadhist seed s
  | .predict b => Sys2Proof.Machine.execPredict b s
  | .cumprob b => Sys2Proof.Machine.execCumprob b s
  | .update b => Sys2Proof.Machine.execUpdate b s
  | .decode x => Sys2Proof.Machine.execDecode x s
  | .einit => Sys2Proof.Machine.execEinit s
  | .ebit bit p0 => Sys2Proof.Machine.execEbit bit p0 s
  | .eflush => Sys2Proof.Machine.execEflush s
  | .erd => Sys2Proof.Machine.execErd s
  | .dinit => Sys2Proof.Machine.execDinit s
  | .dbit p0 => Sys2Proof.Machine.execDbit p0 s
  | .drd => Sys2Proof.Machine.execDrd s
  | .encbyte b => Sys2Proof.Machine.execEncbyte b s
  | .decbyte => Sys2Proof.Machine.execDecbyte s

end Sys2Proof.Machine
end

