-- ==== Sys2Proof/Machine/Step.lean ====
section
/-!
DEFINITION. One step of the core: decode the command at CP and execute it (R82, R62), or say which of the
three ends of a run the state is (R276).
-/
namespace Sys2Proof.Machine

/-- One step. A faulted core executes no command (R23, R241). Otherwise the bytes at CP are decoded in the
order of R82: an illegal opcode enters the fault state, an incomplete command leaves the core stuck, and a
complete one is executed, which advances CP itself. -/
def step (s : State) : Host.Outcome State Fault Refusal :=
  if s.fault then .fault .halted
  else
    match decodeCommand (fetchBytes s) with
    | .ended => .fault .runEnded
    | .illegalOpcode _ => .next (raiseFault .illegalOpcode s)
    | .incomplete => .fault .stuck
    | .command i _ => exec i s

/-- `s` with the table word's bytes in CMD at CP, so that the next step fetches and runs that command. A
CMD too short to hold them is made longer, and a faulted core, which fetches nothing, is made unfaulted. -/
def State.withFetchWord (s : State) (nbits w : Nat) : State :=
  let before := s.cmd.take s.cp ++ List.replicate (s.cp - s.cmd.length) 0
  { s with
    cmd := before ++ tableBytes nbits w ++ s.cmd.drop (s.cp + longestCommand)
    fault := false
    fcode := if s.fault then 0 else s.fcode }

end Sys2Proof.Machine
end

