-- ==== Sys2Proof/Safety.lean ====
section
/-!
DEFINITION. What the claims say of a state: the invariant every command keeps (10_state.md rules R24 to R43,
42_context_tree.md rule R127, 44_coder.md rule R188), the checks of 60_exceptions.md rule R243 written
a second time as the rule's own table, the coded bits an encoder holds, and runs of coder events.
Nothing here is used by the machine.
-/
namespace Sys2Proof.Machine

/-! ### The invariant -/

/-- The counters of a node between commands (R30). -/
abbrev CountsOk (c : Counts) : Prop :=
  c.n0.toNat < 255 ∧ c.n1.toNat < 255 ∧ ¬ (128 ≤ c.n0.toNat ∧ 128 ≤ c.n1.toNat)

/-- A beta as R31 describes it: non-negative, not infinite and not NaN. -/
abbrev FiniteBeta (x : F64) : Prop := numLe 0#64 x = true ∧ numMag x < infMag

/-- A coder interval between commands (R188): no renormalization case applies to it. -/
abbrev IntervalOk (low high : Bound) : Prop :=
  low.toNat < 0x800000 ∧ 0x800000 ≤ high.toNat ∧ (low.toNat < 0x400000 ∨ 0xC00000 ≤ high.toNat)

/-- The packer holds PCNT bits and nothing above them (R43). -/
abbrev PackerOk (e : Encoder) : Prop := e.acc.toNat < 2 ^ e.cnt.toNat

/-- FCODE is 0x00 while FAULT = 0 and a code of R240 while FAULT = 1 (R23, R24). -/
abbrev StatusOk (s : State) : Prop :=
  (s.fault = false → s.fcode = 0) ∧ (s.fault = true → 1 ≤ s.fcode.toNat ∧ s.fcode.toNat ≤ 0x0E)

/-- The parameters are in their ranges: 1 < BETA_MAX <= 2^1000 (D8), and NODE_CAP holds the 255 roots
and fits NODES_USED (R34). -/
abbrev ParamsOk (p : Params) : Prop :=
  numLt numOne p.betaMax = true ∧ numLe p.betaMax 0x7E70000000000000#64 = true ∧
    255 ≤ p.nodeCap ∧ p.nodeCap < 2 ^ 32

/-- A tree of order `d`: canonical; its root is untouched (R32); no node is deeper than D and every
counter is in bounds (R30, R32); every node hangs below its parent; and every node above depth D but the
root has a child (R33). -/
abbrev TreeOk (d : Nat) (t : CtTree) : Prop :=
  t.wf = true ∧ treeGet t [] = some newNode ∧
    ∀ e ∈ t, e.1.length ≤ d ∧ CountsOk e.2.counts ∧ (treeGet t e.1.dropLast).isSome = true ∧
      (0 < e.1.length → e.1.length < d →
        t.any (fun c => c.1.length == e.1.length + 1 && c.1.dropLast == e.1) = true)

/-- How many nodes the 255 trees hold. -/
def storedNodes (m : Model) : Nat := (m.trees.toList.map List.length).sum

/-- A valid scratch buffer of level `k` (R39, R128): its owner is a node of that level, its path is the
path of D keys in the owner's tree, and its lists have the lengths of R39. -/
abbrev ScratchOk (m : Model) (k : Fin 8) : Prop :=
  m.scr[k].owner.toNat ≠ 0 ∧ levelOf m.scr[k].owner.toNat = k ∧
    m.scr[k].path = pathPrefixes (m.scr[k].path.getLastD []) ∧
    m.scr[k].path.length = m.d.toNat ∧ m.scr[k].saved.length = m.d.toNat ∧
    m.scr[k].pr.length = m.d.toNat ∧ m.scr[k].bm.length = m.d.toNat - 1 ∧
    m.scr[k].sat.length = m.d.toNat - 1 ∧ (∀ c ∈ m.scr[k].saved, CountsOk c) ∧
    ∀ q ∈ m.scr[k].path, (treeGet (treeOf m m.scr[k].owner.toNat) q).isSome = true

/-- The model before INIT (R25, R26, R34). -/
abbrev UnconfiguredOk (m : Model) : Prop :=
  m.d = 0 ∧ (∀ n : Fin 255, m.trees[n] = []) ∧ m.nodesUsed = 0 ∧ m.hloaded = false ∧
    m.dirty = false ∧ ∀ k : Fin 8, m.scr[k].valid = false

/-- The model after INIT: the order (R26), the trees (R29 to R33), the node count (R34), the history window
(R35), the scratch (R39), and, while DIRTY = 1, the pending walk's scratch at every level (R153). -/
abbrev ConfiguredOk (p : Params) (m : Model) : Prop :=
  m.d.toNat ≠ 0 ∧ (∀ n : Fin 255, TreeOk m.d.toNat m.trees[n]) ∧
    m.nodesUsed.toNat = storedNodes m ∧ m.nodesUsed.toNat ≤ p.nodeCap ∧
    (m.hloaded = true → m.hist.length = m.d.toNat) ∧ (m.dirty = true → m.hloaded = true) ∧
    (∀ k : Fin 8, m.scr[k].valid = true → m.hloaded = true ∧ ScratchOk m k) ∧
    (m.dirty = true → ∀ k : Fin 8, m.scr[k].valid = true ∧
      m.scr[k].owner.toNat = nodeFor m.cache.byte k.val)

/-- The model fields between commands. -/
abbrev ModelOk (p : Params) (m : Model) : Prop :=
  (m.configured = false → UnconfiguredOk m) ∧ (m.configured = true → ConfiguredOk p m)

/-- The invariant of the core: what is true of every state between commands. -/
abbrev Inv (s : State) : Prop :=
  ParamsOk s.params ∧ StatusOk s ∧ ModelOk s.params s.model ∧
    IntervalOk s.enc.low s.enc.high ∧ PackerOk s.enc ∧ IntervalOk s.dec.low s.dec.high

/-! ### Faults -/

/-- Fault entry with a code, written out (R241). -/
def faulted (code : Byte) (s : State) : State := { s with fault := true, fcode := code }

/-- A probability operand in [0, 1], NaN excluded (R83). -/
def legalProb (x : F64) : Bool := numLe 0#64 x && numLe x numOne

/-- The table of R243: the code of the first check that fails for a command, each command's checks in the
rule's order, with the codes of R240. -/
def firstFailure (s : State) : Instr → Option Byte
  | .init d => if d.toNat < 1 ∨ 15 < d.toNat then some 0x03 else none
  | .stat => none
  | .einit => none
  | .erd => none
  | .dinit => none
  | .drd => none
  | .kt _ _ sym => if 1 < sym.toNat then some 0x04 else none
  | .ctupd node bit =>
    if node.toNat = 0 then some 0x04
    else if 1 < bit.toNat then some 0x04
    else if s.model.configured = false then some 0x02
    else if s.model.hloaded = false then some 0x07
    else if s.model.dirty = true then some 0x0A
    else if s.params.nodeCap < s.model.nodesUsed.toNat + s.model.d.toNat then some 0x0C
    else none
  | .ctreupd node bit =>
    if node.toNat = 0 then some 0x04
    else if 1 < bit.toNat then some 0x04
    else if s.model.configured = false then some 0x02
    else if s.model.dirty = true then some 0x0A
    else if s.model.scr[levelOf node.toNat].valid = false ∨
        s.model.scr[levelOf node.toNat].owner ≠ node then some 0x0B
    else none
  | .loadhist seed =>
    if s.model.configured = false then some 0x02
    else if seed.length ≠ s.model.d.toNat then some 0x06
    else if s.model.dirty = true then some 0x0A
    else none
  | .predict _ | .cumprob _ | .decode _ =>
    if s.model.configured = false then some 0x02
    else if s.model.hloaded = false then some 0x07
    else if s.model.dirty = false ∧
        s.params.nodeCap < s.model.nodesUsed.toNat + 8 * s.model.d.toNat then some 0x0C
    else none
  | .update b =>
    if s.model.configured = false then some 0x02
    else if s.model.hloaded = false then some 0x07
    else if s.model.dirty = false then some 0x08
    else if b ≠ s.model.cache.byte then some 0x09
    else none
  | .ebit bit p0 =>
    if 1 < bit.toNat then some 0x04
    else if legalProb p0 = false then some 0x05
    else if s.enc.mode = .flushed then some 0x0D
    else none
  | .eflush => if s.enc.mode = .flushed then some 0x0D else none
  | .dbit p0 =>
    if legalProb p0 = false then some 0x05
    else if s.dec.mode = .idle then some 0x0E
    else none
  | .encbyte _ =>
    if s.model.configured = false then some 0x02
    else if s.model.hloaded = false then some 0x07
    else if s.model.dirty = true then some 0x0A
    else if s.enc.mode = .flushed then some 0x0D
    else if s.params.nodeCap < s.model.nodesUsed.toNat + 8 * s.model.d.toNat then some 0x0C
    else none
  | .decbyte =>
    if s.model.configured = false then some 0x02
    else if s.model.hloaded = false then some 0x07
    else if s.model.dirty = true then some 0x0A
    else if s.dec.mode = .idle then some 0x0E
    else if s.params.nodeCap < s.model.nodesUsed.toNat + 8 * s.model.d.toNat then some 0x0C
    else none

/-! ### Bits -/

/-- The bits of a byte, most significant first. -/
def byteBits (b : Byte) : List Bool := (List.range 8).map (fun i => b.getLsbD (7 - i))

/-- The bits of OUT in order (R70). -/
def outStream (out : List Byte) : List Bool := out.flatMap byteBits

/-- The bits waiting in the packer, first emitted first (R43). -/
def packedBits (e : Encoder) : List Bool :=
  (List.range e.cnt.toNat).map (fun i => e.acc.getLsbD (e.cnt.toNat - 1 - i))

/-- Every bit an encoder has emitted: OUT, then the packer (R70, R43). -/
def emittedBits (e : Encoder) : List Bool := outStream e.out ++ packedBits e

/-- A byte string read as an unsigned number, most significant byte first (R68). -/
def beValue (bytes : List Byte) : Nat := bytes.foldl (fun v b => 256 * v + b.toNat) 0

/-- Byte `i` of IN, 0 past its end (R64). -/
def inByteOrZero (inp : List Byte) (i : Nat) : Byte := inp.getD i 0

/-! ### Runs of coder events -/

/-- An encoder just after EINIT with OUT empty (R195). -/
def freshEncoder : Encoder := Encoder.reset

/-- The encoder after a list of (bit, p0) events (R205). -/
def encodeEvents (events : List (Bool × F64)) (e : Encoder) : Encoder :=
  events.foldl (fun e ev => encodeBit ev.1 ev.2 e) e

/-- The bits a decoder returns for a list of p0 operands, and the decoder after them (R205). -/
def decodeEvents (inp : List Byte) : List F64 → Decoder → List Bool × Decoder
  | [], d => ([], d)
  | p0 :: rest, d =>
    let r := decodeBit inp p0 d
    let q := decodeEvents inp rest r.2
    (r.1 :: q.1, q.2)

/-- EncodeByte over a list of bytes (R225). -/
def encodeBytes (p : Params) : List Byte → Model → Encoder → Model × Encoder
  | [], m, e => (m, e)
  | b :: bs, m, e => encodeBytes p bs (encodeByte p b m e).1 (encodeByte p b m e).2

/-- DecodeByte `n` times (R225): the bytes, and the model and decoder after them. -/
def decodeBytes (p : Params) (inp : List Byte) : Nat → Model → Decoder → List Byte × Model × Decoder
  | 0, m, d => ([], m, d)
  | n + 1, m, d =>
    let r := decodeByte p inp m d
    let q := decodeBytes p inp n r.2.1 r.2.2
    (r.1 :: q.1, q.2)

/-- The running (prob, cum) of a walk that took byte `b` and left cache `c`, after the levels `ks` from the
start (1.0, 0.0) (R152). -/
def massRun (b : Byte) (c : Cache) (ks : List (Fin 8)) : F64 × F64 :=
  ks.foldl
    (fun (a : F64 × F64) (k : Fin 8) =>
      (numMul a.1 (if b.getLsbD k then c.p1[k] else c.p0[k]),
       if b.getLsbD k then numAdd a.2 (numMul a.1 c.p0[k]) else a.2))
    (numOne, 0)

/-- The keys of path position i: HIST[0..i] (R120). -/
def pathKey (m : Model) (i : Nat) : KeyPath := m.hist.take (i + 1)

/-- The node a walk finds or creates at path position i of TREE[n] (R120). -/
def pathNode (m : Model) (n i : Nat) : CtNode := (treeGet (treeOf m n) (pathKey m i)).getD newNode

end Sys2Proof.Machine
end

