-- ==== Sys2Proof/Certificates/Slice0/Obligations.lean ====
section
/-!
DEFINITION. The statements for the provers, from the numbered rules of spec/. Each docstring names the rule
or section it formalises. A statement about a next state gives the whole state, so it is its own frame:
what it does not update is unchanged.
-/
open Sys2Proof Sys2Proof.Machine

/-! ### Encoding -/

/-- Words written out from 30_encoding.md §1 and §3 decode to their commands: one of every format. -/
def Obligations.SpecWordsDecodeToTheirCommands : Prop :=
  decodeCommand [0x02] = .command .stat [] ∧
  decodeCommand [0x01, 0x02] = .command (.init 2) [] ∧
  decodeCommand [0x10, 0x03, 0x01, 0x00] = .command (.kt 3 1 0) [] ∧
  decodeCommand [0x21, 0x03, 0x01, 0x42] = .command (.ctreupd 3 1) [0x42] ∧
  decodeCommand [0x30, 0x02, 0x61, 0x62] = .command (.loadhist [0x61, 0x62]) [] ∧
  decodeCommand [0x34, 0x3F, 0xE0, 0, 0, 0, 0, 0, 0x07] =
    .command (.decode 0x3FE0000000000007#64) [] ∧
  decodeCommand [0x41, 0x01, 0x3F, 0xD3, 0x33, 0x33, 0x33, 0x33, 0x33, 0x34] =
    .command (.ebit 1 0x3FD3333333333334#64) [] ∧
  decodeCommand [0x51, 0x4A] = .command .decbyte [0x4A]

/-- Decoding the bytes of a well-formed command gives it back, with every operand at every value its field
holds, and leaves the bytes after it (30_encoding.md §1 to §3). -/
def Obligations.DecodeOfEncodeGivesTheCommandBack : Prop :=
  ∀ (i : Instr) (rest : List Byte), i.wellFormed = true →
    decodeCommand (encode i ++ rest) = .command i rest

/-- A command is decoded only from its own bytes: decoding is unambiguous (30_encoding.md §1 to §3). -/
def Obligations.DecodedCommandWasEncoded : Prop :=
  ∀ (bytes : List Byte) (i : Instr) (rest : List Byte), decodeCommand bytes = .command i rest →
    i.wellFormed = true ∧ bytes = encode i ++ rest ∧ (encode i).length = commandLength i

/-- R85: the 237 other opcode values raise ILLEGAL_OPCODE, code 0x01, whatever follows them, even as the
last byte of CMD (R82). -/
def Obligations.EveryOtherOpcodeFaults : Prop :=
  ∀ (s : State) (op : Byte) (rest : List Byte),
    s.fault = false → s.cmd.drop s.cp = op :: rest →
    (op.toNat = 0x00 ∨ (0x03 ≤ op.toNat ∧ op.toNat ≤ 0x0F) ∨ (0x11 ≤ op.toNat ∧ op.toNat ≤ 0x1F) ∨
      (0x22 ≤ op.toNat ∧ op.toNat ≤ 0x2F) ∨ (0x35 ≤ op.toNat ∧ op.toNat ≤ 0x3F) ∨
      (0x44 ≤ op.toNat ∧ op.toNat ≤ 0x47) ∨ (0x4B ≤ op.toNat ∧ op.toNat ≤ 0x4F) ∨
      0x52 ≤ op.toNat) →
    step s = .next (faulted 0x01 s)

/-! ### Steps and runs -/

/-- R82, R62: when the bytes at CP are those of a well-formed command, a step of a core that has not
faulted is the execution of that command, which advances CP itself. -/
def Obligations.StepRunsTheCommandAtCp : Prop :=
  (∀ (s : State) (i : Instr) (rest : List Byte), s.fault = false →
    decodeCommand (s.cmd.drop s.cp) = .command i rest → step s = exec i s) ∧
  ∀ (s : State) (i : Instr) (before rest : List Byte), s.fault = false → i.wellFormed = true →
    s.cmd = before ++ encode i ++ rest → s.cp = before.length → step s = exec i s

/-- R276, R23: a step has no successor exactly in the three ends of a run. Fault: FAULT = 1. Final: FAULT = 0
and CP is at the end of CMD. Stuck: FAULT = 0, the byte at CP is an opcode, and fewer bytes remain than its
command's length, for LOADHIST the length byte or the bytes it announces. That the ends are outcomes of step
is the model's form (log entry 2). -/
def Obligations.RunEndsInOneOfThreeWays : Prop :=
  ∀ s : State,
    (step s = .fault .halted ↔ s.fault = true) ∧
    (step s = .fault .runEnded ↔ s.fault = false ∧ s.cmd.length ≤ s.cp) ∧
    (step s = .fault .stuck ↔ s.fault = false ∧ ∃ op rest o, s.cmd.drop s.cp = op :: rest ∧
      opcodeOf op = some o ∧
      match opcodeFormat o with
      | .f0 => False
      | .fb => rest.length < 1
      | .fn => rest.length < 2
      | .fk => rest.length < 3
      | .fr => rest.length < 8
      | .fe => rest.length < 9
      | .fh => rest = [] ∨ ∃ len seed, rest = len :: seed ∧ seed.length < len.toNat) ∧
    (∀ r, step s ≠ .refused r)

/-- R22, R241, R232: a step that answers a next state either enters the fault state and changes nothing
else, or has executed the command at CP and moved CP past it. CP changes in no other way. -/
def Obligations.StepFaultsInPlaceOrMovesPastTheCommand : Prop :=
  ∀ s t : State, step s = .next t →
    (∃ c, t = faulted (faultByte c) s) ∨
    (t.fault = false ∧ t.fcode = s.fcode ∧ ∃ i rest, decodeCommand (s.cmd.drop s.cp) = .command i rest ∧
      exec i s = .next t ∧ t.cp = s.cp + commandLength i)

/-- 70_reset_and_hazards.md §3 (R275, R276; the form of a run's end is log entry 2): every run ends. From any state, after at most one step for each byte of CMD left, the core
is faulted, stuck or final. -/
def Obligations.EveryRunEnds : Prop :=
  ∀ s : State, ∃ r, Host.Core.run Sys2Proof.core (s.cmd.length - s.cp + 1) s = .fault r

/-! ### The invariant -/

/-- The invariant holds after RESET and at every launch with legal parameters, whatever CMD and IN. -/
def Obligations.ResetAndLaunchMeetTheInvariant : Prop :=
  Inv State.reset ∧ (∀ s : State, ParamsOk s.params → Inv (applyReset s)) ∧
    ∀ (p : Params) (cmd inp : List Byte), ParamsOk p → Inv (launch p cmd inp)

/-- Every step keeps the invariant: counters in bounds (R30), untouched roots (R32), no node deeper than D
and none above it without a child (R32, R33), canonical trees, NODES_USED the number of nodes and at most
NODE_CAP (R34), the window's length (R35), the scratch of a pending walk (R153), the coder intervals
(R188), the packer (R43), and the fault code (R24). The canonical form of a tree is the model's (log entry
8), and the parameters' ranges hold because no command changes a parameter (log entry 1). -/
def Obligations.EveryStepKeepsTheInvariant : Prop :=
  ∀ s t : State, Inv s → step s = .next t → Inv t

/-- R50, R270: the reset values, for RESET whatever the core was doing and for the state State.reset. -/
def Obligations.ResetGivesTheResetValues : Prop :=
  ∀ s : State, ∀ t ∈ [State.reset, applyReset s],
    t.cp = 0 ∧ t.fault = false ∧ t.fcode = 0x00 ∧ t.model.configured = false ∧ t.model.d = 0 ∧
    (∀ n : Fin 255, t.model.trees[n] = []) ∧ t.model.nodesUsed = 0 ∧ t.model.hloaded = false ∧
    t.model.dirty = false ∧ (∀ k : Fin 8, t.model.scr[k].valid = false) ∧
    t.enc.mode = .active ∧ t.enc.low = 0x000000 ∧ t.enc.high = 0xFFFFFF ∧ t.enc.pend = 0 ∧
    t.enc.cnt = 0 ∧ t.enc.acc = 0x00 ∧
    t.dec.mode = .idle ∧ t.dec.low = 0x000000 ∧ t.dec.high = 0xFFFFFF ∧ t.dec.code = 0x000000 ∧
    t.dec.pos = 0 ∧ t.enc.out = [] ∧ t.res = [] ∧ statusWord t = 0x00000000#32

/-! ### Faults -/

/-- 60_exceptions.md §1 and §2 (R240, R241, R243), 30_encoding.md §1 (R82): opcode legality and completeness
come first. A command whose checks fail then enters the fault state with the code of the first failing
check of R243's table and has no other effect. A command whose checks all pass answers a next state with
FAULT and FCODE as before and CP past the command (R10). That an ended or stuck run is an outcome of step,
also for a CP beyond CMD, is the model's form (log entry 2). -/
def Obligations.FirstFailingCheckDecidesTheFault : Prop :=
  (∀ s : State, s.fault = false → match decodeCommand (s.cmd.drop s.cp) with
    | .ended => step s = .fault .runEnded
    | .illegalOpcode _ => step s = .next (faulted 0x01 s)
    | .incomplete => step s = .fault .stuck
    | .command i _ => step s = exec i s) ∧
  ∀ (i : Instr) (s : State),
    (∀ code, firstFailure s i = some code → exec i s = .next (faulted code s)) ∧
    (firstFailure s i = none → ∃ t, exec i s = .next t ∧ t.fault = s.fault ∧ t.fcode = s.fcode ∧
      t.cp = s.cp + commandLength i)

/-- R61, R64, R66, R67: no command changes CMD or IN, and none removes a byte of OUT or RES. The parameters
are fixed (R5). -/
def Obligations.StreamsOnlyGrow : Prop :=
  ∀ (i : Instr) (s t : State), exec i s = .next t →
    t.cmd = s.cmd ∧ t.inp = s.inp ∧ t.params = s.params ∧ s.res <+: t.res ∧ s.enc.out <+: t.enc.out

/-- Which commands change which group of fields (R20, R75): only EINIT, EBIT, EFLUSH and ENCBYTE the encoder
and OUT; only DINIT, DBIT and DECBYTE the decoder; only the model commands the model; only INIT CONFIGURED
and D (R25, R26); only LOADHIST, UPDATE, ENCBYTE, DECBYTE and INIT the history window, of which INIT makes it
unspecified (R35). -/
def Obligations.OnlyTheNamedCommandsChangeAGroup : Prop :=
  ∀ (i : Instr) (s t : State), exec i s = .next t →
    (t.enc = s.enc ∨ i = .einit ∨ (∃ b p, i = .ebit b p) ∨ i = .eflush ∨ ∃ b, i = .encbyte b) ∧
    (t.dec = s.dec ∨ i = .dinit ∨ (∃ p, i = .dbit p) ∨ i = .decbyte) ∧
    (t.model = s.model ∨ (∃ d, i = .init d) ∨ (∃ n b, i = .ctupd n b) ∨ (∃ n b, i = .ctreupd n b) ∨
      (∃ l, i = .loadhist l) ∨ (∃ b, i = .predict b) ∨ (∃ b, i = .cumprob b) ∨
      (∃ x, i = .decode x) ∨ (∃ b, i = .update b) ∨ (∃ b, i = .encbyte b) ∨ i = .decbyte) ∧
    ((t.model.configured = s.model.configured ∧ t.model.d = s.model.d) ∨ ∃ d, i = .init d) ∧
    ((t.model.hist = s.model.hist ∧ t.model.hloaded = s.model.hloaded) ∨ (∃ d, i = .init d) ∨
      (∃ l, i = .loadhist l) ∨ (∃ b, i = .update b) ∨ (∃ b, i = .encbyte b) ∨ i = .decbyte)

/-! ### Status and the pure reads -/

/-- R27: every field of STATUS, bit by bit. -/
def Obligations.StatusShowsItsFields : Prop :=
  ∀ s : State,
    (statusWord s).getLsbD 0 = s.fault ∧ (statusWord s).getLsbD 1 = s.model.configured ∧
    (statusWord s).getLsbD 2 = s.model.hloaded ∧ (statusWord s).getLsbD 3 = s.model.dirty ∧
    (statusWord s).getLsbD 4 = decide (s.enc.mode = .flushed) ∧
    (statusWord s).getLsbD 5 = decide (s.dec.mode = .active) ∧
    (statusWord s).extractLsb' 6 2 = 0 ∧ (statusWord s).extractLsb' 8 4 = s.model.d ∧
    (statusWord s).extractLsb' 12 4 = 0 ∧ (statusWord s).extractLsb' 16 8 = s.fcode ∧
    (statusWord s).extractLsb' 24 8 = 0

/-- R68: a big-endian result field has the length asked for, its value is the number mod 2^(8n), and its
first byte is the most significant. A NUM field is read back from its bytes (R71). -/
def Obligations.ResultFieldsAreBigEndian : Prop :=
  (∀ n v : Nat, (beBytes n v).length = n ∧ beValue (beBytes n v) = v % 2 ^ (8 * n)) ∧
  ∀ (x : F64) (rest : List Byte), (numBytes x).length = 8 ∧ beValue (numBytes x) = x.toNat ∧
    takeNum (numBytes x ++ rest) = some (x, rest)

/-- R198, R204, R228: ERD, DRD and STAT complete in every state. Each appends its fields in the layout of
R86 and changes nothing but RES and CP. Their opcodes are 0x43, 0x4A and 0x02, format F0. -/
def Obligations.StateReadsAppendTheirFields : Prop :=
  (∀ rest : List Byte, decodeCommand (0x43 :: rest) = .command .erd rest ∧
    decodeCommand (0x4A :: rest) = .command .drd rest ∧
    decodeCommand (0x02 :: rest) = .command .stat rest) ∧
  ∀ s : State,
    exec .erd s = .next { s with
      cp := s.cp + 1
      res := s.res ++ (beBytes 3 s.enc.low.toNat ++ beBytes 3 s.enc.high.toNat ++
        beBytes 8 (s.enc.pend % 2 ^ 64) ++ [BitVec.ofNat 8 s.enc.cnt.toNat] ++ [s.enc.acc]) } ∧
    exec .drd s = .next { s with
      cp := s.cp + 1
      res := s.res ++ (beBytes 3 s.dec.low.toNat ++ beBytes 3 s.dec.high.toNat ++
        beBytes 3 s.dec.code.toNat ++ beBytes 8 (s.dec.pos % 2 ^ 64)) } ∧
    exec .stat s = .next { s with
      cp := s.cp + 1
      res := s.res ++ (beBytes 4 (statusWord s).toNat ++ beBytes 4 s.model.nodesUsed.toNat) }

/-! ### NUM arithmetic and the KT estimator -/

/-- R8: the one rounding every operation makes is to nearest, ties to even. For a positive result a / b in
units of 2^-1074 that does not overflow, no finite magnitude is nearer, and one equally near has an odd
pattern only if the chosen one is even. -/
def Obligations.RoundingIsToNearestEven : Prop :=
  ∀ a b : Nat, 0 < b → roundUnits a b < infMag → ∀ x : Nat, x < infMag →
    ((magUnits (roundUnits a b) * b : Int) - a).natAbs ≤ ((magUnits x * b : Int) - a).natAbs ∧
    (((magUnits (roundUnits a b) * b : Int) - a).natAbs = ((magUnits x * b : Int) - a).natAbs →
      x ≠ roundUnits a b → roundUnits a b % 2 = 0)

/-- R8: addition, multiplication and division of finite operands are the exact result rounded once, in
units of 2^-1074 (the sum of opposite equal operands and the quotient by zero apart), and every integer the
rules convert is exact. -/
def Obligations.FiniteOperationsRoundTheExactResultOnce : Prop :=
  ∀ x y : F64, numMag x < infMag → numMag y < infMag →
    (numSigned x + numSigned y ≠ 0 → numAdd x y =
      numRound (decide (numSigned x + numSigned y < 0)) (numSigned x + numSigned y).natAbs 1) ∧
    numMul x y = numRound (numSign x != numSign y) (numUnits x * numUnits y) unitsPerOne ∧
    (numUnits y ≠ 0 → numDiv x y =
      numRound (numSign x != numSign y) (numUnits x * unitsPerOne) (numUnits y)) ∧
    (∀ n < 2 ^ 53, numMag (numOfNat n) < infMag ∧ numSigned (numOfNat n) = n * unitsPerOne)

/-- 00_scope.md §5 (R8), 20_memory.md §2 (R71), 30_encoding.md §5 (R87): a NaN has the exponent field all ones and
a fraction not zero. A comparison with a NaN is false. Finite operands compare by their values, so -0.0 equals
0.0, and the infinities lie beyond them. A p0 is legal exactly when its value is in 0.0 .. 1.0, -0.0 included,
and EBIT and DBIT check the opposite. -/
def Obligations.ComparisonsOrderTheValues : Prop :=
  (∀ x : F64, numIsNaN x = true ↔ x.extractLsb' 52 11 = 0x7FF#11 ∧ x.extractLsb' 0 52 ≠ 0#52) ∧
  (∀ x y : F64, numIsNaN x = true ∨ numIsNaN y = true → numLt x y = false ∧ numLe x y = false) ∧
  (∀ x y : F64, numMag x < infMag → numMag y < infMag →
    numLt x y = decide (numSigned x < numSigned y) ∧ numLe x y = decide (numSigned x ≤ numSigned y)) ∧
  (∀ x : F64, numIsNaN x = false →
    numLe x 0x7FF0000000000000#64 = true ∧ numLe 0xFFF0000000000000#64 x = true ∧
    numLt x 0x7FF0000000000000#64 = decide (x ≠ 0x7FF0000000000000#64) ∧
    numLt 0xFFF0000000000000#64 x = decide (x ≠ 0xFFF0000000000000#64)) ∧
  (∀ x : F64, (legalProb x = true ↔
    numMag x < infMag ∧ 0 ≤ numSigned x ∧ numSigned x ≤ unitsPerOne) ∧ probIllegal x = !legalProb x) ∧
  numSigned 0x8000000000000000#64 = numSigned 0#64 ∧ numSigned 0x3FF0000000000000#64 = unitsPerOne

/-- R112: KT completes in every state when s is 0 or 1, and appends the table's entry. -/
def Obligations.KtAppendsTheTableEntry : Prop :=
  ∀ (n0 n1 sym : Byte) (s : State),
    (sym.toNat ≤ 1 → exec (.kt n0 n1 sym) s = .next { s with
      cp := s.cp + 4
      res := s.res ++ numBytes (kt n0 n1 (decide (sym.toNat = 1))) }) ∧
    (1 < sym.toNat → exec (.kt n0 n1 sym) s = .next (faulted 0x04 s))

/-- R110: KT(n0, n1, s) is the correctly rounded value of the exact fraction
(16c + 1) / (16(n0 + n1) + 2). -/
def Obligations.KtIsTheCorrectlyRoundedFraction : Prop :=
  ∀ (n0 n1 : Byte) (sym : Bool), kt n0 n1 sym =
    numRound false ((16 * (if sym then n1 else n0).toNat + 1) * unitsPerOne)
      (16 * (n0.toNat + n1.toNat) + 2)

/-- 41_kt.md §1 (R111): every entry is in (0, 1), is mirrored under exchange of the counts, is 0.5 at equal
counts, and is at least KT(255, 0, 1). -/
def Obligations.KtTableProperties : Prop :=
  ∀ (n0 n1 : Byte) (sym : Bool),
    numLt 0#64 (kt n0 n1 sym) = true ∧ numLt (kt n0 n1 sym) numOne = true ∧
    kt n0 n1 sym = kt n1 n0 (!sym) ∧ kt n0 n0 sym = 0x3FE0000000000000#64 ∧
    numLe (kt 255 0 true) (kt n0 n1 sym) = true

/-! ### The context tree -/

/-- R127: an update increments the observed bit's counter, then halves both counters when either reaches
255 or both reach 128. -/
def Obligations.CountersIncrementAndAge : Prop :=
  ∀ (bit : Bool) (c : Counts), c.n0.toNat < 255 → c.n1.toNat < 255 →
    let a := c.n0.toNat + (if bit then 0 else 1)
    let b := c.n1.toNat + (if bit then 1 else 0)
    let halves := a = 255 ∨ b = 255 ∨ (128 ≤ a ∧ 128 ≤ b)
    (countBit bit c).n0.toNat = (if halves then a / 2 else a) ∧
    (countBit bit c).n1.toNat = (if halves then b / 2 else b) ∧
    (countBit bit c).n0.toNat < 255 ∧ (countBit bit c).n1.toNat < 255

/-- R131: CTUPD completes when its checks pass. It appends the pair CtUpdate returns and changes only the
model; of the model, only TREE[node], NODES_USED and SCR[Level(node)] (the free-value counter apart). HIST and
DIRTY are unchanged. -/
def Obligations.CtupdRunsTheUpdate : Prop :=
  ∀ (node bit : Byte) (s : State), node.toNat ≠ 0 → bit.toNat ≤ 1 → s.model.configured = true →
    s.model.hloaded = true → s.model.dirty = false →
    s.model.nodesUsed.toNat + s.model.d.toNat ≤ s.params.nodeCap →
    ∃ m pr0 pr1, ctUpdate s.params node.toNat (decide (bit.toNat = 1)) (levelOf node.toNat) s.model =
        ({ zero := pr0, one := pr1 }, m) ∧
      exec (.ctupd node bit) s = .next { s with
        cp := s.cp + 3, res := s.res ++ (numBytes pr0 ++ numBytes pr1), model := m } ∧
      m = { s.model with trees := m.trees, nodesUsed := m.nodesUsed, scr := m.scr, fresh := m.fresh } ∧
      (∀ n : Fin 255, n.val + 1 ≠ node.toNat → m.trees[n] = s.model.trees[n]) ∧
      (∀ k : Fin 8, k ≠ levelOf node.toNat → m.scr[k] = s.model.scr[k])

/-- R120: an update finds or creates the D nodes of the path HIST[0..D-1] and no other node, leaves every
node off the path as it was, and counts each node it creates in NODES_USED. -/
def Obligations.UpdateWalksThePathOfTheHistory : Prop :=
  ∀ (p : Params) (n : Nat) (bit : Bool) (k : Fin 8) (m : Model), 1 ≤ n → n ≤ 255 →
    m.hist.length = m.d.toNat → (treeOf m n).wf = true →
    let u := (ctUpdate p n bit k m).2
    (∀ i < m.d.toNat, (treeGet (treeOf u n) (pathKey m i)).isSome = true) ∧
    (∀ q : KeyPath, (∀ i < m.d.toNat, q ≠ pathKey m i) →
      treeGet (treeOf u n) q = treeGet (treeOf m n) q) ∧
    (treeOf u n).length = (treeOf m n).length +
      ((List.range m.d.toNat).filter (fun i => (treeGet (treeOf m n) (pathKey m i)).isNone)).length ∧
    u.nodesUsed = m.nodesUsed + BitVec.ofNat 32 ((treeOf u n).length - (treeOf m n).length)

/-- R122, R123, R124, R125, R128: the probabilities, masses and saturation bits of an update, as the scratch of
the level records them, from the counters and betas before the update. The leaf's pair is its KT pair. A
saturated internal node passes the pair below it through. Any other mixes its masses with that pair. -/
def Obligations.UpdateMixesBottomUp : Prop :=
  ∀ (p : Params) (n : Nat) (bit : Bool) (k : Fin 8) (m : Model), 1 ≤ n → n ≤ 255 →
    0 < m.d.toNat → m.hist.length = m.d.toNat →
    let r := ctUpdate p n bit k m
    let scr := r.2.scr[k]
    scr.valid = true ∧ scr.owner.toNat = n ∧
    scr.path = (List.range m.d.toNat).map (pathKey m) ∧
    scr.saved = (List.range m.d.toNat).map (fun i => (pathNode m n i).counts) ∧
    scr.pr[0]? = some r.1 ∧ scr.pr.length = m.d.toNat ∧
    scr.sat.length = m.d.toNat - 1 ∧ scr.bm.length = m.d.toNat - 1 ∧
    (∀ v, v = pathNode m n (m.d.toNat - 1) → scr.pr[m.d.toNat - 1]? =
      some { zero := kt v.counts.n0 v.counts.n1 false, one := kt v.counts.n0 v.counts.n1 true }) ∧
    ∀ i c v, i + 1 < m.d.toNat → scr.pr[i + 1]? = some c → v = pathNode m n i →
      (numLe p.betaMax v.beta = true → scr.sat[i]? = some true ∧ scr.pr[i]? = some c) ∧
      (numLe p.betaMax v.beta = false →
        let bp := numDiv v.beta
          (numAdd (numAdd (numOfNat v.counts.n0.toNat) (numOfNat v.counts.n1.toNat)) ktB)
        let b0 := numMul bp (numAdd (numOfNat v.counts.n0.toNat) ktA)
        let b1 := numMul bp (numAdd (numOfNat v.counts.n1.toNat) ktA)
        let s0 := numAdd b0 c.zero
        let s1 := numAdd b1 c.one
        scr.sat[i]? = some false ∧ scr.bm[i]? = some { zero := b0, one := b1 } ∧
          scr.pr[i]? = some { zero := numDiv s0 (numAdd s0 s1), one := numDiv s1 (numAdd s0 s1) })

/-- R124, R126, R127: the nodes after an update. Every path node's counters are incremented and aged. The
leaf keeps its beta. A saturated node's beta becomes 1.0, or stays, as SAT_POLICY says. Any other
internal node's beta is the observed bit's mass over its child's probability of that bit. -/
def Obligations.UpdateWritesCountersAndBetas : Prop :=
  ∀ (p : Params) (n : Nat) (bit : Bool) (k : Fin 8) (m : Model), 1 ≤ n → n ≤ 255 →
    m.hist.length = m.d.toNat →
    let u := (ctUpdate p n bit k m).2
    ∀ i < m.d.toNat, ∃ w, treeGet (treeOf u n) (pathKey m i) = some w ∧
      w.counts = countBit bit (pathNode m n i).counts ∧
      (i + 1 = m.d.toNat → w.beta = (pathNode m n i).beta) ∧
      ∀ c, i + 1 < m.d.toNat → u.scr[k].pr[i + 1]? = some c →
        (numLe p.betaMax (pathNode m n i).beta = true →
          w.beta = match p.satPolicy with
            | .reset => numOne
            | .sticky => (pathNode m n i).beta) ∧
        (numLe p.betaMax (pathNode m n i).beta = false → ∀ b, u.scr[k].bm[i]? = some b →
          w.beta = if bit then numDiv b.one c.one else numDiv b.zero c.zero)

/-- 42_context_tree.md §4 (R133(a), R133(c)), 20_memory.md §2 (R71): from a tree with counters in bounds and
non-negative finite betas, an update with legal parameters computes only probabilities from 2^-13 to below
1.0, so no NaN, and leaves every beta non-negative and finite. (The rule's bound is about 1/4066; 2^-13 leaves room
for the rounding it mentions.) -/
def Obligations.UpdateKeepsProbabilitiesPositiveAndBetasFinite : Prop :=
  ∀ (p : Params) (n : Nat) (bit : Bool) (k : Fin 8) (m : Model), 1 ≤ n → n ≤ 255 → ParamsOk p →
    m.hist.length = m.d.toNat →
    (∀ e ∈ treeOf m n, CountsOk e.2.counts ∧ FiniteBeta e.2.beta) →
    (∀ c ∈ ((ctUpdate p n bit k m).2.scr[k]).pr,
      numLe 0x3F20000000000000#64 c.zero = true ∧ numLt c.zero numOne = true ∧
      numLe 0x3F20000000000000#64 c.one = true ∧ numLt c.one numOne = true) ∧
    ∀ e ∈ treeOf (ctUpdate p n bit k m).2 n, FiniteBeta e.2.beta

/-- EXPECTED TO FAIL. 10_state.md §4 (R31) says that with SAT_POLICY = reset every beta is below BETA_MAX after
every command; its own rules R124 and R126, and R133(c), let an update leave a beta at or above BETA_MAX, which
the next update then saturates. The model follows R124 and R126 (log entry 9). -/
def Obligations.BetasStayBelowBetaMax : Prop :=
  ∀ (p : Params) (n : Nat) (bit : Bool) (k : Fin 8) (m : Model), ParamsOk p → p.satPolicy = .reset →
    (∀ e ∈ treeOf m n, CountsOk e.2.counts ∧ numLe 0#64 e.2.beta = true ∧
      numLt e.2.beta p.betaMax = true) →
    ∀ e ∈ treeOf (ctUpdate p n bit k m).2 n, numLt e.2.beta p.betaMax = true

/-- R132, R129: CTREUPD completes when its checks pass and appends nothing. It clears VALID of the level. With
bit 0 no tree changes. With bit 1 each node of SCR's path takes its corrected counters, restored or
adjusted as REUPDATE_COUNTERS says and then aged, and an unsaturated internal node the beta
BM[i].b1 / PR[i+1].pr1; every other node of every tree stays. -/
def Obligations.CtreupdCorrectsThePath : Prop :=
  ∀ (node bit : Byte) (s : State), bit.toNat ≤ 1 → s.model.configured = true → s.model.dirty = false →
    ConfiguredOk s.params s.model →
    let k := levelOf node.toNat
    let scr := s.model.scr[k]
    node.toNat ≠ 0 → scr.valid = true → scr.owner = node →
    ∃ m, exec (.ctreupd node bit) s = .next { s with cp := s.cp + 3, model := m } ∧
      m.scr[k].valid = false ∧ (∀ j : Fin 8, j ≠ k → m.scr[j] = s.model.scr[j]) ∧
      m = { s.model with trees := m.trees, scr := m.scr, fresh := m.fresh } ∧
      (bit.toNat = 0 → m.trees = s.model.trees) ∧
      (∀ n : Fin 255, n.val + 1 ≠ node.toNat → m.trees[n] = s.model.trees[n]) ∧
      (∀ q : KeyPath, q ∉ scr.path →
        treeGet (treeOf m node.toNat) q = treeGet (treeOf s.model node.toNat) q) ∧
      (bit.toNat = 1 → ∀ (i : Nat) q c v, scr.path[i]? = some q → scr.saved[i]? = some c →
        treeGet (treeOf s.model node.toNat) q = some v →
        ∃ w, treeGet (treeOf m node.toNat) q = some w ∧
          w.counts = (match s.params.reupdateCounters with
            | .restore => age { n0 := c.n0, n1 := c.n1 + 1 }
            | .adjust => age { n0 := BitVec.ofNat 8 (v.counts.n0.toNat - 1), n1 := v.counts.n1 + 1 }) ∧
          (scr.sat[i]? ≠ some false → w.beta = v.beta) ∧
          ∀ b d, scr.sat[i]? = some false → scr.bm[i]? = some b → scr.pr[i + 1]? = some d →
            w.beta = numDiv b.one d.one)

/-- 42_context_tree.md §4 (R133(d), R130): with REUPDATE_COUNTERS = restore, a CtUpdate with bit 0 followed
by CtReupdate with bit 1 leaves every tree and NODES_USED exactly as a CtUpdate with bit 1 would. -/
def Obligations.DummyThenReupdateEqualsTrueUpdate : Prop :=
  ∀ (p : Params) (n : Nat) (k : Fin 8) (m : Model), p.reupdateCounters = .restore →
    (treeOf m n).wf = true →
    (ctReupdate p n true k (ctUpdate p n false k m).2).trees = (ctUpdate p n true k m).2.trees ∧
    (ctReupdate p n true k (ctUpdate p n false k m).2).nodesUsed = (ctUpdate p n true k m).2.nodesUsed

/-! ### The byte decomposition tree -/

/-- R37: node 1 decides bit 7; the children of node n are 2n and 2n + 1, one level lower; and the node that
decides bit k of b is reached from the root by b's higher bits. -/
def Obligations.NodeNumbering : Prop :=
  levelOf 1 = 7 ∧ (∀ n, 1 ≤ n → n ≤ 127 → (levelOf (2 * n)).val + 1 = (levelOf n).val ∧
    (levelOf (2 * n + 1)).val + 1 = (levelOf n).val) ∧
  ∀ (b : Byte), nodeFor b 7 = 1 ∧ ∀ k < 7, nodeFor b k = 2 * nodeFor b (k + 1) + (b.getLsbD (k + 1)).toNat

/-- R155: INIT completes for every legal order, in every state: 255 trees of one new root, NODES_USED = 255,
nothing loaded and nothing pending. It leaves both coders, OUT and RES alone. An order outside 1..15
faults BAD_ORDER. -/
def Obligations.InitBuildsTheModel : Prop :=
  ∀ (d : Byte) (s : State),
    (1 ≤ d.toNat → d.toNat ≤ 15 → ∃ m, exec (.init d) s = .next { s with cp := s.cp + 2, model := m } ∧
      m.configured = true ∧ m.d.toNat = d.toNat ∧
      (∀ n : Fin 255, m.trees[n] =
        [([], { counts := { n0 := 0, n1 := 0 }, beta := 0x3FF0000000000000#64 })]) ∧
      m.nodesUsed = 255 ∧ m.hloaded = false ∧ m.dirty = false ∧
      ∀ k : Fin 8, m.scr[k].valid = false) ∧
    (d.toNat < 1 ∨ 15 < d.toNat → exec (.init d) s = .next (faulted 0x03 s))

/-- R156: LOADHIST with exactly D bytes completes on a clean model and stores them newest first. It leaves
the trees, the coders and the streams alone. -/
def Obligations.LoadhistReversesTheSeed : Prop :=
  ∀ (seed : List Byte) (s : State), s.model.configured = true → seed.length = s.model.d.toNat →
    s.model.dirty = false →
    ∃ h, exec (.loadhist seed) s = .next { s with
        cp := s.cp + 2 + seed.length, model := { s.model with hist := h, hloaded := true } } ∧
      h.length = s.model.d.toNat ∧ ∀ i < s.model.d.toNat, h[i]? = seed[s.model.d.toNat - 1 - i]?

/-- R157, R158, R160 on a clean model: PREDICT, CUMPROB and DECODE complete when the capacity suffices. Each
walks, leaves DIRTY = 1, appends its cached value, and leaves the coders and the other fields alone. -/
def Obligations.QueriesWalkACleanModel : Prop :=
  ∀ s : State, s.model.configured = true → s.model.hloaded = true → s.model.dirty = false →
    s.model.nodesUsed.toNat + 8 * s.model.d.toNat ≤ s.params.nodeCap →
    (∀ (b : Byte), ∃ m, m = (walk s.params (known b) s.model ()).1 ∧ m.dirty = true ∧
      exec (.predict b) s = .next { s with
        cp := s.cp + 2, res := s.res ++ numBytes m.cache.prob, model := m } ∧
      exec (.cumprob b) s = .next { s with
        cp := s.cp + 2, res := s.res ++ numBytes m.cache.cum, model := m }) ∧
    ∀ (x : F64), ∃ m, m = (walk s.params (target x) s.model ()).1 ∧ m.dirty = true ∧
      exec (.decode x) s = .next { s with
        cp := s.cp + 9, res := s.res ++ [m.cache.byte], model := m }

/-- R157, R158, R160, R161 on a dirty model: the queries complete, change nothing of the model, and return
the cached value whatever their operand is. -/
def Obligations.QueriesRereadADirtyModel : Prop :=
  ∀ (b : Byte) (x : F64) (s : State), s.model.configured = true → s.model.hloaded = true →
    s.model.dirty = true →
    exec (.predict b) s = .next { s with
      cp := s.cp + 2, res := s.res ++ numBytes s.model.cache.prob } ∧
    exec (.cumprob b) s = .next { s with
      cp := s.cp + 2, res := s.res ++ numBytes s.model.cache.cum } ∧
    exec (.decode x) s = .next { s with cp := s.cp + 9, res := s.res ++ [s.model.cache.byte] }

/-- 43_bdt.md §2 (R152), 45_stream.md §1 (R220), for a known byte: the walk takes that byte. CACHE.P0[k] and
CACHE.P1[k] are the pair CtUpdate with bit 0 returns at the node on the byte's path, whose tree and level's
scratch are what that update leaves (BM at a saturated node, a free value, apart). PROB is the product,
from bit 7 on, of the recorded probabilities of the branches taken, and CUM adds the mass of the 0 branch
wherever the bit is 1. -/
def Obligations.WalkOfAKnownByte : Prop :=
  ∀ (p : Params) (b : Byte) (m : Model),
    let w := (walk p (known b) m ()).1
    let run := massRun b w.cache levels
    w.dirty = true ∧ w.cache.byte = b ∧ w.cache.prob = run.1 ∧ w.cache.cum = run.2 ∧
    w.hist = m.hist ∧ w.hloaded = m.hloaded ∧ w.d = m.d ∧ w.configured = m.configured ∧
    ∀ k : Fin 8, w.scr[k].valid = true ∧ w.scr[k].owner.toNat = nodeFor b k.val ∧
      let u := ctUpdate p (nodeFor b k.val) false k m
      w.cache.p0[k] = u.1.zero ∧ w.cache.p1[k] = u.1.one ∧
      treeOf w (nodeFor b k.val) = treeOf u.2 (nodeFor b k.val) ∧
      w.scr[k].path = u.2.scr[k].path ∧ w.scr[k].saved = u.2.scr[k].saved ∧
      w.scr[k].pr = u.2.scr[k].pr ∧ w.scr[k].sat = u.2.scr[k].sat ∧
      ∀ i : Nat, w.scr[k].sat[i]? = some false → w.scr[k].bm[i]? = u.2.scr[k].bm[i]?

/-- R152, R150, R153: a walk of b, and its commit, change only the trees of the 8 nodes on b's path, and in
them only nodes on the path HIST[0..D-1]; higher bits of b enter no context. -/
def Obligations.WalkTouchesOnlyTheWindowsPath : Prop :=
  ∀ (p : Params) (b : Byte) (m : Model),
    let w := (walk p (known b) m ()).1
    ∀ t ∈ [w, commit p b w],
      (∀ n : Fin 255, (∀ k : Fin 8, n.val + 1 ≠ nodeFor b k.val) → t.trees[n] = m.trees[n]) ∧
      ∀ (k : Fin 8) (q : KeyPath), (∀ i < m.d.toNat, q ≠ pathKey m i) →
        treeGet (treeOf t (nodeFor b k.val)) q = treeGet (treeOf m (nodeFor b k.val)) q

/-- 43_bdt.md §2 (R151, R154(c)): the walk of a target x picks bit 0 at a level exactly when x is below the
level's c1, the running cum plus the mass of the 0 branch (so a NaN picks 1). A walk depends on its chooser
only through the byte it picks: DECODE x leaves exactly the model PREDICT of the byte it returns would leave. -/
def Obligations.TargetWalkIsTheWalkOfItsByte : Prop :=
  ∀ (p : Params) (x : F64) (m : Model),
    let w := (walk p (target x) m ()).1
    w = (walk p (known w.cache.byte) m ()).1 ∧
    ∀ k : Fin 8,
      let above := massRun w.cache.byte w.cache (levels.filter (fun (j : Fin 8) => decide (k < j)))
      w.cache.byte.getLsbD k = !numLt x (numAdd above.2 (numMul above.1 w.cache.p0[k]))

/-- R151, 43_bdt.md §3 (R160): a NaN target picks the 1 branch at every level, so DECODE returns 0xFF. -/
def Obligations.NanTargetDecodesToFf : Prop :=
  ∀ (x : F64) (s : State), numIsNaN x = true → s.model.configured = true → s.model.hloaded = true →
    s.model.dirty = false → s.model.nodesUsed.toNat + 8 * s.model.d.toNat ≤ s.params.nodeCap →
    ∃ m, exec (.decode x) s = .next { s with cp := s.cp + 9, res := s.res ++ [0xFF], model := m }

/-- R159, R153: UPDATE of the pending byte completes. It pushes the byte into the window and drops the
oldest, clears DIRTY and every VALID, creates no node, and leaves the coders and the streams alone. It
gives the trees of the byte's path whose bit is 1, and no other, CtReupdate's correction with bit 1, in
which only the nodes of the level's SCR path change. -/
def Obligations.UpdateCommitsThePendingByte : Prop :=
  ∀ (b : Byte) (s : State), s.model.configured = true → s.model.hloaded = true →
    s.model.dirty = true → b = s.model.cache.byte → s.model.hist.length = s.model.d.toNat →
    0 < s.model.d.toNat →
    ∃ m, exec (.update b) s = .next { s with cp := s.cp + 2, model := m } ∧
      m.hist = b :: s.model.hist.dropLast ∧ m.dirty = false ∧ m.hloaded = true ∧
      m.configured = true ∧ m.d = s.model.d ∧ m.nodesUsed = s.model.nodesUsed ∧
      (∀ k : Fin 8, m.scr[k].valid = false) ∧
      (∀ n : Fin 255, (∀ k : Fin 8, b.getLsbD k = true → n.val + 1 ≠ nodeFor b k.val) →
        m.trees[n] = s.model.trees[n]) ∧
      ∀ k : Fin 8, b.getLsbD k = true →
        treeOf m (nodeFor b k.val) =
          treeOf (ctReupdate s.params (nodeFor b k.val) true k s.model) (nodeFor b k.val) ∧
        ∀ q : KeyPath, q ∉ s.model.scr[k].path →
          treeGet (treeOf m (nodeFor b k.val)) q = treeGet (treeOf s.model (nodeFor b k.val)) q

/-- 43_bdt.md §2 (R154(a)): with REUPDATE_COUNTERS = restore, a walk of b and its commit leave every tree and
NODES_USED as direct updates of the trees on b's path with b's true bits would. -/
def Obligations.WalkThenCommitEqualsTrueUpdates : Prop :=
  ∀ (p : Params) (b : Byte) (m : Model), p.reupdateCounters = .restore →
    (∀ n : Fin 255, (m.trees[n]).wf = true) →
    let committed := commit p b (walk p (known b) m ()).1
    let direct := levels.foldl (fun (m : Model) (k : Fin 8) => (ctUpdate p (nodeFor b k.val) (b.getLsbD k) k m).2) m
    committed.trees = direct.trees ∧ committed.nodesUsed = direct.nodesUsed

/-! ### The binary arithmetic coder -/

/-- 44_coder.md §1 (R183): the threshold leaves both parts of an interval non-empty for every p0, and inside [0, 1]
it is the floor of the product unless the clamp moves it. The floor of a finite non-negative
NUM is the greatest integer not above it. (Outside [0, 1], where no legal p0 lies, the floor clauses are the
model's: log entry 5.) -/
def Obligations.ThresholdLeavesBothPartsNonEmpty : Prop :=
  ∀ (p0 : F64) (range : Nat), 2 ≤ range →
    1 ≤ thresh p0 range ∧ thresh p0 range ≤ range - 1 ∧
    (let f := numFloor (numMul p0 (numOfNat range))
     (f < 1 → thresh p0 range = 1) ∧ (range - 1 < f → thresh p0 range = range - 1) ∧
     (1 ≤ f → f ≤ range - 1 → thresh p0 range = f)) ∧
    ∀ x : F64, numLe 0#64 x = true → numMag x < infMag →
      numFloor x * unitsPerOne ≤ numUnits x ∧ numUnits x < (numFloor x + 1) * unitsPerOne

/-- R195, R196, R197: EINIT completes in every state; EBIT completes for a legal bit and probability while
the encoder is active; EFLUSH completes while it is active. Each changes only the encoder, OUT and CP. -/
def Obligations.EncoderCommandsComplete : Prop :=
  ∀ s : State,
    exec .einit s = .next { s with
      cp := s.cp + 1
      enc := { s.enc with mode := .active, low := 0x000000, high := 0xFFFFFF, pend := 0, acc := 0, cnt := 0 } } ∧
    (∀ (bit : Byte) (p0 : F64), bit.toNat ≤ 1 → legalProb p0 = true → s.enc.mode = .active →
      exec (.ebit bit p0) s = .next { s with
        cp := s.cp + 10, enc := encodeBit (decide (bit.toNat = 1)) p0 s.enc }) ∧
    (s.enc.mode = .active → exec .eflush s = .next { s with
      cp := s.cp + 1, enc := { flushBits s.enc with mode := .flushed } })

/-- R188: from an interval between commands, EncodeBit and DecodeBit leave
0 <= low <= high <= 0xFFFFFF with low < HALF <= high and range >= QTR + 2, for any bit, any p0 and
any IN. No renormalization case applies afterwards, so at most 24 passes suffice (R275). -/
def Obligations.CoderIntervalInvariant : Prop :=
  ∀ p0 : F64,
    (∀ (bit : Bool) (e : Encoder), IntervalOk e.low e.high →
      let f := encodeBit bit p0 e
      f.low.toNat ≤ f.high.toNat ∧ f.high.toNat ≤ 0xFFFFFF ∧ f.low.toNat < 0x800000 ∧
      0x800000 ≤ f.high.toNat ∧ 0x400002 ≤ f.high.toNat - f.low.toNat + 1 ∧
      scalingOf f.low f.high = none) ∧
    ∀ (inp : List Byte) (d : Decoder), IntervalOk d.low d.high →
      let g := (decodeBit inp p0 d).2
      g.low.toNat ≤ g.high.toNat ∧ g.high.toNat ≤ 0xFFFFFF ∧ g.low.toNat < 0x800000 ∧
      0x800000 ≤ g.high.toNat ∧ 0x400002 ≤ g.high.toNat - g.low.toNat + 1 ∧
      scalingOf g.low g.high = none

/-- R184, R185, R186: narrowing and one pass of each case, on whole numbers. For low + t <= high the 1 part is
low+t..high and the 0 part is low..low+t-1. Case (a) emits 0 and the pending 1s, (b) emits 1 and the pending
0s and subtracts HALF, (c) counts one more pending bit and subtracts QTR; each then doubles. -/
def Obligations.NarrowingAndTheThreeCases : Prop :=
  (∀ (t : Nat) (low high : Bound), 1 ≤ t → low.toNat + t ≤ high.toNat →
    (narrow true t low high).1.toNat = low.toNat + t ∧ (narrow true t low high).2 = high ∧
    (narrow false t low high).1 = low ∧ (narrow false t low high).2.toNat = low.toNat + t - 1) ∧
  ∀ e : Encoder, e.low.toNat ≤ e.high.toNat →
    (e.high.toNat < 0x800000 → scalingOf e.low e.high = some .e1 ∧
      encPass .e1 e = { emitPend false e with
        low := BitVec.ofNat 24 (2 * e.low.toNat), high := BitVec.ofNat 24 (2 * e.high.toNat + 1) } ∧
      2 * e.high.toNat + 1 < 2 ^ 24) ∧
    (0x800000 ≤ e.low.toNat → scalingOf e.low e.high = some .e2 ∧
      encPass .e2 e = { emitPend true e with
        low := BitVec.ofNat 24 (2 * (e.low.toNat - 0x800000))
        high := BitVec.ofNat 24 (2 * (e.high.toNat - 0x800000) + 1) } ∧
      2 * (e.high.toNat - 0x800000) + 1 < 2 ^ 24) ∧
    (0x400000 ≤ e.low.toNat → e.low.toNat < 0x800000 → 0x800000 ≤ e.high.toNat →
      e.high.toNat < 0xC00000 → scalingOf e.low e.high = some .e3 ∧
      encPass .e3 e = { e with
        pend := e.pend + 1
        low := BitVec.ofNat 24 (2 * (e.low.toNat - 0x400000))
        high := BitVec.ofNat 24 (2 * (e.high.toNat - 0x400000) + 1) } ∧
      2 * (e.high.toNat - 0x400000) + 1 < 2 ^ 24)

/-- R187, R189: EmitPend(x) emits x and then as many complements as are pending, in order after every bit
emitted before, and leaves nothing pending; the packer keeps its form (R43). -/
def Obligations.EmitPendEmitsTheBitAndItsComplements : Prop :=
  ∀ (x : Bool) (e : Encoder), PackerOk e →
    emittedBits (emitPend x e) = emittedBits e ++ x :: List.replicate e.pend (!x) ∧
    (emitPend x e).pend = 0 ∧ PackerOk (emitPend x e) ∧
    (emitPend x e).low = e.low ∧ (emitPend x e).high = e.high

/-- R190, R70: Flush emits 0 or 1 by ELOW < QTR, then one complement more than were pending, pads the last
byte with 0 bits, and leaves the bounds. OUT read as the decoder reads IN (R69) gives the coded bits
and then zeros. -/
def Obligations.FlushTerminatesTheCode : Prop :=
  ∀ e : Encoder, PackerOk e →
    let x := decide (0x400000 ≤ e.low.toNat)
    let coded := emittedBits e ++ x :: List.replicate (e.pend + 1) (!x)
    let f := flushBits e
    f.low = e.low ∧ f.high = e.high ∧ f.pend = 0 ∧ f.cnt = 0 ∧ f.acc = 0 ∧
    (∃ n < 8, outStream f.out = coded ++ List.replicate n false) ∧
    ∀ i : Nat, inBitAt f.out i = (coded[i]?).getD false

/-- R69, R64: InBit reads bit 7 - (i mod 8) of byte i div 8 of IN, or 0 past its end, and moves INPOS by
one. -/
def Obligations.InBitReadsMsbFirst : Prop :=
  ∀ (inp : List Byte) (d : Decoder),
    (inBit inp d).2 = { d with pos := d.pos + 1 } ∧
    (∀ b, inp[d.pos / 8]? = some b → (inBit inp d).1 = b.getLsbD (7 - d.pos % 8)) ∧
    (inp.length ≤ d.pos / 8 → (inBit inp d).1 = false)

/-- R199, R200: DINIT completes in every state. The interval is full, the code is the first three bytes of IN,
missing bytes read as 0, and INPOS is 24. It changes only the decoder and CP. -/
def Obligations.DinitSeedsFromIn : Prop :=
  ∀ s : State, exec .dinit s = .next { s with
    cp := s.cp + 1
    dec := { mode := .active, low := 0x000000, high := 0xFFFFFF
             code := inByteOrZero s.inp 0 ++ inByteOrZero s.inp 1 ++ inByteOrZero s.inp 2
             pos := 24 } }

/-- R203, R201, R202: DBIT completes for a legal probability while the decoder is active, for every IN. It
appends 0 exactly when the code is below DLOW + T, leaves the decoder as DecodeBit of p0 does, narrows and
renormalizes its interval as EBIT of that bit does the encoder's, reads at most 24 bits of IN, and changes
only the decoder, RES and CP. -/
def Obligations.DbitDecidesByTheThreshold : Prop :=
  ∀ (p0 : F64) (s : State), legalProb p0 = true → s.dec.mode = .active →
    let t := thresh p0 (rangeOf s.dec.low s.dec.high)
    ∃ d : Decoder, d.mode = .active ∧ s.dec.pos ≤ d.pos ∧ d.pos ≤ s.dec.pos + 24 ∧
      exec (.dbit p0) s = .next { s with
        cp := s.cp + 9
        res := s.res ++ [if s.dec.code.toNat < s.dec.low.toNat + t then 0x00 else 0x01]
        dec := d } ∧
      decodeEvents s.inp [p0] s.dec = ([decide (s.dec.low.toNat + t ≤ s.dec.code.toNat)], d) ∧
      ∀ e : Encoder, e.low = s.dec.low → e.high = s.dec.high →
        let f := encodeBit (decide (s.dec.low.toNat + t ≤ s.dec.code.toNat)) p0 e
        d.low = f.low ∧ d.high = f.high

/-- 44_coder.md §3 (R201, R202), 10_state.md §7 (R48), for every IN: DecodeBit moves INPOS by the number of its
passes, which is how many bits EBIT of the same bit and p0 emits or leaves pending on the same interval. In
the interval's frame, mod 2^24, the code is shifted left by that many places and takes in that many bits of
IN, from INPOS on. -/
def Obligations.DecodeBitShiftsTheCode : Prop :=
  ∀ (inp : List Byte) (p0 : F64) (d : Decoder),
    let t := thresh p0 (rangeOf d.low d.high)
    let bit := decide (d.low.toNat + t ≤ d.code.toNat)
    let r := decodeBit inp p0 d
    let n := r.2.pos - d.pos
    let low : Bound := if bit then BitVec.ofNat 24 (d.low.toNat + t) else d.low
    let read := (List.range n).foldl (fun v i => 2 * v + (inBitAt inp (d.pos + i)).toNat) 0
    r.1 = bit ∧ r.2.mode = d.mode ∧ d.pos ≤ r.2.pos ∧
    r.2.code - r.2.low = BitVec.ofNat 24 (2 ^ n) * (d.code - low) + BitVec.ofNat 24 read ∧
    ∀ e : Encoder, e.low = d.low → e.high = d.high → PackerOk e →
      (emittedBits (encodeBit bit p0 e)).length + (encodeBit bit p0 e).pend =
        (emittedBits e).length + e.pend + n

/-- R201: one pass of the decoder's loop makes the encoder's change of the bounds, applies the same subtraction
to the code, and shifts in the next bit of IN, all mod 2^24. -/
def Obligations.DecoderPassMirrorsTheEncoder : Prop :=
  ∀ (inp : List Byte) (c : Scaling) (d : Decoder) (e : Encoder), d.low = e.low → d.high = e.high →
    (decPass inp c d).low = (encPass c e).low ∧ (decPass inp c d).high = (encPass c e).high ∧
    (decPass inp c d).pos = d.pos + 1 ∧ (decPass inp c d).mode = d.mode ∧
    ((decPass inp c d).code.toNat : Int) =
      (2 * ((d.code.toNat : Int) - scalingOffset c) + (inBitAt inp d.pos).toNat) % 2 ^ 24

/-- R205: what the encoder encodes from EINIT and flushes, the decoder decodes from DINIT with the same p0
sequence. -/
def Obligations.CoderRoundTrip : Prop :=
  ∀ events : List (Bool × F64),
    let out := (flushBits (encodeEvents events freshEncoder)).out
    (decodeEvents out (events.map (·.2)) (seedDecoder out)).1 = events.map (·.1)

/-! ### The byte streams -/

/-- R222, R221, R220: ENCBYTE completes when its checks pass. It walks b, codes each bit of b from bit 7 on at
the level's speculative p0, commits b, ends clean with b as the newest byte of the window, and leaves the
decoder and RES alone. -/
def Obligations.EncbyteCodesAByte : Prop :=
  ∀ (b : Byte) (s : State), s.model.configured = true → s.model.hloaded = true →
    s.model.dirty = false → s.enc.mode = .active →
    s.model.nodesUsed.toNat + 8 * s.model.d.toNat ≤ s.params.nodeCap → 0 < s.model.d.toNat →
    let w := (walk s.params (known b) s.model ()).1
    ∃ m, exec (.encbyte b) s = .next { s with
        cp := s.cp + 2
        model := m
        enc := encodeEvents (([7, 6, 5, 4, 3, 2, 1, 0] : List (Fin 8)).map
          (fun (k : Fin 8) => (b.getLsbD k, w.cache.p0[k]))) s.enc } ∧
      m = commit s.params b w ∧ m.dirty = false ∧ m.hist.head? = some b

/-- R224, R223: DECBYTE completes when its checks pass, for every IN. It appends the byte it decodes: its
bits, from bit 7 on, are those DecodeBit returns in turn from the decoder's state and IN at the speculative
p0 of each level of the byte's walk, and the decoder ends where those eight events leave it. It ends clean
with that byte as the newest of the window and leaves the encoder and OUT alone; and the model it leaves is
the one ENCBYTE of the same byte would leave. -/
def Obligations.DecbyteDecodesAByte : Prop :=
  ∀ s : State, s.model.configured = true → s.model.hloaded = true → s.model.dirty = false →
    s.dec.mode = .active → s.model.nodesUsed.toNat + 8 * s.model.d.toNat ≤ s.params.nodeCap →
    0 < s.model.d.toNat →
    ∃ (b : Byte) (m : Model) (d : Decoder), exec .decbyte s = .next { s with
        cp := s.cp + 1, res := s.res ++ [b], model := m, dec := d } ∧
      m.dirty = false ∧ m.hist.head? = some b ∧ d.mode = .active ∧
      decodeEvents s.inp
        (levels.map (fun (k : Fin 8) => (walk s.params (known b) s.model ()).1.cache.p0[k])) s.dec =
          (levels.map (fun (k : Fin 8) => b.getLsbD k), d) ∧
      ∀ e : Encoder, m = (encodeByte s.params b s.model e).1

/-- R225: a decoder that starts from the same model as the encoder, with IN the encoder's flushed OUT, returns
the bytes encoded, and both models end the same. -/
def Obligations.StreamRoundTrip : Prop :=
  ∀ (p : Params) (bytes : List Byte) (m : Model),
    let e := encodeBytes p bytes m freshEncoder
    let out := (flushBits e.2).out
    let d := decodeBytes p out bytes.length m (seedDecoder out)
    d.1 = bytes ∧ d.2.1 = e.1
end

