-- ==== Sys2Proof/Laws/State.lean ====
section
/-!
SUPPORT. One lemma per field per update of the state, true by rfl, so that no later proof unfolds a
record update.
-/
namespace Sys2Proof.Machine

/-! ### State updates -/

@[simp] theorem advance_cp (len : Nat) (s : State) : (advance len s).cp = s.cp + len := rfl
@[simp] theorem advance_fault (len : Nat) (s : State) : (advance len s).fault = s.fault := rfl
@[simp] theorem advance_fcode (len : Nat) (s : State) : (advance len s).fcode = s.fcode := rfl
@[simp] theorem advance_cmd (len : Nat) (s : State) : (advance len s).cmd = s.cmd := rfl
@[simp] theorem advance_inp (len : Nat) (s : State) : (advance len s).inp = s.inp := rfl
@[simp] theorem advance_res (len : Nat) (s : State) : (advance len s).res = s.res := rfl
@[simp] theorem advance_model (len : Nat) (s : State) : (advance len s).model = s.model := rfl
@[simp] theorem advance_enc (len : Nat) (s : State) : (advance len s).enc = s.enc := rfl
@[simp] theorem advance_dec (len : Nat) (s : State) : (advance len s).dec = s.dec := rfl
@[simp] theorem advance_params (len : Nat) (s : State) : (advance len s).params = s.params := rfl

@[simp] theorem resAppend_cp (bytes : List Byte) (s : State) : (resAppend bytes s).cp = s.cp := rfl
@[simp] theorem resAppend_fault (bytes : List Byte) (s : State) : (resAppend bytes s).fault = s.fault := rfl
@[simp] theorem resAppend_fcode (bytes : List Byte) (s : State) : (resAppend bytes s).fcode = s.fcode := rfl
@[simp] theorem resAppend_cmd (bytes : List Byte) (s : State) : (resAppend bytes s).cmd = s.cmd := rfl
@[simp] theorem resAppend_inp (bytes : List Byte) (s : State) : (resAppend bytes s).inp = s.inp := rfl
@[simp] theorem resAppend_res (bytes : List Byte) (s : State) : (resAppend bytes s).res = s.res ++ bytes := rfl
@[simp] theorem resAppend_model (bytes : List Byte) (s : State) : (resAppend bytes s).model = s.model := rfl
@[simp] theorem resAppend_enc (bytes : List Byte) (s : State) : (resAppend bytes s).enc = s.enc := rfl
@[simp] theorem resAppend_dec (bytes : List Byte) (s : State) : (resAppend bytes s).dec = s.dec := rfl
@[simp] theorem resAppend_params (bytes : List Byte) (s : State) : (resAppend bytes s).params = s.params := rfl

@[simp] theorem setModel_cp (m : Model) (s : State) : (setModel m s).cp = s.cp := rfl
@[simp] theorem setModel_fault (m : Model) (s : State) : (setModel m s).fault = s.fault := rfl
@[simp] theorem setModel_fcode (m : Model) (s : State) : (setModel m s).fcode = s.fcode := rfl
@[simp] theorem setModel_cmd (m : Model) (s : State) : (setModel m s).cmd = s.cmd := rfl
@[simp] theorem setModel_inp (m : Model) (s : State) : (setModel m s).inp = s.inp := rfl
@[simp] theorem setModel_res (m : Model) (s : State) : (setModel m s).res = s.res := rfl
@[simp] theorem setModel_model (m : Model) (s : State) : (setModel m s).model = m := rfl
@[simp] theorem setModel_enc (m : Model) (s : State) : (setModel m s).enc = s.enc := rfl
@[simp] theorem setModel_dec (m : Model) (s : State) : (setModel m s).dec = s.dec := rfl
@[simp] theorem setModel_params (m : Model) (s : State) : (setModel m s).params = s.params := rfl

@[simp] theorem setEnc_cp (e : Encoder) (s : State) : (setEnc e s).cp = s.cp := rfl
@[simp] theorem setEnc_fault (e : Encoder) (s : State) : (setEnc e s).fault = s.fault := rfl
@[simp] theorem setEnc_fcode (e : Encoder) (s : State) : (setEnc e s).fcode = s.fcode := rfl
@[simp] theorem setEnc_cmd (e : Encoder) (s : State) : (setEnc e s).cmd = s.cmd := rfl
@[simp] theorem setEnc_inp (e : Encoder) (s : State) : (setEnc e s).inp = s.inp := rfl
@[simp] theorem setEnc_res (e : Encoder) (s : State) : (setEnc e s).res = s.res := rfl
@[simp] theorem setEnc_model (e : Encoder) (s : State) : (setEnc e s).model = s.model := rfl
@[simp] theorem setEnc_enc (e : Encoder) (s : State) : (setEnc e s).enc = e := rfl
@[simp] theorem setEnc_dec (e : Encoder) (s : State) : (setEnc e s).dec = s.dec := rfl
@[simp] theorem setEnc_params (e : Encoder) (s : State) : (setEnc e s).params = s.params := rfl

@[simp] theorem setDec_cp (d : Decoder) (s : State) : (setDec d s).cp = s.cp := rfl
@[simp] theorem setDec_fault (d : Decoder) (s : State) : (setDec d s).fault = s.fault := rfl
@[simp] theorem setDec_fcode (d : Decoder) (s : State) : (setDec d s).fcode = s.fcode := rfl
@[simp] theorem setDec_cmd (d : Decoder) (s : State) : (setDec d s).cmd = s.cmd := rfl
@[simp] theorem setDec_inp (d : Decoder) (s : State) : (setDec d s).inp = s.inp := rfl
@[simp] theorem setDec_res (d : Decoder) (s : State) : (setDec d s).res = s.res := rfl
@[simp] theorem setDec_model (d : Decoder) (s : State) : (setDec d s).model = s.model := rfl
@[simp] theorem setDec_enc (d : Decoder) (s : State) : (setDec d s).enc = s.enc := rfl
@[simp] theorem setDec_dec (d : Decoder) (s : State) : (setDec d s).dec = d := rfl
@[simp] theorem setDec_params (d : Decoder) (s : State) : (setDec d s).params = s.params := rfl

@[simp] theorem raiseFault_cp (c : FaultCode) (s : State) : (raiseFault c s).cp = s.cp := rfl
@[simp] theorem raiseFault_fault (c : FaultCode) (s : State) : (raiseFault c s).fault = true := rfl
@[simp] theorem raiseFault_fcode (c : FaultCode) (s : State) : (raiseFault c s).fcode = faultByte c := rfl
@[simp] theorem raiseFault_cmd (c : FaultCode) (s : State) : (raiseFault c s).cmd = s.cmd := rfl
@[simp] theorem raiseFault_inp (c : FaultCode) (s : State) : (raiseFault c s).inp = s.inp := rfl
@[simp] theorem raiseFault_res (c : FaultCode) (s : State) : (raiseFault c s).res = s.res := rfl
@[simp] theorem raiseFault_model (c : FaultCode) (s : State) : (raiseFault c s).model = s.model := rfl
@[simp] theorem raiseFault_enc (c : FaultCode) (s : State) : (raiseFault c s).enc = s.enc := rfl
@[simp] theorem raiseFault_dec (c : FaultCode) (s : State) : (raiseFault c s).dec = s.dec := rfl
@[simp] theorem raiseFault_params (c : FaultCode) (s : State) : (raiseFault c s).params = s.params := rfl

@[simp] theorem applyReset_cp (s : State) : (applyReset s).cp = 0 := rfl
@[simp] theorem applyReset_fault (s : State) : (applyReset s).fault = false := rfl
@[simp] theorem applyReset_fcode (s : State) : (applyReset s).fcode = 0 := rfl
@[simp] theorem applyReset_cmd (s : State) : (applyReset s).cmd = s.cmd := rfl
@[simp] theorem applyReset_inp (s : State) : (applyReset s).inp = s.inp := rfl
@[simp] theorem applyReset_res (s : State) : (applyReset s).res = [] := rfl
@[simp] theorem applyReset_model (s : State) : (applyReset s).model = Model.reset := rfl
@[simp] theorem applyReset_enc (s : State) : (applyReset s).enc = Encoder.reset := rfl
@[simp] theorem applyReset_dec (s : State) : (applyReset s).dec = Decoder.reset := rfl
@[simp] theorem applyReset_params (s : State) : (applyReset s).params = s.params := rfl

/-! ### Model updates -/

@[simp] theorem setTree_configured (n : Nat) (t : CtTree) (m : Model) : (setTree n t m).configured = m.configured := rfl
@[simp] theorem setTree_d (n : Nat) (t : CtTree) (m : Model) : (setTree n t m).d = m.d := rfl
@[simp] theorem setTree_trees (n : Nat) (t : CtTree) (m : Model) : (setTree n t m).trees = m.trees.set (treeIndex n) t := rfl
@[simp] theorem setTree_nodesUsed (n : Nat) (t : CtTree) (m : Model) : (setTree n t m).nodesUsed = m.nodesUsed := rfl
@[simp] theorem setTree_hist (n : Nat) (t : CtTree) (m : Model) : (setTree n t m).hist = m.hist := rfl
@[simp] theorem setTree_hloaded (n : Nat) (t : CtTree) (m : Model) : (setTree n t m).hloaded = m.hloaded := rfl
@[simp] theorem setTree_dirty (n : Nat) (t : CtTree) (m : Model) : (setTree n t m).dirty = m.dirty := rfl
@[simp] theorem setTree_cache (n : Nat) (t : CtTree) (m : Model) : (setTree n t m).cache = m.cache := rfl
@[simp] theorem setTree_scr (n : Nat) (t : CtTree) (m : Model) : (setTree n t m).scr = m.scr := rfl
@[simp] theorem setTree_fresh (n : Nat) (t : CtTree) (m : Model) : (setTree n t m).fresh = m.fresh := rfl

@[simp] theorem invalidate_configured (k : Fin 8) (m : Model) : (invalidate k m).configured = m.configured := rfl
@[simp] theorem invalidate_d (k : Fin 8) (m : Model) : (invalidate k m).d = m.d := rfl
@[simp] theorem invalidate_trees (k : Fin 8) (m : Model) : (invalidate k m).trees = m.trees := rfl
@[simp] theorem invalidate_nodesUsed (k : Fin 8) (m : Model) : (invalidate k m).nodesUsed = m.nodesUsed := rfl
@[simp] theorem invalidate_hist (k : Fin 8) (m : Model) : (invalidate k m).hist = m.hist := rfl
@[simp] theorem invalidate_hloaded (k : Fin 8) (m : Model) : (invalidate k m).hloaded = m.hloaded := rfl
@[simp] theorem invalidate_dirty (k : Fin 8) (m : Model) : (invalidate k m).dirty = m.dirty := rfl
@[simp] theorem invalidate_cache (k : Fin 8) (m : Model) : (invalidate k m).cache = m.cache := rfl
@[simp] theorem invalidate_scr (k : Fin 8) (m : Model) : (invalidate k m).scr = m.scr.set k (freeScratch m.fresh m.d.toNat) := rfl
@[simp] theorem invalidate_fresh (k : Fin 8) (m : Model) : (invalidate k m).fresh = m.fresh + 1 := rfl

/-! ### Encoder and decoder updates -/

@[simp] theorem inBit_bit (inp : List Byte) (d : Decoder) : (inBit inp d).1 = inBitAt inp d.pos := rfl
@[simp] theorem inBit_pos (inp : List Byte) (d : Decoder) : (inBit inp d).2.pos = d.pos + 1 := rfl
@[simp] theorem inBit_mode (inp : List Byte) (d : Decoder) : (inBit inp d).2.mode = d.mode := rfl
@[simp] theorem inBit_low (inp : List Byte) (d : Decoder) : (inBit inp d).2.low = d.low := rfl
@[simp] theorem inBit_high (inp : List Byte) (d : Decoder) : (inBit inp d).2.high = d.high := rfl
@[simp] theorem inBit_code (inp : List Byte) (d : Decoder) : (inBit inp d).2.code = d.code := rfl

@[simp] theorem outBit_mode (x : Bool) (e : Encoder) : (outBit x e).mode = e.mode := by
  unfold outBit; dsimp only; split <;> rfl
@[simp] theorem outBit_low (x : Bool) (e : Encoder) : (outBit x e).low = e.low := by
  unfold outBit; dsimp only; split <;> rfl
@[simp] theorem outBit_high (x : Bool) (e : Encoder) : (outBit x e).high = e.high := by
  unfold outBit; dsimp only; split <;> rfl
@[simp] theorem outBit_pend (x : Bool) (e : Encoder) : (outBit x e).pend = e.pend := by
  unfold outBit; dsimp only; split <;> rfl

@[simp] theorem outBits_mode (x : Bool) (n : Nat) (e : Encoder) : (outBits x n e).mode = e.mode := by
  induction n generalizing e with
  | zero => rfl
  | succ n ih => simp [outBits, ih]
@[simp] theorem outBits_low (x : Bool) (n : Nat) (e : Encoder) : (outBits x n e).low = e.low := by
  induction n generalizing e with
  | zero => rfl
  | succ n ih => simp [outBits, ih]
@[simp] theorem outBits_high (x : Bool) (n : Nat) (e : Encoder) : (outBits x n e).high = e.high := by
  induction n generalizing e with
  | zero => rfl
  | succ n ih => simp [outBits, ih]
@[simp] theorem outBits_pend (x : Bool) (n : Nat) (e : Encoder) : (outBits x n e).pend = e.pend := by
  induction n generalizing e with
  | zero => rfl
  | succ n ih => simp [outBits, ih]

@[simp] theorem emitPend_mode (x : Bool) (e : Encoder) : (emitPend x e).mode = e.mode := by
  simp [emitPend]
@[simp] theorem emitPend_low (x : Bool) (e : Encoder) : (emitPend x e).low = e.low := by
  simp [emitPend]
@[simp] theorem emitPend_high (x : Bool) (e : Encoder) : (emitPend x e).high = e.high := by
  simp [emitPend]
@[simp] theorem emitPend_pend (x : Bool) (e : Encoder) : (emitPend x e).pend = 0 := rfl

end Sys2Proof.Machine
end

