-- ==== Sys2Proof/Laws/Ops.lean ====
section
/-!
SUPPORT. What each shared operation can do, said once: the checks before a command's effect, fault entry, the
threshold, one renormalization pass, and the recursion equations of the loops.
-/
namespace Sys2Proof.Machine

/-! ### Checks -/

/-- A checked command always answers a next state: fault entry with the first failing check, or its
effect. -/
theorem checked_cases (cs : List Check) (f : State → State) (s : State) :
    (∃ c, firstFault cs = some c ∧ checked cs f s = .next (raiseFault c s)) ∨
      (firstFault cs = none ∧ checked cs f s = .next (f s)) := by
  unfold checked
  cases h : firstFault cs with
  | some c => exact .inl ⟨c, rfl, rfl⟩
  | none => exact .inr ⟨rfl, rfl⟩

/-- If a checked command answers `t`, then `t` is fault entry or the effect. -/
theorem checked_next {cs : List Check} {f : State → State} {s t : State}
    (h : checked cs f s = .next t) :
    (∃ c, firstFault cs = some c ∧ t = raiseFault c s) ∨ (firstFault cs = none ∧ t = f s) := by
  rcases checked_cases cs f s with ⟨c, hc, he⟩ | ⟨hc, he⟩ <;> rw [he] at h <;> cases h
  · exact .inl ⟨c, hc, rfl⟩
  · exact .inr ⟨hc, rfl⟩

@[simp] theorem firstFault_nil : firstFault [] = none := rfl

@[simp] theorem firstFault_cons (b : Bool) (c : FaultCode) (cs : List Check) :
    firstFault ((b, c) :: cs) = if b then some c else firstFault cs := rfl

/-- No check fails exactly when each one passes. -/
theorem firstFault_eq_none {cs : List Check} : firstFault cs = none ↔ ∀ c ∈ cs, c.1 = false := by
  induction cs with
  | nil => simp
  | cons c cs ih =>
    obtain ⟨b, code⟩ := c
    cases b <;> simp [ih]

/-- A command with all its checks passed has its effect. -/
theorem checked_of_pass {cs : List Check} {f : State → State} {s : State}
    (h : firstFault cs = none) : checked cs f s = .next (f s) := by
  unfold checked; rw [h]

/-- A command with a failing check enters the fault state. -/
theorem checked_of_fail {cs : List Check} {f : State → State} {s : State} {c : FaultCode}
    (h : firstFault cs = some c) : checked cs f s = .next (raiseFault c s) := by
  unfold checked; rw [h]

/-- Every fault code is one of R240's 0x01 to 0x0E. -/
theorem faultByte_range (c : FaultCode) : 1 ≤ (faultByte c).toNat ∧ (faultByte c).toNat ≤ 0x0E := by
  cases c <;> decide

/-- The codes of R240 are distinct. -/
theorem faultByte_injective {a b : FaultCode} (h : faultByte a = faultByte b) : a = b := by
  cases a <;> cases b <;> first | rfl | (revert h; decide)

/-! ### Coder -/

/-- The threshold is inside the interval, for every p0 (R183). -/
theorem thresh_bounds (p0 : F64) {r : Nat} (h : 2 ≤ r) : 1 ≤ thresh p0 r ∧ thresh p0 r ≤ r - 1 := by
  unfold thresh; omega

/-- The offset of a case fits under the low bound where the case applies, and the high bound stays below HALF
after it (R186). -/
theorem scalingOf_some {low high : Bound} {c : Scaling} (h : scalingOf low high = some c) :
    scalingOffset c ≤ low.toNat ∧ high.toNat - scalingOffset c < Config.half := by
  have := high.isLt
  unfold scalingOf at h
  split at h
  · cases h; simp [scalingOffset]; omega
  · split at h
    · cases h; simp [scalingOffset, Config.half] at *; omega
    · split at h
      · cases h; simp [scalingOffset, Config.qtr, Config.half, Config.threeQtr] at *; omega
      · cases h

/-- No case applies exactly to the intervals of R188. -/
theorem scalingOf_none {low high : Bound} (h : scalingOf low high = none) :
    low.toNat < Config.half ∧ Config.half ≤ high.toNat ∧
      (low.toNat < Config.qtr ∨ Config.threeQtr ≤ high.toNat) := by
  unfold scalingOf at h
  split at h
  · cases h
  · split at h
    · cases h
    · split at h
      · cases h
      · omega

/-- Scaling doubles the low bound exactly. -/
theorem scaleLow_toNat {c : Scaling} {low high : Bound} (h : scalingOf low high = some c)
    (hle : low.toNat ≤ high.toNat) :
    (scaleLow c low).toNat = 2 * (low.toNat - scalingOffset c) := by
  have h1 := scalingOf_some h
  simp only [Config.half] at h1
  simp only [scaleLow, BitVec.toNat_ofNat]
  omega

/-- Scaling doubles the high bound exactly. -/
theorem scaleHigh_toNat {c : Scaling} {low high : Bound} (h : scalingOf low high = some c) :
    (scaleHigh c high).toNat = 2 * (high.toNat - scalingOffset c) + 1 := by
  have h1 := scalingOf_some h
  simp only [Config.half] at h1
  simp only [scaleHigh, BitVec.toNat_ofNat]
  omega

@[simp] theorem scalingEmit_mode (c : Scaling) (e : Encoder) :
    (scalingEmit c e).mode = e.mode := by
  cases c <;> simp [scalingEmit]

@[simp] theorem scalingEmit_low (c : Scaling) (e : Encoder) : (scalingEmit c e).low = e.low := by
  cases c <;> simp [scalingEmit]

@[simp] theorem scalingEmit_high (c : Scaling) (e : Encoder) :
    (scalingEmit c e).high = e.high := by
  cases c <;> simp [scalingEmit]

@[simp] theorem encPass_low (c : Scaling) (e : Encoder) : (encPass c e).low = scaleLow c e.low :=
  congrArg (scaleLow c) (scalingEmit_low c e)

@[simp] theorem encPass_high (c : Scaling) (e : Encoder) :
    (encPass c e).high = scaleHigh c e.high :=
  congrArg (scaleHigh c) (scalingEmit_high c e)

@[simp] theorem encPass_mode (c : Scaling) (e : Encoder) : (encPass c e).mode = e.mode :=
  scalingEmit_mode c e

@[simp] theorem decPass_low (inp : List Byte) (c : Scaling) (d : Decoder) :
    (decPass inp c d).low = scaleLow c d.low := rfl

@[simp] theorem decPass_high (inp : List Byte) (c : Scaling) (d : Decoder) :
    (decPass inp c d).high = scaleHigh c d.high := rfl

@[simp] theorem decPass_mode (inp : List Byte) (c : Scaling) (d : Decoder) :
    (decPass inp c d).mode = d.mode := rfl

@[simp] theorem decPass_pos (inp : List Byte) (c : Scaling) (d : Decoder) :
    (decPass inp c d).pos = d.pos + 1 := rfl

/-- One pass of the encoder's loop, or its exit. -/
theorem encRenorm_succ (fuel : Nat) (e : Encoder) :
    encRenorm (fuel + 1) e =
      match scalingOf e.low e.high with
      | none => e
      | some c => encRenorm fuel (encPass c e) := rfl

/-- One pass of the decoder's loop, or its exit. -/
theorem decRenorm_succ (inp : List Byte) (fuel : Nat) (d : Decoder) :
    decRenorm inp (fuel + 1) d =
      match scalingOf d.low d.high with
      | none => d
      | some c => decRenorm inp fuel (decPass inp c d) := rfl

/-! ### Running masses of a walk -/

@[simp] theorem massRun_nil (b : Byte) (c : Cache) : massRun b c [] = (numOne, 0) := rfl

theorem massRun_append_level (b : Byte) (c : Cache) (ks : List (Fin 8)) (k : Fin 8) :
    massRun b c (ks ++ [k]) =
      (numMul (massRun b c ks).1 (if b.getLsbD k then c.p1[k] else c.p0[k]),
       if b.getLsbD k then numAdd (massRun b c ks).2 (numMul (massRun b c ks).1 c.p0[k])
       else (massRun b c ks).2) := by
  simp [massRun]

end Sys2Proof.Machine
end

