-- ==== Sys2Proof/Laws/PerInstr.lean ====
section
/-!
SUPPORT. One lemma per command about the command as syntax: the family EncodedLength says that a command's
bytes begin with its opcode and are as many as its row of 30_encoding.md rule R84 gives.
-/
namespace Sys2Proof

@[simp] theorem numBytes_length (x : F64) : (numBytes x).length = 8 := by simp [numBytes]

/-- The opcode bytes of R84 are distinct, so each is read back as its own opcode. -/
theorem opcodeOf_opcodeByte (o : Opcode) : opcodeOf (opcodeByte o) = some o := by
  cases o <;> decide

namespace Laws.EncodedLength

/-- The command's bytes begin with its opcode byte and have the length of its row. -/
def Statement (i : Instr) : Prop :=
  (encode i).head? = some (opcodeByte (instrOpcode i)) ∧ (encode i).length = commandLength i

theorem init (d : Byte) : Statement (.init d) :=
  ⟨rfl, rfl⟩

theorem stat : Statement .stat :=
  ⟨rfl, rfl⟩

theorem kt (n0 : Byte) (n1 : Byte) (s : Byte) : Statement (.kt n0 n1 s) :=
  ⟨rfl, rfl⟩

theorem ctupd (node : Byte) (bit : Byte) : Statement (.ctupd node bit) :=
  ⟨rfl, rfl⟩

theorem ctreupd (node : Byte) (bit : Byte) : Statement (.ctreupd node bit) :=
  ⟨rfl, rfl⟩

theorem loadhist (seed : List Byte) : Statement (.loadhist seed) :=
  ⟨rfl, by simp [encode, encodeOperands, commandLength, opcodeFormat, instrOpcode]; omega⟩

theorem predict (b : Byte) : Statement (.predict b) :=
  ⟨rfl, rfl⟩

theorem cumprob (b : Byte) : Statement (.cumprob b) :=
  ⟨rfl, rfl⟩

theorem update (b : Byte) : Statement (.update b) :=
  ⟨rfl, rfl⟩

theorem decode (x : F64) : Statement (.decode x) :=
  ⟨rfl, by simp [encode, encodeOperands, commandLength, opcodeFormat, instrOpcode]⟩

theorem einit : Statement .einit :=
  ⟨rfl, rfl⟩

theorem ebit (bit : Byte) (p0 : F64) : Statement (.ebit bit p0) :=
  ⟨rfl, by simp [encode, encodeOperands, commandLength, opcodeFormat, instrOpcode]⟩

theorem eflush : Statement .eflush :=
  ⟨rfl, rfl⟩

theorem erd : Statement .erd :=
  ⟨rfl, rfl⟩

theorem dinit : Statement .dinit :=
  ⟨rfl, rfl⟩

theorem dbit (p0 : F64) : Statement (.dbit p0) :=
  ⟨rfl, by simp [encode, encodeOperands, commandLength, opcodeFormat, instrOpcode]⟩

theorem drd : Statement .drd :=
  ⟨rfl, rfl⟩

theorem encbyte (b : Byte) : Statement (.encbyte b) :=
  ⟨rfl, rfl⟩

theorem decbyte : Statement .decbyte :=
  ⟨rfl, rfl⟩

end Laws.EncodedLength
end Sys2Proof
end

