-- ==== Sys2Proof/Laws/Store.lean ====
section
/-!
SUPPORT. The node store: reads after writes, and that every operation of the store keeps its canonical form
(`CtTree.wf`).
-/
namespace Sys2Proof.Machine

/-! ### The order of paths -/

theorem pathLt_irrefl (p : KeyPath) : pathLt p p = false := by
  induction p with
  | nil => rfl
  | cons a p ih => simpa [pathLt] using ih

/-- Two different paths are in one order or the other. -/
theorem pathLt_total {p q : KeyPath} (h : p ≠ q) (hn : pathLt p q = false) : pathLt q p = true := by
  induction p generalizing q with
  | nil => cases q with
    | nil => exact absurd rfl h
    | cons b q => simp [pathLt] at hn
  | cons a p ih => cases q with
    | nil => rfl
    | cons b q =>
      by_cases hab : a = b
      · subst hab
        simp only [pathLt, if_true] at hn ⊢
        exact ih (by simpa using h) hn
      · have hne : a.toNat ≠ b.toNat := fun e => hab (BitVec.eq_of_toNat_eq e)
        have hba : ¬ b = a := fun e => hab e.symm
        simp [pathLt, hab] at hn
        simp [pathLt, hba]
        omega

theorem pathLt_trans {p q r : KeyPath} (h1 : pathLt p q = true) (h2 : pathLt q r = true) :
    pathLt p r = true := by
  induction p generalizing q r with
  | nil => cases r with
    | nil => cases q <;> simp [pathLt] at h2
    | cons c r => rfl
  | cons a p ih => cases q with
    | nil => simp [pathLt] at h1
    | cons b q => cases r with
      | nil => simp [pathLt] at h2
      | cons c r =>
        simp only [pathLt] at h1 h2 ⊢
        split at h1 <;> split at h2 <;> rename_i hab hbc
        · subst hab; subst hbc
          simpa using ih h1 h2
        · subst hab
          simpa [hbc] using h2
        · subst hbc
          simpa [hab] using h1
        · have h1' : a.toNat < b.toNat := by simpa using h1
          have h2' : b.toNat < c.toNat := by simpa using h2
          have hac : ¬ a = c := fun e => by subst e; omega
          simp [hac]; omega

/-! ### Reads after writes -/

/-- A read at the path just written gives the node written. -/
@[simp] theorem treeGet_treePut_same (t : CtTree) (p : KeyPath) (v : CtNode) :
    treeGet (treePut t p v) p = some v := by
  induction t with
  | nil => simp [treePut, treeGet]
  | cons e t ih =>
    obtain ⟨q, w⟩ := e
    unfold treePut
    split
    · simp [treeGet]
    · split
      · simp [treeGet]
      · rename_i hq _
        simpa [treeGet, hq] using ih

/-- A write leaves every other path as it was. -/
theorem treeGet_treePut_other (t : CtTree) {p q : KeyPath} (v : CtNode) (h : q ≠ p) :
    treeGet (treePut t p v) q = treeGet t q := by
  induction t with
  | nil => simp [treePut, treeGet, Ne.symm h]
  | cons e t ih =>
    obtain ⟨r, w⟩ := e
    unfold treePut
    split
    · rename_i hr; subst hr; simp [treeGet, Ne.symm h]
    · split
      · simp [treeGet, Ne.symm h]
      · simp [treeGet, ih]

/-- Writing one path twice is writing it once. -/
theorem treePut_treePut_same (t : CtTree) (p : KeyPath) (v w : CtNode) :
    treePut (treePut t p v) p w = treePut t p w := by
  induction t with
  | nil => simp [treePut]
  | cons e t ih =>
    obtain ⟨q, u⟩ := e
    by_cases hq : q = p
    · simp [treePut, hq]
    · by_cases hl : pathLt p q = true
      · simp [treePut, hq, hl]
      · simp [treePut, hq, hl, ih]

/-! ### The canonical form -/

/-- Every path of a canonical tree's tail is above its first path. -/
theorem wf_cons {p : KeyPath} {v : CtNode} {t : CtTree} (h : CtTree.wf ((p, v) :: t) = true) :
    CtTree.wf t = true ∧ ∀ e ∈ t, pathLt p e.1 = true := by
  induction t generalizing p v with
  | nil => simp [CtTree.wf]
  | cons e t ih =>
    obtain ⟨q, w⟩ := e
    simp only [CtTree.wf, Bool.and_eq_true] at h
    refine ⟨h.2, ?_⟩
    intro e he
    rcases List.mem_cons.mp he with rfl | he
    · exact h.1
    · exact pathLt_trans h.1 ((ih h.2).2 e he)

/-- A path below every path of a canonical tree may stand before it. -/
theorem wf_of_cons {p : KeyPath} {v : CtNode} {t : CtTree} (h : CtTree.wf t = true)
    (hp : ∀ e ∈ t, pathLt p e.1 = true) : CtTree.wf ((p, v) :: t) = true := by
  cases t with
  | nil => rfl
  | cons e t =>
    obtain ⟨q, w⟩ := e
    simp only [CtTree.wf, Bool.and_eq_true]
    exact ⟨hp (q, w) (by simp), h⟩

/-- What a write can add to a tree: the entry written, and nothing else. -/
theorem mem_treePut {t : CtTree} {p : KeyPath} {v : CtNode} {e : KeyPath × CtNode}
    (h : e ∈ treePut t p v) : e = (p, v) ∨ e ∈ t := by
  induction t with
  | nil => simpa [treePut] using h
  | cons d t ih =>
    obtain ⟨q, w⟩ := d
    unfold treePut at h
    split at h
    · rcases List.mem_cons.mp h with rfl | h
      · exact .inl rfl
      · exact .inr (List.mem_cons_of_mem _ h)
    · split at h
      · rcases List.mem_cons.mp h with rfl | h
        · exact .inl rfl
        · exact .inr h
      · rcases List.mem_cons.mp h with rfl | h
        · exact .inr (by simp)
        · rcases ih h with rfl | h
          · exact .inl rfl
          · exact .inr (List.mem_cons_of_mem _ h)

/-- A write keeps the canonical form. -/
theorem treePut_wf {t : CtTree} (p : KeyPath) (v : CtNode) (h : CtTree.wf t = true) :
    CtTree.wf (treePut t p v) = true := by
  induction t with
  | nil => rfl
  | cons e t ih =>
    obtain ⟨q, w⟩ := e
    obtain ⟨ht, hq⟩ := wf_cons h
    unfold treePut
    split
    · rename_i hqp; subst hqp; exact wf_of_cons ht hq
    · rename_i hqp
      split
      · rename_i hl
        refine wf_of_cons h ?_
        intro e he
        rcases List.mem_cons.mp he with rfl | he
        · exact hl
        · exact pathLt_trans hl (hq e he)
      · rename_i hl
        refine wf_of_cons (ih ht) ?_
        intro e he
        rcases mem_treePut he with rfl | he
        · exact pathLt_total (Ne.symm hqp) (by simpa using hl)
        · exact hq e he

/-- Creating the missing nodes of a path keeps the canonical form. -/
theorem createPath_wf {t : CtTree} (ps : List KeyPath) (h : CtTree.wf t = true) :
    CtTree.wf (createPath t ps).1 = true := by
  induction ps generalizing t with
  | nil => exact h
  | cons p ps ih =>
    unfold createPath
    split
    · exact ih h
    · exact ih (treePut_wf p newNode h)

/-- Writing the nodes of a path keeps the canonical form. -/
theorem putNodes_wf {t : CtTree} (ps : List KeyPath) (vs : List CtNode) (h : CtTree.wf t = true) :
    CtTree.wf (putNodes t ps vs) = true := by
  induction ps generalizing t vs with
  | nil => cases vs <;> exact h
  | cons p ps ih => cases vs with
    | nil => exact h
    | cons v vs => exact ih vs (treePut_wf p v h)

/-- Writing the nodes of a path leaves every node off the path as it was. -/
theorem treeGet_putNodes_other {t : CtTree} {ps : List KeyPath} {q : KeyPath} (vs : List CtNode)
    (h : q ∉ ps) : treeGet (putNodes t ps vs) q = treeGet t q := by
  induction ps generalizing t vs with
  | nil => cases vs <;> rfl
  | cons p ps ih => cases vs with
    | nil => rfl
    | cons v vs =>
      have hp : q ≠ p := fun e => h (by simp [e])
      have hps : q ∉ ps := fun e => h (by simp [e])
      simp only [putNodes]
      rw [ih vs hps, treeGet_treePut_other t v hp]

/-- Creating the nodes of a path leaves every node off the path, and every node that exists, as it was. -/
theorem treeGet_createPath {t : CtTree} {ps : List KeyPath} {q : KeyPath}
    (h : q ∉ ps ∨ (treeGet t q).isSome = true) : treeGet (createPath t ps).1 q = treeGet t q := by
  induction ps generalizing t with
  | nil => rfl
  | cons p ps ih =>
    unfold createPath
    split
    · rename_i w hw
      refine ih ?_
      rcases h with h | h
      · exact .inl fun e => h (by simp [e])
      · exact .inr h
    · rename_i hw
      by_cases hp : q = p
      · subst hp
        rcases h with h | h
        · exact absurd (by simp) h
        · simp [hw] at h
      · have key := treeGet_treePut_other t newNode hp
        dsimp only
        rw [ih, key]
        rcases h with h | h
        · exact .inl fun e => h (by simp [e])
        · exact .inr (by rw [key]; exact h)

/-- The new model's trees are canonical: the reset store and the store INIT builds (R50, R155). -/
theorem reset_storeWf : Model.storeWf Model.reset = true := by decide +kernel

theorem initModel_storeWf (d : BitVec 4) (m : Model) : (initModel d m).storeWf = true := by
  have h : (Vector.replicate 255 newTree).all CtTree.wf = true := by decide +kernel
  exact h

/-- Replacing a tree of a canonical store by a canonical tree keeps the store canonical. -/
theorem setTree_storeWf {m : Model} (n : Nat) {t : CtTree} (h : m.storeWf = true)
    (ht : t.wf = true) : (setTree n t m).storeWf = true := by
  simp only [Model.storeWf, Vector.all_eq_true, setTree] at h ⊢
  intro i hi
  rw [Vector.getElem_set]
  split
  · exact ht
  · exact h i hi

/-- Every tree of a canonical store is canonical. -/
theorem treeOf_wf {m : Model} (n : Nat) (h : m.storeWf = true) : (treeOf m n).wf = true := by
  simp only [Model.storeWf, Vector.all_eq_true] at h
  exact h _ (treeIndex n).isLt

/-- An update keeps the store canonical. -/
theorem ctUpdate_storeWf (p : Params) (n : Nat) (bit : Bool) (k : Fin 8) {m : Model}
    (h : m.storeWf = true) : (ctUpdate p n bit k m).2.storeWf = true :=
  setTree_storeWf n h (putNodes_wf _ _ (createPath_wf _ (treeOf_wf n h)))

/-- A reupdate keeps the store canonical. -/
theorem ctReupdate_storeWf (p : Params) (n : Nat) (bit : Bool) (k : Fin 8) {m : Model}
    (h : m.storeWf = true) : (ctReupdate p n bit k m).storeWf = true := by
  cases bit
  · exact h
  · exact setTree_storeWf n h (putNodes_wf _ _ (treeOf_wf n h))

end Sys2Proof.Machine
end

