-- ==== Sys2Proof/Tests/Slice0.lean ====
section
/-!
SUPPORT. The model's own tests. Expected values come from the spec: encodings from 30_encoding.md §1 and §3, results
from the examples of the command rules and from 95_test_vectors.md, whose vectors' ids are named. The witnesses at
the end show, for each statement with hypotheses, a state and operands that meet them together.
-/
set_option Elab.async false

namespace Sys2Proof.Machine

/-- The next state of an outcome; the reset state if there is none. -/
def nextOf : Host.Outcome State Fault Refusal → State
  | .next s => s
  | .fault _ => State.reset
  | .refused _ => State.reset

/-- Whether an outcome is a next state. -/
def answersNext : Host.Outcome State Fault Refusal → Bool
  | .next _ => true
  | .fault _ => false
  | .refused _ => false

theorem exists_of_answersNext {o : Host.Outcome State Fault Refusal} (h : answersNext o = true) :
    ∃ t, o = .next t := by
  cases o with
  | next t => exact ⟨t, rfl⟩
  | fault r => cases h
  | refused r => cases h

/-- INIT d, then LOADHIST seed, from reset. -/
def loaded (d : Byte) (seed : List Byte) : State :=
  nextOf (exec (.loadhist seed) (nextOf (exec (.init d) State.reset)))

/-- A loaded core with D = 1 and a pending PREDICT 'c'. -/
def pending : State := nextOf (exec (.predict 0x63) (loaded 1 [0]))

/-- A loaded core with D = 1 after CTUPD 3, 0. -/
def updated : State := nextOf (exec (.ctupd 3 0) (loaded 1 [7]))

/-! ### Well-formedness -/

theorem test_wellFormed_refuses_a_seed_of_256 :
    (Instr.loadhist (List.replicate 256 0)).wellFormed = false := by decide +kernel

theorem test_wellFormed_accepts_a_seed_of_255 :
    (Instr.loadhist (List.replicate 255 0)).wellFormed = true := by decide +kernel

/-! ### Decoding: one word of every command, written out from R81 and R84 -/

theorem test_decode_init : decodeCommand [0x01, 0x02] = .command (.init 2) [] := by decide +kernel
theorem test_decode_stat : decodeCommand [0x02, 0xFF] = .command .stat [0xFF] := by decide +kernel
theorem test_decode_kt :
    decodeCommand [0x10, 0x03, 0x01, 0x00] = .command (.kt 3 1 0) [] := by decide +kernel
theorem test_decode_ctupd :
    decodeCommand [0x20, 0xFF, 0x01] = .command (.ctupd 255 1) [] := by decide +kernel
theorem test_decode_ctreupd :
    decodeCommand [0x21, 0x03, 0x01] = .command (.ctreupd 3 1) [] := by decide +kernel
theorem test_decode_loadhist :
    decodeCommand [0x30, 0x02, 0x61, 0x62, 0x31] = .command (.loadhist [0x61, 0x62]) [0x31] := by
  decide +kernel
theorem test_decode_predict :
    decodeCommand [0x31, 0x63] = .command (.predict 0x63) [] := by decide +kernel
theorem test_decode_cumprob :
    decodeCommand [0x32, 0x78] = .command (.cumprob 0x78) [] := by decide +kernel
theorem test_decode_update :
    decodeCommand [0x33, 0x63] = .command (.update 0x63) [] := by decide +kernel
theorem test_decode_decode :
    decodeCommand [0x34, 0x3F, 0xDF, 0x5C, 0x28, 0xF5, 0xC2, 0x8F, 0x5C] =
      .command (.decode 0x3FDF5C28F5C28F5C#64) [] := by decide +kernel
theorem test_decode_einit : decodeCommand [0x40] = .command .einit [] := by decide +kernel
theorem test_decode_ebit :
    decodeCommand [0x41, 0x01, 0x3F, 0xE3, 0x33, 0x33, 0x33, 0x33, 0x33, 0x34] =
      .command (.ebit 1 0x3FE3333333333334#64) [] := by decide +kernel
theorem test_decode_eflush : decodeCommand [0x42] = .command .eflush [] := by decide +kernel
theorem test_decode_erd : decodeCommand [0x43] = .command .erd [] := by decide +kernel
theorem test_decode_dinit : decodeCommand [0x48] = .command .dinit [] := by decide +kernel
theorem test_decode_dbit :
    decodeCommand [0x49, 0x3F, 0xD3, 0x33, 0x33, 0x33, 0x33, 0x33, 0x34] =
      .command (.dbit 0x3FD3333333333334#64) [] := by decide +kernel
theorem test_decode_drd : decodeCommand [0x4A] = .command .drd [] := by decide +kernel
theorem test_decode_encbyte :
    decodeCommand [0x50, 0x41] = .command (.encbyte 0x41) [] := by decide +kernel
theorem test_decode_decbyte : decodeCommand [0x51] = .command .decbyte [] := by decide +kernel

/-- P21: an illegal last byte is illegal, not incomplete. -/
theorem test_decode_illegal : decodeCommand [0x00] = .illegalOpcode 0x00 := by decide +kernel
/-- P18 and P20: a truncated EBIT, and a LOADHIST without its length byte or a seed byte. -/
theorem test_decode_incomplete :
    decodeCommand [0x41, 0x00] = .incomplete ∧ decodeCommand [0x30] = .incomplete ∧
      decodeCommand [0x30, 0x02, 0x00] = .incomplete := by decide +kernel
theorem test_decode_ended : decodeCommand [] = .ended := by decide +kernel
/-- Exactly 19 of the 256 byte values are opcodes (R84, R85). -/
theorem test_nineteen_opcodes :
    ((List.range 256).filter (fun b => (opcodeOf (BitVec.ofNat 8 b)).isSome)).length = 19 := by
  decide +kernel

/-- A table word: the opcode in the low byte, the operand of CTUPD above it. -/
theorem test_decodeTableWord_ctupd : decodeTableWord 24 0x010320 = some (.ctupd 3 1) := by
  decide +kernel
/-- An operand the table gives no bits is zero. -/
theorem test_decodeTableWord_loadhist : decodeTableWord 16 0x0230 = some (.loadhist [0, 0]) := by
  decide +kernel
theorem test_withFetchWord_runs_the_word :
    (nextOf (step (State.reset.withFetchWord 16 0x0201))).model.d = 2 := by decide +kernel

/-- R80: as the spec's bit string, byte 0 is highest; a table word has it lowest (log entry 15). -/
theorem test_command_bit_string : beValue (encode (.ctupd 3 1)) = 0x200301 := by decide +kernel

/-! ### NUM arithmetic (IEEE 754 binary64 by hand) -/

/-- 2^53 + 1 is a tie and goes to the even 2^53. -/
theorem test_numOfNat_ties_to_even : numOfNat (2 ^ 53 + 1) = 0x4340000000000000#64 := by
  decide +kernel
/-- The least subnormal times 0.5 is a tie with zero. -/
theorem test_numMul_underflow : numMul 1#64 0x3FE0000000000000#64 = 0#64 := by decide +kernel
/-- 1/3 rounds down, and the greatest finite value doubled is infinity. -/
theorem test_numDiv_third :
    numDiv numOne 0x4008000000000000#64 = 0x3FD5555555555555#64 ∧
      numAdd 0x7FEFFFFFFFFFFFFF#64 0x7FEFFFFFFFFFFFFF#64 = 0x7FF0000000000000#64 := by
  decide +kernel
/-- 1 - 1 is +0.0, and -0.0 is not below 0.0. -/
theorem test_numAdd_cancels :
    numAdd numOne 0xBFF0000000000000#64 = 0#64 ∧ numLt 0x8000000000000000#64 0#64 = false := by
  decide +kernel

/-! ### Commands -/

/-- R112's example. -/
theorem test_kt : (nextOf (exec (.kt 3 1 0) State.reset)).res =
    [0x3F, 0xE7, 0xC1, 0xF0, 0x7C, 0x1F, 0x07, 0xC2] := by decide +kernel
/-- §2.1: the table's minimum. -/
theorem test_kt_minimum : kt 255 0 true = 0x3F300E0C4AC1693C#64 := by decide +kernel
/-- R155's example: STATUS 0x00000202, NODES_USED 255. -/
theorem test_init : statusWord (nextOf (exec (.init 2) State.reset)) = 0x00000202#32 ∧
    (nextOf (exec (.init 2) State.reset)).model.nodesUsed = 255 := by decide +kernel
/-- P7: INIT 16 faults BAD_ORDER. -/
theorem test_init_bad_order : statusWord (nextOf (exec (.init 16) State.reset)) = 0x00030001#32 := by
  decide +kernel
/-- R156's example. -/
theorem test_loadhist : (loaded 2 [0x61, 0x62]).model.hist = [0x62, 0x61] := by decide +kernel
/-- R131's example: (0.5, 0.5), and the leaf (7) at counts (0, 1). -/
theorem test_ctupd : (nextOf (exec (.ctupd 1 1) (loaded 1 [7]))).res =
      [0x3F, 0xE0, 0, 0, 0, 0, 0, 0, 0x3F, 0xE0, 0, 0, 0, 0, 0, 0] ∧
    (treeGet (treeOf (nextOf (exec (.ctupd 1 1) (loaded 1 [7]))).model 1) [7]).map (·.counts) =
      some { n0 := 0, n1 := 1 } := by decide +kernel
/-- R132's example: the dummy 0 of TREE[3] is corrected to (0, 1). -/
theorem test_ctreupd :
    (treeGet (treeOf (nextOf (exec (.ctreupd 3 1) updated)).model 3) [7]).map (·.counts) =
      some { n0 := 0, n1 := 1 } := by decide +kernel
/-- P15: CTREUPD without a CTUPD faults 0x0B. -/
theorem test_ctreupd_without_update :
    (nextOf (exec (.ctreupd 1 1) (loaded 1 [0]))).fcode = 0x0B := by decide +kernel
/-- §2.2: aging. -/
theorem test_age : countBit false { n0 := 254, n1 := 3 } = { n0 := 127, n1 := 1 } ∧
    countBit false { n0 := 127, n1 := 128 } = { n0 := 64, n1 := 64 } ∧
    countBit false { n0 := 127, n1 := 127 } = { n0 := 128, n1 := 127 } := by decide +kernel
/-- §2.4: PREDICT 'c' on a fresh model. -/
theorem test_predict : pending.res = [0x3F, 0x70, 0, 0, 0, 0, 0, 0] ∧ pending.model.nodesUsed = 263 := by
  decide +kernel
/-- R158's example: CUMPROB 'x' while dirty reads the cache of 'c'. -/
theorem test_cumprob_dirty : (nextOf (exec (.cumprob 0x78) pending)).res.drop 8 =
    [0x3F, 0xD8, 0xC0, 0, 0, 0, 0, 0] := by decide +kernel
/-- §2.4: DECODE 0.49 gives 125. -/
theorem test_decode_target :
    (nextOf (exec (.decode 0x3FDF5C28F5C28F5C#64) (loaded 1 [0]))).res = [0x7D] := by decide +kernel
/-- R159's example, and P9: another byte faults 0x09. -/
theorem test_update : (nextOf (exec (.update 0x63) pending)).model.hist = [0x63] ∧
    (nextOf (exec (.update 0x64) pending)).fcode = 0x09 := by decide +kernel
/-- R196's example. -/
theorem test_ebit : (nextOf (exec (.ebit 0 0x3FE0000000000000#64) State.reset)).enc =
    { Encoder.reset with cnt := 1 } := by decide +kernel
/-- §2.5, straddle trace: the bounds after 0 @ 0.3 and 1 @ 0.6. -/
theorem test_ebit_straddle :
    let e := encodeBit true 0x3FE3333333333333#64 (encodeBit false 0x3FD3333333333333#64 Encoder.reset)
    e.low = 0x3851E8 ∧ e.high = 0xB3332F ∧ e.pend = 1 := by decide +kernel
/-- R195: EINIT keeps OUT and discards the packer. -/
theorem test_einit : (nextOf (exec .einit { State.reset with
      enc := { Encoder.reset with mode := .flushed, acc := 1, cnt := 2, out := [0x40] } })).enc =
    { Encoder.reset with out := [0x40] } := by decide +kernel
/-- R197: a flush with nothing encoded gives 0x40. -/
theorem test_eflush : (nextOf (exec .eflush State.reset)).enc.out = [0x40] ∧
    (nextOf (exec .eflush State.reset)).enc.mode = .flushed := by decide +kernel
/-- R198's example. -/
theorem test_erd : (nextOf (exec .erd State.reset)).res =
    [0, 0, 0, 0xFF, 0xFF, 0xFF, 0, 0, 0, 0, 0, 0, 0, 0, 0, 0] := by decide +kernel
/-- §2.5: IN = AB. -/
theorem test_dinit : (nextOf (exec .dinit { State.reset with inp := [0xAB] })).dec =
    { mode := .active, low := 0x000000, high := 0xFFFFFF, code := 0xAB0000, pos := 24 } := by
  decide +kernel
/-- R203's example. -/
theorem test_dbit :
    let t := nextOf (exec (.dbit 0x3FE0000000000000#64) (nextOf (exec .dinit { State.reset with inp := [0x20] })))
    t.res = [0x00] ∧ t.dec.code = 0x400000 ∧ t.dec.pos = 25 := by decide +kernel
/-- R204's example. -/
theorem test_drd : (nextOf (exec .drd State.reset)).res =
    [0, 0, 0, 0xFF, 0xFF, 0xFF, 0, 0, 0, 0, 0, 0, 0, 0, 0, 0, 0] := by decide +kernel
/-- R222's example. -/
theorem test_encbyte : (nextOf (exec (.encbyte 0x41) (loaded 1 [0x41]))).enc =
      { Encoder.reset with out := [0x41] } ∧
    (nextOf (exec (.encbyte 0x41) (loaded 1 [0x41]))).model.nodesUsed = 263 := by decide +kernel
/-- R224's example. -/
theorem test_decbyte :
    let t := nextOf (exec .decbyte (nextOf (exec .dinit { loaded 1 [0x41] with inp := [0x41] })))
    t.res = [0x41] ∧ t.dec.code = 0x000000 ∧ t.dec.pos = 32 := by decide +kernel
/-- R228: from reset STAT returns eight zero bytes. -/
theorem test_stat : (nextOf (exec .stat State.reset)).res = [0, 0, 0, 0, 0, 0, 0, 0] := by decide +kernel

/-! ### Steps -/

/-- P16, P20 and an empty CMD: a fault entry, stuck and final; and a faulted core is halted. -/
theorem test_step_ends :
    step (launch Config.defaultParams [0x00] []) =
      .next (faulted 0x01 (launch Config.defaultParams [0x00] [])) ∧
    step (launch Config.defaultParams [0x30] []) = .fault .stuck ∧
    step State.reset = .fault .runEnded ∧ step (faulted 0x01 State.reset) = .fault .halted :=
  ⟨rfl, rfl, rfl, rfl⟩

/-! ### Witnesses: every statement's hypotheses are met together -/

theorem witness_DecodeOfEncodeGivesTheCommandBack :
    (Instr.loadhist (List.replicate 255 0xFF)).wellFormed = true := by decide +kernel

theorem witness_DecodedCommandWasEncoded :
    decodeCommand [0x30, 0x00, 0x02] = .command (.loadhist []) [0x02] := by decide +kernel

/-- Both ends of every range of R85. -/
theorem witness_EveryOtherOpcodeFaults :
    ∀ op ∈ ([0x00, 0x03, 0x0F, 0x11, 0x1F, 0x22, 0x2F, 0x35, 0x3F, 0x44, 0x47, 0x4B, 0x4F, 0x52,
      0xFF] : List Byte),
    (launch Config.defaultParams [op] []).fault = false ∧
    (launch Config.defaultParams [op] []).cmd.drop (launch Config.defaultParams [op] []).cp = [op] ∧
    (op.toNat = 0x00 ∨ (0x03 ≤ op.toNat ∧ op.toNat ≤ 0x0F) ∨ (0x11 ≤ op.toNat ∧ op.toNat ≤ 0x1F) ∨
      (0x22 ≤ op.toNat ∧ op.toNat ≤ 0x2F) ∨ (0x35 ≤ op.toNat ∧ op.toNat ≤ 0x3F) ∨
      (0x44 ≤ op.toNat ∧ op.toNat ≤ 0x47) ∨ (0x4B ≤ op.toNat ∧ op.toNat ≤ 0x4F) ∨
      0x52 ≤ op.toNat) := by decide +kernel

theorem witness_StepRunsTheCommandAtCp :
    let s : State := { State.reset with cmd := [0x40, 0x30, 0x01, 0x07, 0x02], cp := 1 }
    s.fault = false ∧ decodeCommand (s.cmd.drop s.cp) = .command (.loadhist [7]) [0x02] ∧
    (Instr.loadhist [7]).wellFormed = true ∧ s.cmd = [0x40] ++ encode (.loadhist [7]) ++ [0x02] ∧
    s.cp = [(0x40 : Byte)].length := by decide +kernel

theorem witness_StepFaultsInPlaceOrMovesPastTheCommand :
    (∃ t, step (launch Config.defaultParams [0x40] []) = .next t) ∧
    ∃ t, step (launch Config.defaultParams [0x03] []) = .next t := ⟨⟨_, rfl⟩, ⟨_, rfl⟩⟩

theorem witness_ResetAndLaunchMeetTheInvariant : ParamsOk Config.defaultParams := by decide +kernel

set_option synthInstance.maxHeartbeats 400000 in
set_option synthInstance.maxSize 10000 in
/-- A dirty core about to run UPDATE 'c'. -/
theorem witness_EveryStepKeepsTheInvariant :
    Inv { pending with cmd := [0x33, 0x63], cp := 0 } ∧
    ∃ t, step { pending with cmd := [0x33, 0x63], cp := 0 } = .next t := by
  exact ⟨by decide +kernel, exists_of_answersNext (by decide +kernel)⟩

/-- One command for every code a command can raise, and one whose checks all pass. -/
theorem witness_FirstFailingCheckDecidesTheFault :
    firstFailure State.reset (.ctupd 1 1) = some 0x02 ∧ firstFailure State.reset (.init 0) = some 0x03 ∧
    firstFailure State.reset (.ebit 2 0x7FF8000000000000#64) = some 0x04 ∧
    firstFailure State.reset (.ebit 0 0x7FF8000000000000#64) = some 0x05 ∧
    firstFailure (loaded 1 [0]) (.loadhist []) = some 0x06 ∧
    firstFailure (nextOf (exec (.init 1) State.reset)) (.predict 0) = some 0x07 ∧
    firstFailure (loaded 1 [0]) (.update 0) = some 0x08 ∧ firstFailure pending (.update 6) = some 0x09 ∧
    firstFailure pending (.encbyte 0) = some 0x0A ∧
    firstFailure (loaded 1 [0]) (.ctreupd 1 1) = some 0x0B ∧
    firstFailure { loaded 1 [0] with params := { Config.defaultParams with nodeCap := 262 } } (.predict 0) =
      some 0x0C ∧
    firstFailure { State.reset with enc := { Encoder.reset with mode := .flushed } } .eflush = some 0x0D ∧
    firstFailure State.reset (.dbit 0) = some 0x0E ∧
    firstFailure { loaded 1 [0] with params := { Config.defaultParams with nodeCap := 263 } } (.predict 0) =
      none := by decide +kernel

theorem witness_StreamsOnlyGrow : ∃ t, exec .erd State.reset = .next t := ⟨_, rfl⟩

theorem witness_OnlyTheNamedCommandsChangeAGroup : ∃ t, exec .dinit State.reset = .next t := ⟨_, rfl⟩

theorem witness_KtAppendsTheTableEntry :
    (0 : Byte).toNat ≤ 1 ∧ (1 : Byte).toNat ≤ 1 ∧ 1 < (2 : Byte).toNat := by decide

/-- A tie: 2^53 + 1 lies halfway between the patterns of 2^53 and 2^53 + 2. -/
theorem witness_RoundingIsToNearestEven :
    0 < 1 ∧ roundUnits (2 ^ 53 + 1) 1 < infMag ∧ roundUnits (2 ^ 53 + 1) 1 + 1 < infMag ∧
    ((magUnits (roundUnits (2 ^ 53 + 1) 1) * 1 : Int) - (2 ^ 53 + 1 : Nat)).natAbs =
      ((magUnits (roundUnits (2 ^ 53 + 1) 1 + 1) * 1 : Int) - (2 ^ 53 + 1 : Nat)).natAbs := by
  decide +kernel

theorem witness_FiniteOperationsRoundTheExactResultOnce :
    numMag numOne < infMag ∧ numMag 1#64 < infMag ∧ numSigned numOne + numSigned 1#64 ≠ 0 ∧
    numUnits 1#64 ≠ 0 ∧ 2 ^ 53 - 1 < 2 ^ 53 := by decide +kernel

/-- A NaN, both infinities, both zeros, and the ends of the finite range. -/
theorem witness_ComparisonsOrderTheValues :
    numIsNaN 0x7FF0000000000001#64 = true ∧ numIsNaN 0x7FF0000000000000#64 = false ∧
    numIsNaN 0xFFF0000000000000#64 = false ∧ numMag 0x8000000000000000#64 < infMag ∧
    numMag 0#64 < infMag ∧ numMag 0xFFEFFFFFFFFFFFFF#64 < infMag := by decide +kernel

theorem witness_CountersIncrementAndAge :
    ({ n0 := 254, n1 := 254 } : Counts).n0.toNat < 255 ∧
    ({ n0 := 254, n1 := 254 } : Counts).n1.toNat < 255 := by decide

theorem witness_CtupdRunsTheUpdate :
    let s := loaded 1 [7]
    (255 : Byte).toNat ≠ 0 ∧ (1 : Byte).toNat ≤ 1 ∧ s.model.configured = true ∧ s.model.hloaded = true ∧
    s.model.dirty = false ∧ s.model.nodesUsed.toNat + s.model.d.toNat ≤ s.params.nodeCap := by
  decide +kernel

theorem witness_UpdateWalksThePathOfTheHistory :
    let m := (loaded 2 [0, 1]).model
    m.hist.length = m.d.toNat ∧ (treeOf m 255).wf = true := by decide +kernel

/-- Both kinds of internal node: unsaturated with the default ceiling, saturated with a ceiling of 1.0. -/
theorem witness_UpdateMixesBottomUp :
    let m := (loaded 2 [0, 1]).model
    0 < m.d.toNat ∧ m.hist.length = m.d.toNat ∧ 0 + 1 < m.d.toNat ∧
    ((ctUpdate Config.defaultParams 1 true 7 m).2.scr[(7 : Fin 8)].pr[0 + 1]?).isSome = true ∧
    numLe Config.defaultParams.betaMax (pathNode m 1 0).beta = false ∧
    numLe numOne (pathNode m 1 0).beta = true := by decide +kernel

theorem witness_UpdateWritesCountersAndBetas :
    let m := (loaded 2 [0, 1]).model
    let scr := (ctUpdate Config.defaultParams 1 true 7 m).2.scr[(7 : Fin 8)]
    m.hist.length = m.d.toNat ∧ 1 + 1 = m.d.toNat ∧ 0 + 1 < m.d.toNat ∧
    (scr.pr[0 + 1]?).isSome = true ∧ (scr.bm[0]?).isSome = true ∧
    numLe Config.defaultParams.betaMax (pathNode m 1 0).beta = false ∧
    numLe numOne (pathNode m 1 0).beta = true := by decide +kernel

/-- CT-SAT's parameters: BETA_MAX = 1.5, SAT_POLICY = reset. -/
def satParams : Params := { Config.defaultParams with betaMax := 0x3FF8000000000000#64 }

/-- CT-SAT's core with HIST = (0x10, h) and, in TREE[1], the node (0x10) with counts (n, 0) and the given beta,
above a leaf (0x10, 1) with counts (1, 0). -/
def satModel (h n : Byte) (beta : F64) : Model :=
  setTree 1
    [([], newNode), ([0x10], { counts := { n0 := n, n1 := 0 }, beta := beta }),
     ([0x10, 1], { counts := { n0 := 1, n1 := 0 }, beta := numOne })]
    { Model.reset with d := 2, hist := [0x10, h] }

/-- CT-SAT, step 2 (from step 1's state, a new leaf (0x10, 2)): pr0 is 0.7222.., and beta becomes 1.888.., which
is at least BETA_MAX. -/
theorem test_CT_SAT_step_2_leaves_beta_above_BETA_MAX :
    let u := ctUpdate satParams 1 false 7 (satModel 2 1 numOne)
    u.1.zero = 0x3FE71C71C71C71C7#64 ∧
    (treeGet (treeOf u.2 1) [0x10]).map (·.beta) = some 0x3FFE38E38E38E38E#64 ∧
    numLe satParams.betaMax 0x3FFE38E38E38E38E#64 = true := by decide +kernel

/-- CT-SAT, step 3: the node is saturated, pr0 is the child's, and beta becomes 1.0. -/
theorem test_CT_SAT_step_3_saturates :
    let u := ctUpdate satParams 1 false 7 (satModel 1 2 0x3FFE38E38E38E38E#64)
    u.1.zero = 0x3FEE38E38E38E38E#64 ∧
    (treeGet (treeOf u.2 1) [0x10]).map (·.beta) = some numOne := by decide +kernel

theorem witness_UpdateKeepsProbabilitiesPositiveAndBetasFinite :
    let m := (loaded 2 [0, 1]).model
    ParamsOk Config.defaultParams ∧ m.hist.length = m.d.toNat ∧
    ∀ e ∈ treeOf m 1, CountsOk e.2.counts ∧ FiniteBeta e.2.beta := by decide +kernel

theorem witness_BetasStayBelowBetaMax :
    let p := { Config.defaultParams with betaMax := 0x3FF8000000000000#64 }
    ParamsOk p ∧ p.satPolicy = .reset ∧
    ∀ e ∈ treeOf (loaded 2 [0, 1]).model 1, CountsOk e.2.counts ∧ numLe 0#64 e.2.beta = true ∧
      numLt e.2.beta p.betaMax = true := by decide +kernel

set_option synthInstance.maxHeartbeats 400000 in
set_option synthInstance.maxSize 10000 in
theorem witness_CtreupdCorrectsThePath :
    (0 : Byte).toNat ≤ 1 ∧ (1 : Byte).toNat ≤ 1 ∧ updated.model.configured = true ∧
    updated.model.dirty = false ∧ ConfiguredOk updated.params updated.model ∧ (3 : Byte).toNat ≠ 0 ∧
    updated.model.scr[levelOf (3 : Byte).toNat].valid = true ∧
    updated.model.scr[levelOf (3 : Byte).toNat].owner = 3 := by decide +kernel

/-- The inner clauses for CTREUPD, on a D = 2 core after CTUPD 1, 0. -/
theorem witness_CtreupdCorrectsThePath_inner :
    let m := (nextOf (exec (.ctupd 1 0) (loaded 2 [0, 1]))).model
    let scr := m.scr[(7 : Fin 8)]
    (scr.path[0]?).isSome = true ∧ (scr.saved[0]?).isSome = true ∧ scr.sat[0]? = some false ∧
    (scr.bm[0]?).isSome = true ∧ (scr.pr[0 + 1]?).isSome = true ∧ scr.sat[1]? ≠ some false ∧
    (treeGet (treeOf m 1) [1]).isSome = true ∧ scr.path[0]? = some [1] := by decide +kernel

theorem witness_DummyThenReupdateEqualsTrueUpdate :
    Config.defaultParams.reupdateCounters = .restore ∧ (treeOf (loaded 2 [0, 1]).model 1).wf = true := by
  decide +kernel

theorem witness_NodeNumbering : 1 ≤ 127 ∧ 127 ≤ 127 ∧ 6 < 7 := by decide

theorem witness_InitBuildsTheModel :
    1 ≤ (1 : Byte).toNat ∧ (15 : Byte).toNat ≤ 15 ∧ (0 : Byte).toNat < 1 ∧ 15 < (16 : Byte).toNat := by
  decide

theorem witness_LoadhistReversesTheSeed :
    let s := nextOf (exec (.init 15) State.reset)
    s.model.configured = true ∧ (List.replicate 15 (7 : Byte)).length = s.model.d.toNat ∧
    s.model.dirty = false := by decide +kernel

/-- Shared by QueriesWalkACleanModel, EncbyteCodesAByte and NanTargetDecodesToFf. -/
theorem witness_QueriesWalkACleanModel :
    let s := loaded 1 [0]
    s.model.configured = true ∧ s.model.hloaded = true ∧ s.model.dirty = false ∧
    s.enc.mode = .active ∧ 0 < s.model.d.toNat ∧ numIsNaN 0x7FF8000000000000#64 = true ∧
    s.model.nodesUsed.toNat + 8 * s.model.d.toNat ≤ s.params.nodeCap := by decide +kernel

theorem witness_QueriesRereadADirtyModel :
    pending.model.configured = true ∧ pending.model.hloaded = true ∧ pending.model.dirty = true := by
  decide +kernel

theorem witness_UpdateCommitsThePendingByte :
    pending.model.configured = true ∧ pending.model.hloaded = true ∧ pending.model.dirty = true ∧
    (0x63 : Byte) = pending.model.cache.byte ∧ pending.model.hist.length = pending.model.d.toNat ∧
    0 < pending.model.d.toNat := by decide +kernel

/-- The inner clauses for UPDATE: bit 0 of 0x63 is 1, TREE[4] is off its path, and the root is off SCR's. -/
theorem witness_UpdateCommitsThePendingByte_inner :
    (0x63 : Byte).getLsbD (0 : Fin 8) = true ∧
    (∀ k : Fin 8, (0x63 : Byte).getLsbD k = true → (3 : Fin 255).val + 1 ≠ nodeFor 0x63 k.val) ∧
    ([] : KeyPath) ∉ pending.model.scr[(0 : Fin 8)].path := by decide +kernel

/-- The inner clause for the walk: an unsaturated internal node, at D = 2. -/
theorem witness_WalkOfAKnownByte :
    (walk Config.defaultParams (known 0) (loaded 2 [0, 1]).model ()).1.scr[(7 : Fin 8)].sat[0]? =
      some false := by decide +kernel

theorem witness_WalkTouchesOnlyTheWindowsPath :
    let m := (loaded 2 [0, 1]).model
    (∀ k : Fin 8, (253 : Fin 255).val + 1 ≠ nodeFor 0xFF k.val) ∧
    ∀ i < m.d.toNat, ([0] : KeyPath) ≠ pathKey m i := by decide +kernel

theorem witness_WalkThenCommitEqualsTrueUpdates :
    Config.defaultParams.reupdateCounters = .restore ∧
    ∀ n : Fin 255, ((loaded 1 [0]).model.trees[n]).wf = true := by decide +kernel

/-- Each clause of the threshold: below 1, above range - 1, and between, at the least range; and for the floor
-0.0, the greatest NUM below 1, and the greatest finite one. -/
theorem witness_ThresholdLeavesBothPartsNonEmpty :
    2 ≤ 2 ∧ numFloor (numMul 0#64 (numOfNat 2)) < 1 ∧
    2 - 1 < numFloor (numMul numOne (numOfNat 2)) ∧
    1 ≤ numFloor (numMul 0x3FE0000000000000#64 (numOfNat 2)) ∧
    numFloor (numMul 0x3FE0000000000000#64 (numOfNat 2)) ≤ 2 - 1 ∧
    numLe 0#64 0x8000000000000000#64 = true ∧ numMag 0x8000000000000000#64 < infMag ∧
    numLe 0#64 0x3FEFFFFFFFFFFFFF#64 = true ∧ numMag 0x3FEFFFFFFFFFFFFF#64 < infMag ∧
    numLe 0#64 0x7FEFFFFFFFFFFFFF#64 = true ∧ numMag 0x7FEFFFFFFFFFFFFF#64 < infMag := by decide +kernel

/-- The ends of [0, 1], -0.0 included. -/
theorem witness_EncoderCommandsComplete :
    (0 : Byte).toNat ≤ 1 ∧ (1 : Byte).toNat ≤ 1 ∧ legalProb 0#64 = true ∧
    legalProb 0x8000000000000000#64 = true ∧ legalProb numOne = true ∧
    State.reset.enc.mode = .active := by decide +kernel

/-- The full interval, and the narrowest one between commands. -/
theorem witness_CoderIntervalInvariant :
    IntervalOk Encoder.reset.low Encoder.reset.high ∧ IntervalOk 0x3FFFFF 0x800000 ∧
    IntervalOk Decoder.reset.low Decoder.reset.high := by decide +kernel

/-- One bound pair for each case, at its edge. -/
theorem witness_NarrowingAndTheThreeCases :
    1 ≤ 1 ∧ (0xFFFFFE : Bound).toNat + 1 ≤ (0xFFFFFF : Bound).toNat ∧
    (0x7FFFFF : Bound).toNat < 0x800000 ∧ 0x800000 ≤ (0x800000 : Bound).toNat ∧
    0x400000 ≤ (0x400000 : Bound).toNat ∧ (0xBFFFFF : Bound).toNat < 0xC00000 := by decide +kernel

/-- Shared by EmitPendEmitsTheBitAndItsComplements and FlushTerminatesTheCode. -/
theorem witness_EmitPendEmitsTheBitAndItsComplements :
    PackerOk { Encoder.reset with acc := 0x7F, cnt := 7, pend := 9 } := by decide +kernel

theorem witness_InBitReadsMsbFirst :
    ([0x80] : List Byte)[7 / 8]? = some 0x80 ∧ ([0x80] : List Byte).length ≤ 8 / 8 := by decide +kernel

theorem witness_DbitDecidesByTheThreshold :
    legalProb numOne = true ∧ (nextOf (exec .dinit State.reset)).dec.mode = .active := by decide +kernel

/-- Shared by DbitDecidesByTheThreshold, DecodeBitShiftsTheCode and DecoderPassMirrorsTheEncoder. -/
theorem witness_DecoderPassMirrorsTheEncoder :
    Decoder.reset.low = Encoder.reset.low ∧ Decoder.reset.high = Encoder.reset.high ∧
    PackerOk Encoder.reset := by decide +kernel

theorem witness_DecbyteDecodesAByte :
    let s := nextOf (exec .dinit (loaded 1 [0x41]))
    s.model.configured = true ∧ s.model.hloaded = true ∧ s.model.dirty = false ∧
    s.dec.mode = .active ∧ s.model.nodesUsed.toNat + 8 * s.model.d.toNat ≤ s.params.nodeCap ∧
    0 < s.model.d.toNat := by decide +kernel

end Sys2Proof.Machine
end

/-! ### Finite magnitudes

A finite magnitude pattern is `k * 2 ^ 52 + q` and stands for `q * 2 ^ k` units: `q` is the significand, and
`k` the scale, 0 in the subnormal range and the lowest binade. -/
section
namespace Sys2Proof.Machine

/-- `q` is a significand that the scale `k` takes: at most 53 bits, or the power of two above them, and
normalised unless the scale is the least. -/
def IsSignificand (k q : Nat) : Prop := q ≤ 2 ^ 53 ∧ (k = 0 ∨ 2 ^ 52 ≤ q)

/-- The subnormal numbers and the lowest binade count units one by one. -/
theorem magUnits_of_le {mag : Nat} (h : mag ≤ 2 ^ 53) : magUnits mag = mag := by
  unfold magUnits
  split
  · omega
  · obtain hd | hd : mag / 2 ^ 52 = 1 ∨ mag / 2 ^ 52 = 2 := by omega
    all_goals rw [hd]; omega

/-- A pattern above the subnormal range, from its exponent and fraction fields. -/
theorem magUnits_normal {f : Nat} (k : Nat) (hf : f < 2 ^ 52) :
    magUnits ((k + 1) * 2 ^ 52 + f) = (2 ^ 52 + f) * 2 ^ k := by
  have hexp : ((k + 1) * 2 ^ 52 + f) / 2 ^ 52 = k + 1 := by omega
  have hfrac : ((k + 1) * 2 ^ 52 + f) % 2 ^ 52 = f := by omega
  simp only [magUnits, hexp, hfrac, Nat.add_one_ne_zero, if_false, Nat.add_sub_cancel]

theorem magUnits_scaled {k q : Nat} (h : IsSignificand k q) : magUnits (k * 2 ^ 52 + q) = q * 2 ^ k := by
  obtain ⟨hq, rfl | hlow⟩ := h
  · rw [Nat.zero_mul, Nat.zero_add, pow_zero, Nat.mul_one, magUnits_of_le hq]
  obtain rfl | hlt : q = 2 ^ 53 ∨ q < 2 ^ 53 := by omega
  · calc magUnits (k * 2 ^ 52 + 2 ^ 53)
        = magUnits ((k + 1 + 1) * 2 ^ 52 + 0) := congrArg magUnits (by omega)
      _ = 2 ^ 53 * 2 ^ k := by rw [magUnits_normal _ (by decide), pow_succ]; omega
  · obtain ⟨f, rfl⟩ := Nat.exists_eq_add_of_le hlow
    calc magUnits (k * 2 ^ 52 + (2 ^ 52 + f))
        = magUnits ((k + 1) * 2 ^ 52 + f) := congrArg magUnits (by omega)
      _ = (2 ^ 52 + f) * 2 ^ k := magUnits_normal k (by omega)

/-- Every pattern has a scale and a significand, with room for the next pattern at the same scale. -/
theorem exists_scaled (mag : Nat) : ∃ k q, mag = k * 2 ^ 52 + q ∧ q < 2 ^ 53 ∧ (k = 0 ∨ 2 ^ 52 ≤ q) := by
  by_cases h : mag < 2 ^ 52
  · exact ⟨0, mag, by omega, by omega, .inl rfl⟩
  · exact ⟨mag / 2 ^ 52 - 1, 2 ^ 52 + mag % 2 ^ 52, by omega, by omega, .inr (by omega)⟩

theorem magUnits_strictMono : StrictMono magUnits := by
  refine strictMono_nat_of_lt_succ fun mag => ?_
  obtain ⟨k, q, rfl, hq, hlow⟩ := exists_scaled mag
  rw [Nat.add_assoc, magUnits_scaled ⟨hq.le, hlow⟩,
    magUnits_scaled (q := q + 1) ⟨hq, hlow.imp id Nat.le_succ_of_le⟩]
  exact Nat.mul_lt_mul_of_pos_right (Nat.lt_succ_self q) (Nat.two_pow_pos k)

theorem magUnits_eq_zero_iff {mag : Nat} : magUnits mag = 0 ↔ mag = 0 :=
  magUnits_strictMono.injective.eq_iff' rfl

/-- At and above the least normalised pattern of a scale, every magnitude is a multiple of the scale's step. -/
theorem two_pow_dvd_magUnits {k mag : Nat} (h : k = 0 ∨ (k + 1) * 2 ^ 52 ≤ mag) : 2 ^ k ∣ magUnits mag := by
  obtain ⟨j, q, rfl, hq, hlow⟩ := exists_scaled mag
  rw [magUnits_scaled ⟨hq.le, hlow⟩]
  exact (pow_dvd_pow 2 (by omega)).mul_left q

/-! ### The one rounding -/

/-- The two ways a quotient is rounded, and what each says of the remainder. -/
theorem roundQuotient_cases (a d : Nat) :
    (roundQuotient a d = a / d ∧ 2 * (a % d) ≤ d ∧ (2 * (a % d) = d → a / d % 2 = 0)) ∨
    (roundQuotient a d = a / d + 1 ∧ d ≤ 2 * (a % d) ∧ (2 * (a % d) = d → a / d % 2 = 1)) := by
  unfold roundQuotient
  split
  · next h =>
    simp only [Bool.or_eq_true, decide_eq_true_eq, Bool.and_eq_true, beq_iff_eq] at h
    exact .inr ⟨rfl, by omega, by omega⟩
  · next h =>
    simp only [Bool.or_eq_true, decide_eq_true_eq, Bool.and_eq_true, beq_iff_eq] at h
    exact .inl ⟨rfl, by omega, by omega⟩

/-- `p` is at least as near to `a` as `u` is. -/
abbrev NearerOrEqual (a p u : Nat) : Prop := ((p : Int) - a).natAbs ≤ ((u : Int) - a).natAbs

/-- `p` and `u` are equally far from `a`. -/
abbrev EquallyNear (a p u : Nat) : Prop := ((p : Int) - a).natAbs = ((u : Int) - a).natAbs

/-- No multiple of `d` is nearer to `a` than the rounded quotient's, and another one equally near makes the
rounded quotient even. -/
theorem roundQuotient_nearest (a t : Nat) {d : Nat} (hd : 0 < d) :
    NearerOrEqual a (roundQuotient a d * d) (t * d) ∧
    (EquallyNear a (roundQuotient a d * d) (t * d) → t ≠ roundQuotient a d → roundQuotient a d % 2 = 0) := by
  have hdiv : a / d * d + a % d = a := Nat.div_add_mod' a d
  have hmod : a % d < d := Nat.mod_lt a hd
  have hside : (t < a / d ∧ t * d + d ≤ a / d * d) ∨ (t = a / d ∧ t * d = a / d * d) ∨
      (t = a / d + 1 ∧ t * d = a / d * d + d) ∨ (a / d + 1 < t ∧ a / d * d + 2 * d ≤ t * d) := by
    obtain h | h | h | h : t + 1 ≤ a / d ∨ t = a / d ∨ t = a / d + 1 ∨ a / d + 2 ≤ t := by omega
    · exact .inl ⟨h, by simpa only [Nat.add_mul, Nat.one_mul] using Nat.mul_le_mul_right d h⟩
    · exact .inr (.inl ⟨h, by rw [h]⟩)
    · exact .inr (.inr (.inl ⟨h, by rw [h, Nat.add_mul, Nat.one_mul]⟩))
    · exact .inr (.inr (.inr ⟨h, by simpa only [Nat.add_mul] using Nat.mul_le_mul_right d h⟩))
  obtain ⟨hr, hrem, htie⟩ | ⟨hr, hrem, htie⟩ := roundQuotient_cases a d
  · rw [hr]
    constructor <;> omega
  · rw [hr, Nat.add_mul, Nat.one_mul]
    constructor <;> omega

/-- The scale of a rounded result, chosen so that the quotient keeps 53 bits. -/
def roundScale (a b : Nat) : Nat := (a / b).log2 - 52

theorem roundUnits_eq (a b : Nat) :
    roundUnits a b = roundScale a b * 2 ^ 52 + roundQuotient a (b * 2 ^ roundScale a b) := rfl

/-- The chosen scale leaves a quotient of at most 53 bits, and of no fewer unless the scale is the least. -/
theorem div_roundScale_bounds (a b : Nat) :
    a / (b * 2 ^ roundScale a b) < 2 ^ 53 ∧
    (roundScale a b = 0 ∨ 2 ^ 52 ≤ a / (b * 2 ^ roundScale a b)) := by
  rw [← Nat.div_div_eq_div_mul]
  unfold roundScale
  generalize a / b = n
  constructor
  · rw [Nat.div_lt_iff_lt_mul (Nat.two_pow_pos _), ← pow_add]
    exact Nat.lt_log2_self.trans_le (Nat.pow_le_pow_right (by decide) (by omega))
  · refine or_iff_not_imp_left.mpr fun hk => ?_
    have hn : n ≠ 0 := by rintro rfl; exact hk (by decide)
    rw [Nat.le_div_iff_mul_le (Nat.two_pow_pos _), ← pow_add]
    exact (Nat.pow_le_pow_right (by decide) (by omega)).trans (Nat.log2_self_le hn)

theorem roundQuotient_isSignificand (a b : Nat) :
    IsSignificand (roundScale a b) (roundQuotient a (b * 2 ^ roundScale a b)) := by
  obtain ⟨hlt, hlow⟩ := div_roundScale_bounds a b
  obtain ⟨hr, -⟩ | ⟨hr, -⟩ := roundQuotient_cases a (b * 2 ^ roundScale a b)
  · exact ⟨by omega, by omega⟩
  · exact ⟨by omega, by omega⟩

theorem magUnits_roundUnits (a b : Nat) :
    magUnits (roundUnits a b) = roundQuotient a (b * 2 ^ roundScale a b) * 2 ^ roundScale a b := by
  rw [roundUnits_eq, magUnits_scaled (roundQuotient_isSignificand a b)]

/-- A pattern below the normalised range of the scale is farther away than the least normalised one, which
lies between it and `a / b`. -/
theorem magUnits_below_scale {a b x : Nat} (hb : 0 < b) (hscale : roundScale a b ≠ 0)
    (hx : x < (roundScale a b + 1) * 2 ^ 52) :
    magUnits x * b < 2 ^ 52 * (b * 2 ^ roundScale a b) ∧ 2 ^ 52 * (b * 2 ^ roundScale a b) ≤ a := by
  constructor
  · have hleast : magUnits ((roundScale a b + 1) * 2 ^ 52) = 2 ^ 52 * 2 ^ roundScale a b :=
      by simpa only [Nat.add_zero] using magUnits_normal (f := 0) (roundScale a b) (by decide)
    calc magUnits x * b < magUnits ((roundScale a b + 1) * 2 ^ 52) * b :=
          Nat.mul_lt_mul_of_pos_right (magUnits_strictMono hx) hb
      _ = 2 ^ 52 * (b * 2 ^ roundScale a b) := by rw [hleast, Nat.mul_assoc, Nat.mul_comm b]
  · have hpos : 0 < b * 2 ^ roundScale a b := Nat.mul_pos hb (Nat.two_pow_pos _)
    exact (Nat.le_div_iff_mul_le hpos).mp ((div_roundScale_bounds a b).2.resolve_left hscale)

/-- R8's rounding, also where the result overflows: a pattern is a multiple of the chosen scale's step, where
the rounded quotient is nearest, or it lies below the scale and is farther away. -/
theorem roundUnits_nearest (a x : Nat) {b : Nat} (hb : 0 < b) :
    NearerOrEqual a (magUnits (roundUnits a b) * b) (magUnits x * b) ∧
    (EquallyNear a (magUnits (roundUnits a b) * b) (magUnits x * b) → x ≠ roundUnits a b →
      roundUnits a b % 2 = 0) := by
  have hpos : 0 < b * 2 ^ roundScale a b := Nat.mul_pos hb (Nat.two_pow_pos _)
  have hval : magUnits (roundUnits a b) * b =
      roundQuotient a (b * 2 ^ roundScale a b) * (b * 2 ^ roundScale a b) := by
    rw [magUnits_roundUnits, Nat.mul_assoc, Nat.mul_comm b]
  by_cases hx : roundScale a b = 0 ∨ (roundScale a b + 1) * 2 ^ 52 ≤ x
  · obtain ⟨t, ht⟩ := two_pow_dvd_magUnits hx
    have hxval : magUnits x * b = t * (b * 2 ^ roundScale a b) := by rw [ht]; ring
    obtain ⟨hnear, htie⟩ := roundQuotient_nearest a t hpos
    rw [hval, hxval]
    refine ⟨hnear, fun heq hne => ?_⟩
    have ht : t ≠ roundQuotient a (b * 2 ^ roundScale a b) := by
      rintro rfl
      exact hne (magUnits_strictMono.injective (by rw [ht, magUnits_roundUnits, Nat.mul_comm]))
    have heven := htie heq ht
    rw [roundUnits_eq]
    omega
  · obtain ⟨hbelow, hle⟩ := magUnits_below_scale (a := a) (x := x) hb (by omega) (by omega)
    obtain ⟨hnear, -⟩ := roundQuotient_nearest a (2 ^ 52) hpos
    rw [hval]
    constructor <;> omega

/-- What a pattern already stands for is not changed by the rounding. -/
theorem roundUnits_magUnits (mag : Nat) : roundUnits (magUnits mag) 1 = mag := by
  obtain ⟨hnear, -⟩ := roundUnits_nearest (magUnits mag) mag Nat.one_pos
  exact magUnits_strictMono.injective (by omega)

/-! ### Patterns and their values -/

theorem numSign_eq (x : F64) : numSign x = decide (2 ^ 63 ≤ x.toNat) := BitVec.msb_eq_decide x

theorem packNum_toNat (neg : Bool) {mag : Nat} (h : mag < 2 ^ 63) :
    (packNum neg mag).toNat = (if neg then 2 ^ 63 else 0) + mag := by
  rw [packNum, BitVec.toNat_ofNat, Nat.mod_eq_of_lt]
  split <;> omega

theorem numMag_packNum (neg : Bool) {mag : Nat} (h : mag < 2 ^ 63) : numMag (packNum neg mag) = mag := by
  rw [numMag, packNum_toNat neg h]
  split <;> omega

theorem numSign_packNum (neg : Bool) {mag : Nat} (h : mag < 2 ^ 63) : numSign (packNum neg mag) = neg := by
  rw [numSign_eq, packNum_toNat neg h]
  cases neg with
  | true => exact decide_eq_true (Nat.le_add_right _ _)
  | false => exact decide_eq_false (by simpa using h)

theorem numIsNaN_iff (x : F64) : numIsNaN x = true ↔ infMag < numMag x := decide_eq_true_iff

theorem numIsNaN_eq_false_iff (x : F64) : numIsNaN x = false ↔ numMag x ≤ infMag := by
  rw [← Bool.not_eq_true, numIsNaN_iff, not_lt]

theorem numIsNaN_of_finite {x : F64} (h : numMag x < infMag) : numIsNaN x = false :=
  (numIsNaN_eq_false_iff x).mpr h.le

theorem numIsInf_of_finite {x : F64} (h : numMag x < infMag) : numIsInf x = false :=
  decide_eq_false h.ne

end Sys2Proof.Machine
end

/-! ### The order of the values, and exact integers -/
section
namespace Sys2Proof.Machine

/-- A finite value in units from its comparison key. -/
def keyUnits (z : Int) : Int := z.sign * magUnits z.natAbs

theorem keyUnits_natCast (n : Nat) : keyUnits n = magUnits n := by
  obtain rfl | hn := Nat.eq_zero_or_pos n
  · rfl
  · rw [keyUnits, Int.sign_eq_one_of_pos (by omega), one_mul, Int.natAbs_natCast]

theorem keyUnits_neg (z : Int) : keyUnits (-z) = -keyUnits z := by
  rw [keyUnits, keyUnits, Int.sign_neg, Int.natAbs_neg, neg_mul]

theorem numSigned_eq_keyUnits (x : F64) : numSigned x = keyUnits (numKey x) := by
  unfold numSigned numKey numUnits
  split
  · rw [keyUnits_neg, keyUnits_natCast]
  · rw [keyUnits_natCast]

/-- The keys order the patterns as the values: each side of zero rises with the magnitude. -/
theorem keyUnits_strictMono : StrictMono keyUnits := by
  intro y z hyz
  obtain ⟨m, rfl | rfl⟩ := Int.eq_nat_or_neg y <;> obtain ⟨n, rfl | rfl⟩ := Int.eq_nat_or_neg z
  · have h := magUnits_strictMono (show m < n by omega)
    rw [keyUnits_natCast, keyUnits_natCast]
    omega
  · omega
  · rw [keyUnits_neg, keyUnits_natCast, keyUnits_natCast]
    obtain hm | hn : 0 < m ∨ 0 < n := by omega
    · have h := magUnits_strictMono hm
      omega
    · have h := magUnits_strictMono hn
      omega
  · have h := magUnits_strictMono (show n < m by omega)
    rw [keyUnits_neg, keyUnits_neg, keyUnits_natCast, keyUnits_natCast]
    omega

theorem numSigned_lt_iff (x y : F64) : numSigned x < numSigned y ↔ numKey x < numKey y := by
  rw [numSigned_eq_keyUnits, numSigned_eq_keyUnits, keyUnits_strictMono.lt_iff_lt]

theorem numSigned_le_iff (x y : F64) : numSigned x ≤ numSigned y ↔ numKey x ≤ numKey y := by
  rw [numSigned_eq_keyUnits, numSigned_eq_keyUnits, keyUnits_strictMono.le_iff_le]

theorem numSigned_numOne : numSigned numOne = unitsPerOne := by decide +kernel

theorem numLt_of_not_nan {x y : F64} (hx : numIsNaN x = false) (hy : numIsNaN y = false) :
    numLt x y = decide (numKey x < numKey y) := by
  simp only [numLt, hx, hy, Bool.not_false, Bool.true_and]

theorem numLe_of_not_nan {x y : F64} (hx : numIsNaN x = false) (hy : numIsNaN y = false) :
    numLe x y = decide (numKey x ≤ numKey y) := by
  simp only [numLe, hx, hy, Bool.not_false, Bool.true_and]

theorem numLt_nan {x y : F64} (h : numIsNaN x = true ∨ numIsNaN y = true) : numLt x y = false := by
  obtain h | h := h <;> simp only [numLt, h, Bool.not_true, Bool.false_and, Bool.and_false]

theorem numLe_nan {x y : F64} (h : numIsNaN x = true ∨ numIsNaN y = true) : numLe x y = false := by
  obtain h | h := h <;> simp only [numLe, h, Bool.not_true, Bool.false_and, Bool.and_false]

theorem numLt_of_finite {x y : F64} (hx : numMag x < infMag) (hy : numMag y < infMag) :
    numLt x y = decide (numSigned x < numSigned y) := by
  rw [numLt_of_not_nan (numIsNaN_of_finite hx) (numIsNaN_of_finite hy)]
  exact decide_eq_decide.mpr (numSigned_lt_iff x y).symm

theorem numLe_of_finite {x y : F64} (hx : numMag x < infMag) (hy : numMag y < infMag) :
    numLe x y = decide (numSigned x ≤ numSigned y) := by
  rw [numLe_of_not_nan (numIsNaN_of_finite hx) (numIsNaN_of_finite hy)]
  exact decide_eq_decide.mpr (numSigned_le_iff x y).symm

theorem natAbs_numKey (x : F64) : (numKey x).natAbs = numMag x := by
  unfold numKey
  split <;> omega

theorem numKey_numInf (neg : Bool) : numKey (numInf neg) = if neg then -(infMag : Int) else infMag := by
  cases neg <;> decide +kernel

theorem numIsNaN_numInf (neg : Bool) : numIsNaN (numInf neg) = false := by
  cases neg <;> decide +kernel

/-- Apart from the zeros, a key has one pattern. -/
theorem numKey_inj {x y : F64} (hy : numKey y ≠ 0) : numKey x = numKey y ↔ x = y := by
  refine ⟨fun h => BitVec.eq_of_toNat_eq ?_, congrArg numKey⟩
  have hx64 := x.isLt
  have hy64 := y.isLt
  simp only [numKey, numMag, numSign_eq, decide_eq_true_eq] at h hy
  split at h <;> split at h <;> omega

theorem infMag_pos : 0 < infMag := by decide

/-- The infinities lie beyond every value, and only they do. -/
theorem compare_numInf {x : F64} (hx : numIsNaN x = false) :
    numLe x (numInf false) = true ∧ numLe (numInf true) x = true ∧
    numLt x (numInf false) = decide (x ≠ numInf false) ∧
    numLt (numInf true) x = decide (x ≠ numInf true) := by
  have hmag := (numIsNaN_eq_false_iff x).mp hx
  have hkey := natAbs_numKey x
  have hpos := infMag_pos
  have htop : numKey (numInf false) = infMag := numKey_numInf false
  have hbot : numKey (numInf true) = -infMag := numKey_numInf true
  have htop' := numKey_inj (x := x) (y := numInf false) (by omega)
  have hbot' := numKey_inj (x := x) (y := numInf true) (by omega)
  rw [numLe_of_not_nan hx (numIsNaN_numInf _), numLe_of_not_nan (numIsNaN_numInf _) hx,
    numLt_of_not_nan hx (numIsNaN_numInf _), numLt_of_not_nan (numIsNaN_numInf _) hx,
    decide_eq_true_iff, decide_eq_true_iff, decide_eq_decide, decide_eq_decide, ne_eq, ne_eq,
    ← htop', ← hbot', htop, hbot]
  exact ⟨by omega, by omega, by omega, by omega⟩

/-- R71: the fields of a NaN. -/
theorem numIsNaN_iff_fields (x : F64) :
    numIsNaN x = true ↔ x.extractLsb' 52 11 = 0x7FF#11 ∧ x.extractLsb' 0 52 ≠ 0#52 := by
  have hexp : (x.extractLsb' 52 11).toNat = x.toNat / 2 ^ 52 % 2 ^ 11 := by
    rw [BitVec.extractLsb'_toNat, Nat.shiftRight_eq_div_pow]
  have hfrac : (x.extractLsb' 0 52).toNat = x.toNat % 2 ^ 52 := BitVec.extractLsb'_toNat ..
  rw [numIsNaN_iff, ne_eq, ← BitVec.toNat_inj, ← BitVec.toNat_inj, hexp, hfrac, numMag, infMag,
    BitVec.toNat_ofNat, BitVec.toNat_ofNat]
  omega

theorem numLt_eq_not_numLe {x y : F64} (hx : numIsNaN x = false) (hy : numIsNaN y = false) :
    numLt x y = !numLe y x := by
  rw [numLt_of_not_nan hx hy, numLe_of_not_nan hy hx, ← decide_not]
  exact decide_eq_decide.mpr not_le.symm

theorem legalProb_iff_key (x : F64) :
    legalProb x = true ↔ numIsNaN x = false ∧ 0 ≤ numKey x ∧ numKey x ≤ numKey numOne := by
  cases hx : numIsNaN x with
  | true =>
    rw [legalProb, numLe_nan (.inr hx), Bool.false_and]
    exact iff_of_false Bool.false_ne_true fun h => Bool.false_ne_true h.1.symm
  | false =>
    rw [legalProb, Bool.and_eq_true, numLe_of_not_nan (by decide) hx, numLe_of_not_nan hx (by decide),
      decide_eq_true_iff, decide_eq_true_iff]
    exact (and_iff_right rfl).symm

/-- R87: between the keys of 0.0 and 1.0 every pattern is finite, and there the keys order the values. -/
theorem legalProb_iff (x : F64) :
    legalProb x = true ↔ numMag x < infMag ∧ 0 ≤ numSigned x ∧ numSigned x ≤ unitsPerOne := by
  have hlow : 0 ≤ numSigned x ↔ 0 ≤ numKey x := numSigned_le_iff 0#64 x
  have hhigh : numSigned x ≤ unitsPerOne ↔ numKey x ≤ numKey numOne :=
    numSigned_numOne ▸ numSigned_le_iff x numOne
  have hkey := natAbs_numKey x
  have hone : numKey numOne < infMag := by decide
  rw [legalProb_iff_key, hlow, hhigh, numIsNaN_eq_false_iff]
  constructor
  · rintro ⟨-, hge, hle⟩
    exact ⟨by omega, hge, hle⟩
  · rintro ⟨hx, hge, hle⟩
    exact ⟨hx.le, hge, hle⟩

/-- R87: the check of EBIT and DBIT. -/
theorem probIllegal_eq_not_legalProb (x : F64) : probIllegal x = !legalProb x := by
  cases hx : numIsNaN x with
  | true =>
    rw [probIllegal, legalProb, hx, numLe_nan (.inr hx), Bool.true_or, Bool.true_or, Bool.false_and,
      Bool.not_false]
  | false =>
    rw [probIllegal, legalProb, hx, numLt_eq_not_numLe hx (by decide), numLt_eq_not_numLe (by decide) hx,
      Bool.false_or, Bool.not_and]

/-! ### Operations on finite operands -/

theorem numAdd_of_finite {x y : F64} (hx : numMag x < infMag) (hy : numMag y < infMag)
    (h : numSigned x + numSigned y ≠ 0) :
    numAdd x y =
      numRound (decide (numSigned x + numSigned y < 0)) (numSigned x + numSigned y).natAbs 1 := by
  simp only [numAdd, numIsNaN_of_finite, numIsInf_of_finite, hx, hy, h, Bool.or_self, Bool.false_eq_true,
    if_false]

theorem numMul_of_finite {x y : F64} (hx : numMag x < infMag) (hy : numMag y < infMag) :
    numMul x y = numRound (numSign x != numSign y) (numUnits x * numUnits y) unitsPerOne := by
  simp only [numMul, numIsNaN_of_finite, numIsInf_of_finite, hx, hy, Bool.or_self, Bool.false_eq_true,
    if_false]

theorem numDiv_of_finite {x y : F64} (hx : numMag x < infMag) (hy : numMag y < infMag)
    (h : numUnits y ≠ 0) :
    numDiv x y = numRound (numSign x != numSign y) (numUnits x * unitsPerOne) (numUnits y) := by
  have hmag : numMag y ≠ 0 := mt magUnits_eq_zero_iff.mpr h
  simp only [numDiv, numIsNaN_of_finite, numIsInf_of_finite, hx, hy, hmag, Bool.or_self, Bool.false_eq_true,
    if_false]

/-- Every integer below 2^53 has a finite pattern: its bits, shifted to the top of the significand. -/
theorem exists_magUnits_eq_ofNat {n : Nat} (hn : n < 2 ^ 53) :
    ∃ mag < infMag, magUnits mag = n * unitsPerOne := by
  obtain rfl | hpos := Nat.eq_zero_or_pos n
  · exact ⟨0, infMag_pos, by rw [Nat.zero_mul]; rfl⟩
  have hlog : n.log2 ≤ 52 := Nat.lt_succ_iff.mp ((Nat.log2_lt hpos.ne').mpr hn)
  have hlow : 2 ^ 52 ≤ n * 2 ^ (52 - n.log2) :=
    calc 2 ^ 52 = 2 ^ n.log2 * 2 ^ (52 - n.log2) := by rw [← pow_add, Nat.add_sub_cancel' hlog]
      _ ≤ n * 2 ^ (52 - n.log2) := Nat.mul_le_mul_right _ (Nat.log2_self_le hpos.ne')
  have hhigh : n * 2 ^ (52 - n.log2) < 2 ^ 53 :=
    calc n * 2 ^ (52 - n.log2) < 2 ^ (n.log2 + 1) * 2 ^ (52 - n.log2) :=
          Nat.mul_lt_mul_of_pos_right Nat.lt_log2_self (Nat.two_pow_pos _)
      _ = 2 ^ 53 := by rw [← pow_add]; congr 1; omega
  refine ⟨(1022 + n.log2) * 2 ^ 52 + n * 2 ^ (52 - n.log2), ?_, ?_⟩
  · rw [infMag]
    omega
  · rw [magUnits_scaled ⟨hhigh.le, .inr hlow⟩, Nat.mul_assoc, ← pow_add, unitsPerOne]
    congr 2
    omega

theorem infMag_lt : infMag < 2 ^ 63 := by decide

/-- R8: the conversion of an integer below 2^53 is exact, since its pattern is the one nearest to it. -/
theorem numOfNat_exact {n : Nat} (hn : n < 2 ^ 53) :
    numMag (numOfNat n) < infMag ∧ numSigned (numOfNat n) = n * unitsPerOne := by
  obtain ⟨mag, hfinite, hunits⟩ := exists_magUnits_eq_ofNat hn
  have hpat : numOfNat n = packNum false mag := by
    rw [numOfNat, numRound, ← hunits, roundUnits_magUnits, Nat.min_eq_left hfinite.le]
  have hlt : mag < 2 ^ 63 := hfinite.trans infMag_lt
  rw [hpat, numSigned, numUnits, numMag_packNum _ hlt, numSign_packNum _ hlt, hunits]
  exact ⟨hfinite, Nat.cast_mul ..⟩

/-! ### The obligations of 00_scope.md -/

/-- Settles O18: at the chosen scale the result is a rounded quotient, which no multiple of the scale's step
beats, and the patterns below that scale are farther away. -/
theorem roundingIsToNearestEven : Obligations.RoundingIsToNearestEven := by
  intro a b hb _ x _
  simpa only [NearerOrEqual, EquallyNear, Nat.cast_mul] using roundUnits_nearest a x hb

/-- Settles O19: each operation's branch for finite operands, and exact integers by the rounding's leaving
every pattern's value as it is. -/
theorem finiteOperationsRoundTheExactResultOnce :
    Obligations.FiniteOperationsRoundTheExactResultOnce := fun _ _ hx hy =>
  ⟨numAdd_of_finite hx hy, numMul_of_finite hx hy, numDiv_of_finite hx hy, fun _ hn => numOfNat_exact hn⟩

/-- Settles O57: the comparison keys order the patterns as their values. -/
theorem comparisonsOrderTheValues : Obligations.ComparisonsOrderTheValues :=
  ⟨numIsNaN_iff_fields, fun _ _ h => ⟨numLt_nan h, numLe_nan h⟩,
    fun _ _ hx hy => ⟨numLt_of_finite hx hy, numLe_of_finite hx hy⟩, fun _ hx => compare_numInf hx,
    fun x => ⟨legalProb_iff x, probIllegal_eq_not_legalProb x⟩, by decide, numSigned_numOne⟩

end Sys2Proof.Machine
end

/-! ### Reset and launch -/
section
namespace Sys2Proof.Machine

/-- R270, R273: RESET is a launch that keeps the host's streams and the parameters. -/
theorem applyReset_eq_launch (s : State) : applyReset s = launch s.params s.cmd s.inp := rfl

theorem reset_eq_launch : State.reset = launch Config.defaultParams [] [] := rfl

theorem reset_tree (n : Fin 255) : Model.reset.trees[n] = [] := Vector.getElem_replicate n.isLt

theorem reset_scratch (k : Fin 8) : Model.reset.scr[k] = Scratch.reset := Vector.getElem_replicate k.isLt

/-- STATUS shows none of the fields in which one launch differs from another. -/
theorem statusWord_launch (p : Params) (cmd inp : List Byte) : statusWord (launch p cmd inp) = 0x00000000#32 :=
  calc statusWord (launch p cmd inp) = statusWord State.reset := rfl
    _ = 0x00000000#32 := by decide

/-! ### The fields of STATUS -/

/-- The fields of one bit each, at the low end of STATUS (R27). -/
theorem statusWord_bits (s : State) :
    (statusWord s).getLsbD 0 = s.fault ∧ (statusWord s).getLsbD 1 = s.model.configured ∧
    (statusWord s).getLsbD 2 = s.model.hloaded ∧ (statusWord s).getLsbD 3 = s.model.dirty ∧
    (statusWord s).getLsbD 4 = decide (s.enc.mode = .flushed) ∧
    (statusWord s).getLsbD 5 = decide (s.dec.mode = .active) := by
  simp only [statusWord, BitVec.getLsbD_append]
  simp

/-- The wider fields and the reserved bits (R27): each is the lowest field once those below it are dropped. -/
theorem statusWord_fields (s : State) :
    (statusWord s).extractLsb' 6 2 = 0 ∧ (statusWord s).extractLsb' 8 4 = s.model.d ∧
    (statusWord s).extractLsb' 12 4 = 0 ∧ (statusWord s).extractLsb' 16 8 = s.fcode ∧
    (statusWord s).extractLsb' 24 8 = 0 := by
  simp (disch := decide) only [statusWord, BitVec.extractLsb'_append_eq_of_le]
  exact ⟨BitVec.extractLsb'_append_eq_right, BitVec.extractLsb'_append_eq_right,
    BitVec.extractLsb'_append_eq_right, BitVec.extractLsb'_append_eq_right, BitVec.extractLsb'_eq_self⟩

/-! ### The heap numbering of the decomposition tree -/

/-- A child's number is one bit longer than its parent's, so the child decides the next lower bit (R37). -/
theorem levelOf_child {n c : Nat} (hpos : 1 ≤ n) (hn : n ≤ 127) (hc : c / 2 = n) :
    (levelOf c).val + 1 = (levelOf n).val := by
  have hlog : c.log2 = n.log2 + 1 := by rw [Nat.log2_def, if_pos (by omega), hc]
  have hlt : n.log2 < 7 := (Nat.log2_lt (by omega)).mpr (by omega)
  simp only [levelOf]
  omega

/-- The marker 0x100 of R37 stands above the byte and changes none of its bits. -/
theorem testBit_marked (b : Byte) {i : Nat} (hi : i < 8) : (0x100 ||| b.toNat).testBit i = b.getLsbD i := by
  have hmark : Nat.testBit 0x100 i = false := Nat.testBit_two_pow_of_ne (by omega : 8 ≠ i)
  rw [Nat.testBit_or, hmark, Bool.false_or, BitVec.testBit_toNat]

/-- Bit 7 is decided by the root: of `0x100 | b` only the marker is left. -/
theorem nodeFor_root (b : Byte) : nodeFor b 7 = 1 := by
  have hbyte : b.toNat >>> 8 = 0 := by rw [Nat.shiftRight_eq_div_pow, Nat.div_eq_of_lt b.isLt]
  rw [nodeFor, Nat.shiftRight_or_distrib, hbyte]
  rfl

/-- The node of a level is the child of the node above, on the side of the bit that node decides (R37). -/
theorem nodeFor_eq_child (b : Byte) {k : Nat} (hk : k < 7) :
    nodeFor b k = 2 * nodeFor b (k + 1) + (b.getLsbD (k + 1)).toNat := by
  have hbit := Nat.toNat_testBit (0x100 ||| b.toNat) (k + 1)
  rw [testBit_marked b (by omega), ← Nat.shiftRight_eq_div_pow] at hbit
  simp only [nodeFor, Nat.shiftRight_succ _ (k + 1)]
  omega

/-! ### A beta that an update lifts past BETA_MAX

The commands of vector CT-SAT up to the CTUPD of its second step, run from a launch. -/

/-- The outcome is a next state that meets `P`. -/
def nextMeets (P : State → Prop) [DecidablePred P] : Host.Outcome State Fault Refusal → Bool
  | .next s => decide (P s)
  | .fault _ => false
  | .refused _ => false

theorem exists_of_nextMeets {P : State → Prop} [DecidablePred P] {o : Host.Outcome State Fault Refusal}
    (h : nextMeets P o = true) : ∃ s, o = .next s ∧ P s := by
  cases o with
  | next s => exact ⟨s, rfl, of_decide_eq_true h⟩
  | fault r => cases h
  | refused r => cases h

/-- CT-SAT's parameters: BETA_MAX = 1.5 and SAT_POLICY = reset. -/
def lowCeiling : Params := { Config.defaultParams with betaMax := 0x3FF8000000000000#64, satPolicy := .reset }

/-- CT-SAT: the first step, and the second step's LOADHIST. -/
def ctSatCommands : List Byte :=
  [Instr.init 2, .loadhist [1, 0x10], .ctupd 1 0, .loadhist [2, 0x10]].flatMap encode

/-- The node (0x10) after CT-SAT's second step, with beta 1.888... -/
def liftedNode : CtNode := { counts := { n0 := 2, n1 := 0 }, beta := 0x3FFE38E38E38E38E#64 }

/-- R31's premises hold of TREE[1], and an update of it with bit 0 leaves `liftedNode` there. -/
abbrev UpdateLiftsABeta (m : Model) : Prop :=
  (∀ e ∈ treeOf m 1, CountsOk e.2.counts ∧ numLe 0#64 e.2.beta = true ∧
    numLt e.2.beta lowCeiling.betaMax = true) ∧
  ([0x10], liftedNode) ∈ treeOf (ctUpdate lowCeiling 1 false 7 m).2 1

/-- The state before the update is one that a run reaches. -/
theorem ctSat_run_then_update_lifts_beta :
    ∃ s, Host.Core.run core 4 (launch lowCeiling ctSatCommands []) = .next s ∧ UpdateLiftsABeta s.model :=
  exists_of_nextMeets (by decide +kernel)

theorem lowCeiling_paramsOk : ParamsOk lowCeiling := by decide +kernel

theorem liftedNode_not_below_lowCeiling : numLt liftedNode.beta lowCeiling.betaMax = false := by decide +kernel

/-! ### The obligations of 10_state.md -/

/-- Refutes O29: in the state CT-SAT reaches, every beta of TREE[1] is 1.0 and below BETA_MAX = 1.5, and the
update with bit 0 writes 1.888... = 0.9444... / 0.5 by R126, which R124 caps only at the next update. -/
theorem not_betasStayBelowBetaMax : ¬ Obligations.BetasStayBelowBetaMax := by
  intro h
  obtain ⟨s, -, hbefore, hlifted⟩ := ctSat_run_then_update_lifts_beta
  have hbelow : numLt liftedNode.beta lowCeiling.betaMax = true :=
    h lowCeiling 1 false 7 s.model lowCeiling_paramsOk rfl hbefore _ hlifted
  exact absurd hbelow (Bool.eq_false_iff.mp liftedNode_not_below_lowCeiling)

/-- Settles O11: both states are launches, and a launch has the reset values. -/
theorem resetGivesTheResetValues : Obligations.ResetGivesTheResetValues := by
  intro s t ht
  obtain ⟨p, cmd, inp, rfl⟩ : ∃ p cmd inp, t = launch p cmd inp := by
    obtain rfl | rfl : t = State.reset ∨ t = applyReset s := by simpa using ht
    · exact ⟨_, _, _, reset_eq_launch⟩
    · exact ⟨_, _, _, applyReset_eq_launch s⟩
  exact ⟨rfl, rfl, rfl, rfl, rfl, reset_tree, rfl, rfl, rfl,
    fun k => congrArg Scratch.valid (reset_scratch k), rfl, rfl, rfl, rfl, rfl, rfl, rfl, rfl, rfl, rfl, rfl,
    rfl, rfl, statusWord_launch p cmd inp⟩

/-- Settles O15: the bits and the wider fields of STATUS. -/
theorem statusShowsItsFields : Obligations.StatusShowsItsFields := fun s =>
  have ⟨hfault, hconfigured, hloaded, hdirty, hflushed, hactive⟩ := statusWord_bits s
  ⟨hfault, hconfigured, hloaded, hdirty, hflushed, hactive, statusWord_fields s⟩

/-- Settles O32: the levels by the length of a node's number, the nodes by halving `0x100 | b`. -/
theorem nodeNumbering : Obligations.NodeNumbering :=
  ⟨by decide,
    fun _ hpos hn => ⟨levelOf_child hpos hn (by omega), levelOf_child hpos hn (by omega)⟩,
    fun b => ⟨nodeFor_root b, fun _ hk => nodeFor_eq_child b hk⟩⟩

end Sys2Proof.Machine
end

/-! ### Big-endian fields -/
section
namespace Sys2Proof.Machine

@[simp] theorem beBytes_length (n v : Nat) : (beBytes n v).length = n := by
  induction n with
  | zero => rfl
  | succ n ih => simp [beBytes, ih]

/-- Reading on from the value `a` of the bytes before: each byte read shifts `a` up by eight bits. -/
theorem foldl_byte_eq_add_beValue (bytes : List Byte) (a : Nat) :
    bytes.foldl (fun v b => 256 * v + b.toNat) a = a * 2 ^ (8 * bytes.length) + beValue bytes := by
  induction bytes generalizing a with
  | nil => simp [beValue]
  | cons b bs ih =>
    have hpow : 2 ^ (8 * (bs.length + 1)) = 256 * 2 ^ (8 * bs.length) := by ring
    rw [beValue, List.foldl_cons, List.foldl_cons, ih, ih, List.length_cons, hpow]
    ring

theorem beValue_cons (b : Byte) (bs : List Byte) :
    beValue (b :: bs) = b.toNat * 2 ^ (8 * bs.length) + beValue bs := by
  simpa [beValue] using foldl_byte_eq_add_beValue bs b.toNat

/-- The digit at weight `2 ^ (8 * n)`, and below it the remainder that the other bytes hold. -/
theorem beValue_beBytes (n v : Nat) : beValue (beBytes n v) = v % 2 ^ (8 * n) := by
  induction n with
  | zero => simp [beBytes, beValue, Nat.mod_one]
  | succ n ih =>
    calc beValue (beBytes (n + 1) v)
        = v / 2 ^ (8 * n) % 2 ^ 8 * 2 ^ (8 * n) + v % 2 ^ (8 * n) := by
          rw [beBytes, beValue_cons, beBytes_length, ih, BitVec.toNat_ofNat]
      _ = v % 2 ^ (8 * (n + 1)) := by
          rw [Nat.mul_add_one, Nat.pow_add, Nat.mod_mul]
          ring

/-! ### NUM fields -/

theorem numByte_eq_ofNat (x : F64) (j : Nat) :
    numByte x j = BitVec.ofNat 8 (x.toNat / 2 ^ (8 * (7 - j))) := by
  apply BitVec.eq_of_toNat_eq
  simp [numByte, Nat.shiftRight_eq_div_pow]

/-- A NUM field is the 8-byte big-endian form of its pattern (R71). -/
theorem numBytes_eq_beBytes (x : F64) : numBytes x = beBytes 8 x.toNat := by
  simp [numBytes, beBytes, List.range_succ, numByte_eq_ofNat]

theorem beValue_numBytes (x : F64) : beValue (numBytes x) = x.toNat := by
  rw [numBytes_eq_beBytes, beValue_beBytes, Nat.mod_eq_of_lt x.isLt]

theorem toNat_append_byte {w : Nat} (x : BitVec w) (b : Byte) :
    (x ++ b).toNat = 256 * x.toNat + b.toNat := by
  rw [BitVec.toNat_append, ← Nat.shiftLeft_add_eq_or_of_lt b.isLt, Nat.shiftLeft_eq, Nat.mul_comm]

theorem numOfBytes_toNat (b0 b1 b2 b3 b4 b5 b6 b7 : Byte) :
    (numOfBytes b0 b1 b2 b3 b4 b5 b6 b7).toNat = beValue [b0, b1, b2, b3, b4, b5, b6, b7] := by
  simp [numOfBytes, beValue, toNat_append_byte]

theorem takeNum_numBytes_append (x : F64) (rest : List Byte) :
    takeNum (numBytes x ++ rest) = some (x, rest) := by
  have hread : numOfBytes (numByte x 0) (numByte x 1) (numByte x 2) (numByte x 3) (numByte x 4)
      (numByte x 5) (numByte x 6) (numByte x 7) = x :=
    BitVec.eq_of_toNat_eq ((numOfBytes_toNat ..).trans (beValue_numBytes x))
  exact congrArg (fun y => some (y, rest)) hread

/-! ### The bits of IN -/

theorem inBitAt_of_getElem? {inp : List Byte} {i : Nat} {b : Byte} (hb : inp[i / 8]? = some b) :
    inBitAt inp i = b.getLsbD (7 - i % 8) := by
  simp [inBitAt, hb]

theorem inBitAt_past_end {inp : List Byte} {i : Nat} (hend : inp.length ≤ i / 8) :
    inBitAt inp i = false := by
  simp [inBitAt, List.getElem?_eq_none hend]

/-! ### The obligations of 20_memory.md -/

/-- Settles O16: the value of a field by induction on its length; a NUM field is a field of 8 bytes, and
the pattern read back has the value of those bytes. -/
theorem resultFieldsAreBigEndian : Obligations.ResultFieldsAreBigEndian :=
  ⟨fun n v => ⟨beBytes_length n v, beValue_beBytes n v⟩,
    fun x rest => ⟨numBytes_length x, beValue_numBytes x, takeNum_numBytes_append x rest⟩⟩

/-- Settles O49: INPOS lies inside IN or past its end. -/
theorem inBitReadsMsbFirst : Obligations.InBitReadsMsbFirst :=
  fun _ _ => ⟨rfl, fun _ => inBitAt_of_getElem?, inBitAt_past_end⟩

end Sys2Proof.Machine
end

/-! ### Opcode bytes -/
section
namespace Sys2Proof.Machine

/-- A byte that is read as an opcode is the byte of that opcode (R84). -/
theorem opcodeByte_of_opcodeOf {b : Byte} {o : Opcode} (h : opcodeOf b = some o) : opcodeByte o = b :=
  beq_iff_eq.mp (List.find?_some (p := fun o => opcodeByte o == b) h)

theorem opcodeOf_eq_none {b : Byte} (h : ∀ o, opcodeByte o ≠ b) : opcodeOf b = none :=
  Option.eq_none_iff_forall_ne_some.mpr fun o ho => h o (opcodeByte_of_opcodeOf ho)

/-- R82: the opcode check comes first, whatever follows the byte. -/
theorem decodeCommand_of_no_opcode {op : Byte} (h : opcodeOf op = none) (t : List Byte) :
    decodeCommand (op :: t) = .illegalOpcode op := by
  simp [decodeCommand, h]

theorem decodeCommand_of_opcode (o : Opcode) (t : List Byte) :
    decodeCommand (opcodeByte o :: t) = decodeOperands o t := by
  simp [decodeCommand, opcodeOf_opcodeByte]

/-! ### Operand fields -/

/-- The length byte of LOADHIST counts the seed bytes without loss below 256 (R81). -/
theorem takeSeed_append {seed : List Byte} (h : seed.length < 256) (rest : List Byte) :
    takeSeed (BitVec.ofNat 8 seed.length :: (seed ++ rest)) = some (seed, rest) := by
  have hlen : (BitVec.ofNat 8 seed.length).toNat = seed.length := Nat.mod_eq_of_lt h
  simp [takeSeed, hlen]

theorem decodeFR_numBytes_append (mk : F64 → Instr) (x : F64) (rest : List Byte) :
    decodeFR mk (numBytes x ++ rest) = .command (mk x) rest := by
  rw [decodeFR, takeNum_numBytes_append]

theorem decodeFH_append (mk : List Byte → Instr) {seed : List Byte} (h : seed.length < 256)
    (rest : List Byte) :
    decodeFH mk (BitVec.ofNat 8 seed.length :: (seed ++ rest)) = .command (mk seed) rest := by
  rw [decodeFH, takeSeed_append h]

/-- The operand fields are read back command by command: those of single bytes as they stand, a NUM field and
LOADHIST's seed by the rule of their format. -/
theorem decodeOperands_encodeOperands_append {i : Instr} (hwf : i.wellFormed = true) (rest : List Byte) :
    decodeOperands (instrOpcode i) (encodeOperands i ++ rest) = .command i rest := by
  cases i with
  | decode x => exact decodeFR_numBytes_append .decode x rest
  | dbit p0 => exact decodeFR_numBytes_append .dbit p0 rest
  | ebit bit p0 => exact decodeFR_numBytes_append (.ebit bit) p0 rest
  | loadhist seed => exact decodeFH_append .loadhist (of_decide_eq_true hwf) rest
  | _ => rfl

theorem decodeCommand_encode_append {i : Instr} (hwf : i.wellFormed = true) (rest : List Byte) :
    decodeCommand (encode i ++ rest) = .command i rest :=
  (decodeCommand_of_opcode (instrOpcode i) _).trans (decodeOperands_encodeOperands_append hwf rest)

/-! ### A step by what the decoder says -/

theorem step_of_illegalOpcode {s : State} {op : Byte} (hfault : s.fault = false)
    (hdecode : decodeCommand (s.cmd.drop s.cp) = .illegalOpcode op) : step s = .next (faulted 0x01 s) := by
  rw [step, fetchBytes, hfault, hdecode]
  rfl

theorem step_of_command {s : State} {i : Instr} {rest : List Byte} (hfault : s.fault = false)
    (hdecode : decodeCommand (s.cmd.drop s.cp) = .command i rest) : step s = exec i s := by
  rw [step, fetchBytes, hfault, hdecode]
  rfl

/-! ### The obligations of 30_encoding.md -/

/-- Settles O4: none of the 19 opcode bytes lies in a range of R85, so the decoder stops at the byte. -/
theorem everyOtherOpcodeFaults : Obligations.EveryOtherOpcodeFaults := by
  intro s op rest hfault hbytes hrange
  have hno : opcodeOf op = none := by
    refine opcodeOf_eq_none ?_
    rintro o rfl
    cases o <;> exact absurd hrange (by decide)
  exact step_of_illegalOpcode hfault (hbytes ▸ decodeCommand_of_no_opcode hno rest)

/-- Settles O5: the bytes from CP on are the encoding and what follows it, and decode to the command. -/
theorem stepRunsTheCommandAtCp : Obligations.StepRunsTheCommandAtCp := by
  refine ⟨fun s i rest hfault hdecode => step_of_command hfault hdecode, ?_⟩
  intro s i before rest hfault hwf hcmd hcp
  have hbytes : s.cmd.drop s.cp = encode i ++ rest := by
    rw [hcmd, hcp, List.append_assoc, List.drop_left]
  exact step_of_command hfault (hbytes ▸ decodeCommand_encode_append hwf rest)

end Sys2Proof.Machine
end

/-! ### The value of a rounding

The value a rounding gives, in units: it stays on its side of every value a pattern has, rises with the
fraction, and commutes with powers of two in the normal range. -/
section
namespace Sys2Proof.Machine

/-- The value, in units, of the pattern nearest to `a / b` units, with no ceiling at infinity. -/
def roundedUnits (a b : Nat) : Nat := magUnits (roundUnits a b)

/-- Some magnitude pattern has the value `u`. -/
def IsUnits (u : Nat) : Prop := ∃ mag, magUnits mag = u

/-- A significand of 53 bits has a pattern at every scale. -/
theorem isUnits_mul_two_pow {q : Nat} (k : Nat) (hq : q ≤ 2 ^ 53) : IsUnits (q * 2 ^ k) := by
  induction k generalizing q with
  | zero => exact ⟨q, by rw [magUnits_of_le hq, pow_zero, mul_one]⟩
  | succ k ih =>
    by_cases hlow : 2 ^ 52 ≤ q
    · exact ⟨_, magUnits_scaled ⟨hq, .inr hlow⟩⟩
    · have hdouble : q * 2 ^ (k + 1) = 2 * q * 2 ^ k := by ring
      rw [hdouble]
      exact ih (by omega)

/-- A value of a pattern that scales up by a power of two is again one. -/
theorem IsUnits.two_pow_mul {u : Nat} (h : IsUnits u) (j : Nat) : IsUnits (2 ^ j * u) := by
  obtain ⟨mag, rfl⟩ := h
  obtain ⟨k, q, rfl, hq, hlow⟩ := exists_scaled mag
  have hval : 2 ^ j * magUnits (k * 2 ^ 52 + q) = q * 2 ^ (k + j) := by
    rw [magUnits_scaled ⟨hq.le, hlow⟩]; ring
  exact hval ▸ isUnits_mul_two_pow _ hq.le

theorem roundedUnits_le {a b u : Nat} (hb : 0 < b) (hu : IsUnits u) (h : a ≤ u * b) :
    roundedUnits a b ≤ u := by
  obtain ⟨mag, rfl⟩ := hu
  obtain ⟨hnear, -⟩ := roundUnits_nearest a mag hb
  refine Nat.le_of_mul_le_mul_right ?_ hb
  change magUnits (roundUnits a b) * b ≤ magUnits mag * b
  omega

theorem le_roundedUnits {a b u : Nat} (hb : 0 < b) (hu : IsUnits u) (h : u * b ≤ a) :
    u ≤ roundedUnits a b := by
  obtain ⟨mag, rfl⟩ := hu
  obtain ⟨hnear, -⟩ := roundUnits_nearest a mag hb
  refine Nat.le_of_mul_le_mul_right ?_ hb
  change magUnits mag * b ≤ magUnits (roundUnits a b) * b
  omega

/-- The value of a pattern is not changed by the rounding. -/
theorem roundedUnits_one {u : Nat} (hu : IsUnits u) : roundedUnits u 1 = u :=
  le_antisymm (roundedUnits_le Nat.one_pos hu (by omega)) (le_roundedUnits Nat.one_pos hu (by omega))

theorem roundedUnits_zero {b : Nat} (hb : 0 < b) : roundedUnits 0 b = 0 :=
  Nat.le_zero.mp (roundedUnits_le hb ⟨0, rfl⟩ (Nat.zero_le _))

/-- The result that is nearer to the smaller fraction is not above the one that is nearer to the larger. -/
theorem roundedUnits_mono {a a' b : Nat} (hb : 0 < b) (h : a ≤ a') :
    roundedUnits a b ≤ roundedUnits a' b := by
  obtain rfl | hlt := Nat.eq_or_lt_of_le h
  · exact le_rfl
  obtain ⟨hnear, -⟩ := roundUnits_nearest a (roundUnits a' b) hb
  obtain ⟨hnear', -⟩ := roundUnits_nearest a' (roundUnits a b) hb
  refine Nat.le_of_mul_le_mul_right ?_ hb
  change magUnits (roundUnits a b) * b ≤ magUnits (roundUnits a' b) * b
  omega

/-! ### Scaling by a power of two -/

theorem roundQuotient_mul_left {c : Nat} (hc : 0 < c) (a d : Nat) :
    roundQuotient (c * a) (c * d) = roundQuotient a d := by
  have hlt : c * d < 2 * (c * (a % d)) ↔ d < 2 * (a % d) := by
    rw [Nat.mul_left_comm, Nat.mul_lt_mul_left hc]
  have heq : 2 * (c * (a % d)) = c * d ↔ 2 * (a % d) = d := by
    rw [Nat.mul_left_comm, Nat.mul_right_inj hc.ne']
  simp only [roundQuotient, Nat.mul_div_mul_left _ _ hc, Nat.mul_mod_mul_left, hlt, beq_iff_eq,
    Bool.or_eq_true, decide_eq_true_eq, Bool.and_eq_true, heq]

/-- In the normal range the scale follows the exponent. -/
theorem roundScale_two_pow_mul {a b : Nat} (j : Nat) (hb : 0 < b) (h : 2 ^ 52 * b ≤ a) :
    roundScale (2 ^ j * a) b = roundScale a b + j := by
  have hquot : 2 ^ 52 ≤ a / b := (Nat.le_div_iff_mul_le hb).mpr h
  have hne : a / b ≠ 0 := by omega
  have hlog : 52 ≤ (a / b).log2 := (Nat.le_log2 hne).mpr hquot
  have hshift : (2 ^ j * a / b).log2 = (a / b).log2 + j := by
    obtain ⟨hlow, hhigh⟩ := (Nat.log2_eq_iff hne).mp rfl
    rw [Nat.le_div_iff_mul_le hb] at hlow
    rw [Nat.div_lt_iff_lt_mul hb] at hhigh
    have hlow' : 2 ^ ((a / b).log2 + j) ≤ 2 ^ j * a / b := by
      rw [Nat.le_div_iff_mul_le hb]
      calc 2 ^ ((a / b).log2 + j) * b = 2 ^ j * (2 ^ (a / b).log2 * b) := by ring
        _ ≤ 2 ^ j * a := Nat.mul_le_mul_left _ hlow
    refine (Nat.log2_eq_iff (Nat.ne_of_gt ((Nat.two_pow_pos _).trans_le hlow'))).mpr ⟨hlow', ?_⟩
    rw [Nat.div_lt_iff_lt_mul hb]
    calc 2 ^ j * a < 2 ^ j * (2 ^ ((a / b).log2 + 1) * b) :=
          Nat.mul_lt_mul_of_pos_left hhigh (Nat.two_pow_pos j)
      _ = 2 ^ ((a / b).log2 + j + 1) * b := by ring
  rw [roundScale, roundScale, hshift]
  omega

/-- In the normal range the rounding commutes with powers of two. -/
theorem roundedUnits_two_pow_mul {a b : Nat} (j : Nat) (hb : 0 < b) (h : 2 ^ 52 * b ≤ a) :
    roundedUnits (2 ^ j * a) b = 2 ^ j * roundedUnits a b := by
  have hden : b * 2 ^ (roundScale a b + j) = 2 ^ j * (b * 2 ^ roundScale a b) := by ring
  rw [roundedUnits, roundedUnits, magUnits_roundUnits, magUnits_roundUnits,
    roundScale_two_pow_mul j hb h, hden, roundQuotient_mul_left (Nat.two_pow_pos j), pow_add]
  ring

/-- In the normal range a rounding loses at most one part in `2 ^ 53`. -/
theorem mul_le_roundedUnits {a b : Nat} (hb : 0 < b) (h : 2 ^ 52 * b ≤ a) :
    (2 ^ 53 - 1) * a ≤ 2 ^ 53 * (roundedUnits a b * b) := by
  have hdiv : a / (b * 2 ^ roundScale a b) * (b * 2 ^ roundScale a b) + a % (b * 2 ^ roundScale a b) = a :=
    Nat.div_add_mod' _ _
  have hstep : 2 ^ 52 * (b * 2 ^ roundScale a b) ≤ a := by
    obtain hk | hk := (div_roundScale_bounds a b).2
    · rwa [hk, pow_zero, Nat.mul_one]
    · exact (Nat.le_div_iff_mul_le (Nat.mul_pos hb (Nat.two_pow_pos _))).mp hk
  have hval : roundedUnits a b * b =
      roundQuotient a (b * 2 ^ roundScale a b) * (b * 2 ^ roundScale a b) := by
    rw [roundedUnits, magUnits_roundUnits, Nat.mul_assoc, Nat.mul_comm b]
  rw [hval]
  obtain ⟨hr, hrem, -⟩ | ⟨hr, hrem, -⟩ := roundQuotient_cases a (b * 2 ^ roundScale a b)
  · rw [hr]
    omega
  · rw [hr, Nat.add_mul, Nat.one_mul]
    have := Nat.mod_lt a (Nat.mul_pos hb (Nat.two_pow_pos (roundScale a b)))
    omega

/-- A summand below half a step of the other one is rounded away. -/
theorem roundedUnits_add_small {k u w : Nat} (hu : IsUnits u) (hlow : 2 ^ 52 * 2 ^ k ≤ u)
    (hw : 2 * w < 2 ^ k) : roundedUnits (u + w) 1 = u := by
  have hle : u ≤ roundedUnits (u + w) 1 := le_roundedUnits Nat.one_pos hu (by omega)
  obtain ⟨mag, rfl⟩ := hu
  have hleast : magUnits ((k + 1) * 2 ^ 52) = 2 ^ 52 * 2 ^ k := by
    simpa only [Nat.add_zero] using magUnits_normal (f := 0) k (by decide)
  have hdvd : ∀ {x}, 2 ^ 52 * 2 ^ k ≤ magUnits x → 2 ^ k ∣ magUnits x := fun h =>
    two_pow_dvd_magUnits (.inr (magUnits_strictMono.le_iff_le.mp (hleast ▸ h)))
  obtain ⟨s, hs⟩ := Nat.dvd_sub (hdvd (hlow.trans hle)) (hdvd hlow)
  obtain ⟨hnear, -⟩ := roundUnits_nearest (magUnits mag + w) mag Nat.one_pos
  change magUnits (roundUnits _ 1) = _
  change _ ≤ magUnits (roundUnits _ 1) at hle
  obtain rfl | hpos := Nat.eq_zero_or_pos s
  · omega
  · have := Nat.le_mul_of_pos_right (2 ^ k) hpos
    omega

end Sys2Proof.Machine
end

/-! ### Finite values that are not negative

`HasUnits x u`: the NUM x is finite, not negative, and stands for `u` units. What the operations give on such
operands, stated by the one rounding of the exact result. -/
section
namespace Sys2Proof.Machine

/-- R8: the comparisons by NaN and key. -/
theorem numLt_iff_key {x y : F64} :
    numLt x y = true ↔ (numIsNaN x = false ∧ numIsNaN y = false) ∧ numKey x < numKey y := by
  simp only [numLt, Bool.and_eq_true, Bool.not_eq_true', decide_eq_true_eq]

theorem numLe_iff_key {x y : F64} :
    numLe x y = true ↔ (numIsNaN x = false ∧ numIsNaN y = false) ∧ numKey x ≤ numKey y := by
  simp only [numLe, Bool.and_eq_true, Bool.not_eq_true', decide_eq_true_eq]

/-- `x` is finite and stands for `u` units; it may be the zero with the sign bit. -/
def HasUnits (x : F64) (u : Nat) : Prop := numMag x < infMag ∧ numSigned x = u

/-- The least value that overflows to infinity: 2^1024. -/
def overflowUnits : Nat := 2 ^ 1024 * unitsPerOne

theorem magUnits_infMag : magUnits infMag = overflowUnits := by decide +kernel

theorem unitsPerOne_pos : 0 < unitsPerOne := by decide +kernel

section
variable {x y : F64} {u v : Nat}

theorem HasUnits.signed (h : HasUnits x u) : numSigned x = u := h.2

theorem HasUnits.numUnits_eq (h : HasUnits x u) : numUnits x = u := by
  obtain ⟨-, hval⟩ := h
  unfold numSigned at hval
  split at hval <;> omega

/-- Only a zero has the sign bit. -/
theorem HasUnits.eq_zero_of_sign (h : HasUnits x u) (hneg : numSign x = true) : u = 0 := by
  have hval := h.signed
  rw [numSigned, hneg, if_pos rfl] at hval
  omega

theorem HasUnits.isUnits (h : HasUnits x u) : IsUnits u := ⟨numMag x, h.numUnits_eq⟩

theorem hasUnits_of_finite (hx : numMag x < infMag) (hle : 0 ≤ numSigned x) :
    HasUnits x (numSigned x).toNat := ⟨hx, (Int.toNat_of_nonneg hle).symm⟩

theorem HasUnits.numLe_iff (hx : HasUnits x u) (hy : HasUnits y v) : numLe x y = true ↔ u ≤ v := by
  rw [numLe_of_finite hx.1 hy.1, decide_eq_true_iff, hx.signed, hy.signed, Nat.cast_le]

theorem HasUnits.numLt_iff (hx : HasUnits x u) (hy : HasUnits y v) : numLt x y = true ↔ u < v := by
  rw [numLt_of_finite hx.1 hy.1, decide_eq_true_iff, hx.signed, hy.signed, Nat.cast_lt]

theorem hasUnits_zero : HasUnits 0#64 0 := by unfold HasUnits; decide +kernel

theorem hasUnits_numOne : HasUnits numOne unitsPerOne := ⟨by decide, numSigned_numOne⟩

/-- R31's betas are the finite values that are not negative. -/
theorem finiteBeta_iff : FiniteBeta x ↔ ∃ u, HasUnits x u := by
  constructor
  · rintro ⟨hle, hx⟩
    rw [numLe_of_finite (by decide) hx, decide_eq_true_iff] at hle
    exact ⟨_, hasUnits_of_finite hx hle⟩
  · rintro ⟨u, hx⟩
    exact ⟨(hasUnits_zero.numLe_iff hx).mpr (Nat.zero_le u), hx.1⟩

/-! ### The operations -/

/-- One rounding below the overflow; a sign only on a zero. -/
theorem hasUnits_numRound {neg : Bool} {a b : Nat} (hb : 0 < b) (hneg : neg = true → a = 0)
    (hfit : roundedUnits a b < overflowUnits) : HasUnits (numRound neg a b) (roundedUnits a b) := by
  have hmag : roundUnits a b < infMag := by
    rwa [← magUnits_infMag, roundedUnits, magUnits_strictMono.lt_iff_lt] at hfit
  have hlt : roundUnits a b < 2 ^ 63 := hmag.trans infMag_lt
  rw [numRound, Nat.min_eq_left hmag.le]
  refine ⟨by rwa [numMag_packNum _ hlt], ?_⟩
  rw [numSigned, numUnits, numMag_packNum _ hlt, numSign_packNum _ hlt, ← roundedUnits]
  cases neg with
  | false => exact if_neg Bool.false_ne_true
  | true => rw [if_pos rfl, hneg rfl, roundedUnits_zero hb, Nat.cast_zero, neg_zero]

/-- R8 on such operands, where the result does not overflow: one rounding of the exact result. -/
theorem HasUnits.add (hx : HasUnits x u) (hy : HasUnits y v)
    (hfit : roundedUnits (u + v) 1 < overflowUnits) :
    HasUnits (numAdd x y) (roundedUnits (u + v) 1) := by
  have hsum : numSigned x + numSigned y = (u + v : Nat) := by rw [hx.signed, hy.signed, Nat.cast_add]
  obtain hzero | hpos := Nat.eq_zero_or_pos (u + v)
  · have hval : numAdd x y = numZero (numSign x && numSign y) := by
      simp [numAdd, numIsNaN_of_finite, numIsInf_of_finite, hx.1, hy.1, hsum, hzero]
    rw [hval, hzero, roundedUnits_zero Nat.one_pos, HasUnits]
    cases numSign x && numSign y <;> decide +kernel
  · have hneg : decide ((u + v : Nat) < (0 : Int)) = false := decide_eq_false (by omega)
    rw [numAdd_of_finite hx.1 hy.1 (by omega), hsum, Int.natAbs_natCast, hneg]
    exact hasUnits_numRound Nat.one_pos (fun h => absurd h Bool.false_ne_true) hfit

/-- A sum that is the value of a pattern is exact. -/
theorem HasUnits.add_exact (hx : HasUnits x u) (hy : HasUnits y v) (hsum : IsUnits (u + v))
    (hfit : u + v < overflowUnits) : HasUnits (numAdd x y) (u + v) := by
  have h := hx.add hy
  rw [roundedUnits_one hsum] at h
  exact h hfit

/-- Signs that differ stand on a zero. -/
theorem HasUnits.mul_eq_zero_of_sign_ne (hx : HasUnits x u) (hy : HasUnits y v)
    (hsign : (numSign x != numSign y) = true) : u = 0 ∨ v = 0 := by
  cases hnx : numSign x with
  | true => exact .inl (hx.eq_zero_of_sign hnx)
  | false => exact .inr (hy.eq_zero_of_sign (by simpa [hnx] using hsign))

theorem HasUnits.mul (hx : HasUnits x u) (hy : HasUnits y v)
    (hfit : roundedUnits (u * v) unitsPerOne < overflowUnits) :
    HasUnits (numMul x y) (roundedUnits (u * v) unitsPerOne) := by
  rw [numMul_of_finite hx.1 hy.1, hx.numUnits_eq, hy.numUnits_eq]
  exact hasUnits_numRound unitsPerOne_pos
    (fun h => Nat.mul_eq_zero.mpr (hx.mul_eq_zero_of_sign_ne hy h)) hfit

theorem HasUnits.div (hx : HasUnits x u) (hy : HasUnits y v) (hpos : 0 < v)
    (hfit : roundedUnits (u * unitsPerOne) v < overflowUnits) :
    HasUnits (numDiv x y) (roundedUnits (u * unitsPerOne) v) := by
  rw [numDiv_of_finite hx.1 hy.1 (by rw [hy.numUnits_eq]; omega), hx.numUnits_eq, hy.numUnits_eq]
  refine hasUnits_numRound hpos (fun h => ?_) hfit
  obtain rfl := (hx.mul_eq_zero_of_sign_ne hy h).resolve_right hpos.ne'
  exact Nat.zero_mul _

end
end Sys2Proof.Machine
end

/-! ### The path of an update in the node store -/
section
namespace Sys2Proof.Machine

theorem pathPrefixes_eq_map_take (ks : List Byte) :
    pathPrefixes ks = (List.range ks.length).map (fun i => ks.take (i + 1)) := by
  induction ks with
  | nil => rfl
  | cons k ks ih =>
    rw [pathPrefixes, ih, List.length_cons, List.range_succ_eq_map, List.map_cons, List.map_map, List.map_map]
    rfl

/-- The keys of two path positions differ in their number. -/
theorem nodup_pathPrefixes (ks : List Byte) : (pathPrefixes ks).Nodup := by
  rw [pathPrefixes_eq_map_take]
  refine List.nodup_range.map_on fun i hi j hj h => ?_
  have hlen := congrArg List.length h
  rw [List.mem_range] at hi hj
  simp only [List.length_take] at hlen
  omega

/-- With a full window the paths an update walks are its path keys (R120). -/
theorem pathPrefixes_window {m : Model} (hhist : m.hist.length = m.d.toNat) :
    pathPrefixes (window m) = (List.range m.d.toNat).map (pathKey m) := by
  rw [window, ← hhist, List.take_length, pathPrefixes_eq_map_take]
  rfl

theorem mem_of_treeGet {t : CtTree} {p : KeyPath} {v : CtNode} (h : treeGet t p = some v) : (p, v) ∈ t := by
  induction t with
  | nil => cases h
  | cons e t ih =>
    obtain ⟨q, w⟩ := e
    unfold treeGet at h
    split at h
    · next hq => cases h; subst hq; exact List.mem_cons_self
    · exact List.mem_cons_of_mem _ (ih h)

theorem treeGet_eq_none_of_forall_pathLt {t : CtTree} {p : KeyPath} (h : ∀ e ∈ t, pathLt p e.1 = true) :
    treeGet t p = none := by
  cases hget : treeGet t p with
  | none => rfl
  | some v => exact absurd (h _ (mem_of_treeGet hget)) (by simp [pathLt_irrefl])

/-- A write at a path with no node adds one node. -/
theorem length_treePut_of_none {t : CtTree} {p : KeyPath} (v : CtNode) (h : treeGet t p = none) :
    (treePut t p v).length = t.length + 1 := by
  induction t with
  | nil => rfl
  | cons e t ih =>
    obtain ⟨q, w⟩ := e
    have hq : q ≠ p := by rintro rfl; simp [treeGet] at h
    rw [treeGet, if_neg hq] at h
    rw [treePut, if_neg hq]
    split
    · rfl
    · rw [List.length_cons, ih h, List.length_cons]

/-- A write at a path with a node replaces it. -/
theorem length_treePut_of_isSome {t : CtTree} {p : KeyPath} (v : CtNode) (hwf : t.wf = true)
    (h : (treeGet t p).isSome = true) : (treePut t p v).length = t.length := by
  induction t with
  | nil => cases h
  | cons e t ih =>
    obtain ⟨q, w⟩ := e
    obtain ⟨htail, hfirst⟩ := wf_cons hwf
    rw [treePut]
    split
    · rfl
    · next hq =>
      rw [treeGet, if_neg hq] at h
      split
      · next hlt =>
        rw [treeGet_eq_none_of_forall_pathLt fun e he => pathLt_trans hlt (hfirst e he)] at h
        cases h
      · rw [List.length_cons, ih htail h, List.length_cons]

/-- A path with no node reads as a new node, before and after one is written somewhere. -/
theorem getD_treeGet_treePut_newNode {t : CtTree} {p : KeyPath} (q : KeyPath) (h : treeGet t p = none) :
    (treeGet (treePut t p newNode) q).getD newNode = (treeGet t q).getD newNode := by
  by_cases hq : q = p
  · subst hq
    rw [treeGet_treePut_same, h]
    rfl
  · rw [treeGet_treePut_other t newNode hq]

theorem createPath_cons_of_some {t : CtTree} {p : KeyPath} {v : CtNode} (ps : List KeyPath)
    (h : treeGet t p = some v) : createPath t (p :: ps) = createPath t ps := by
  rw [createPath, h]

theorem createPath_cons_of_none {t : CtTree} {p : KeyPath} (ps : List KeyPath) (h : treeGet t p = none) :
    createPath t (p :: ps) =
      ((createPath (treePut t p newNode) ps).1, (createPath (treePut t p newNode) ps).2 + 1) := by
  rw [createPath, h]

/-- Every path created has a node, the one it had or a new one. -/
theorem treeGet_createPath_of_mem {t : CtTree} {ps : List KeyPath} {q : KeyPath} (h : q ∈ ps) :
    treeGet (createPath t ps).1 q = some ((treeGet t q).getD newNode) := by
  induction ps generalizing t with
  | nil => cases h
  | cons p ps ih =>
    cases hget : treeGet t p with
    | some w =>
      rw [createPath_cons_of_some ps hget]
      obtain rfl | hmem := List.mem_cons.mp h
      · rw [treeGet_createPath (.inr (by rw [hget]; rfl)), hget, Option.getD_some]
      · exact ih hmem
    | none =>
      rw [createPath_cons_of_none ps hget, ← getD_treeGet_treePut_newNode q hget]
      obtain rfl | hmem := List.mem_cons.mp h
      · rw [treeGet_createPath (.inr (by rw [treeGet_treePut_same]; rfl)), treeGet_treePut_same,
          Option.getD_some]
      · exact ih hmem

/-- R120: the tree grows by the nodes created. -/
theorem length_createPath (t : CtTree) (ps : List KeyPath) :
    (createPath t ps).1.length = t.length + (createPath t ps).2 := by
  induction ps generalizing t with
  | nil => rfl
  | cons p ps ih =>
    cases hget : treeGet t p with
    | some w => rw [createPath_cons_of_some ps hget, ih]
    | none =>
      rw [createPath_cons_of_none ps hget, ih, length_treePut_of_none newNode hget]
      omega

/-- R120: one node is created for each path that has none. -/
theorem createPath_count {t : CtTree} {ps : List KeyPath} (hps : ps.Nodup) :
    (createPath t ps).2 = (ps.filter (fun p => (treeGet t p).isNone)).length := by
  induction ps generalizing t with
  | nil => rfl
  | cons p ps ih =>
    obtain ⟨hp, hps⟩ := List.nodup_cons.mp hps
    cases hget : treeGet t p with
    | some w => rw [createPath_cons_of_some ps hget, ih hps, List.filter_cons, hget]; rfl
    | none =>
      have hrest : ps.filter (fun q => (treeGet (treePut t p newNode) q).isNone) =
          ps.filter (fun q => (treeGet t q).isNone) :=
        List.filter_congr fun q hq => by
          rw [treeGet_treePut_other t newNode (ne_of_mem_of_not_mem hq hp)]
      rw [createPath_cons_of_none ps hget, ih hps, hrest, List.filter_cons, hget]
      rfl

/-- Every entry of a created path is an old one or a new node. -/
theorem mem_createPath {t : CtTree} {ps : List KeyPath} {e : KeyPath × CtNode}
    (h : e ∈ (createPath t ps).1) : e ∈ t ∨ e.2 = newNode := by
  induction ps generalizing t with
  | nil => exact .inl h
  | cons p ps ih =>
    cases hget : treeGet t p with
    | some w => exact ih (createPath_cons_of_some ps hget ▸ h)
    | none =>
      rw [createPath_cons_of_none ps hget] at h
      obtain h | h := ih h
      · obtain rfl | h := mem_treePut h
        · exact .inr rfl
        · exact .inl h
      · exact .inr h

/-- Every entry after a write of nodes is an old one or one of the nodes. -/
theorem mem_putNodes {t : CtTree} {ps : List KeyPath} {vs : List CtNode} {e : KeyPath × CtNode}
    (h : e ∈ putNodes t ps vs) : e ∈ t ∨ e.2 ∈ vs := by
  induction ps generalizing t vs with
  | nil => cases vs <;> exact .inl h
  | cons p ps ih => cases vs with
    | nil => exact .inl h
    | cons v vs =>
      obtain h | h := ih h
      · obtain rfl | h := mem_treePut h
        · exact .inr List.mem_cons_self
        · exact .inl h
      · exact .inr (List.mem_cons_of_mem _ h)

/-- A read at a path written gives the node written there. -/
theorem treeGet_putNodes_getElem? {t : CtTree} {ps : List KeyPath} {vs : List CtNode} {i : Nat}
    {p : KeyPath} {v : CtNode} (hps : ps.Nodup) (hp : ps[i]? = some p) (hv : vs[i]? = some v) :
    treeGet (putNodes t ps vs) p = some v := by
  induction ps generalizing t vs i with
  | nil => cases hp
  | cons q ps ih => cases vs with
    | nil => cases hv
    | cons w vs =>
      obtain ⟨hq, hps⟩ := List.nodup_cons.mp hps
      cases i with
      | zero => cases hp; cases hv; rw [putNodes, treeGet_putNodes_other vs hq, treeGet_treePut_same]
      | succ i => exact ih hps hp hv

/-- Nodes written where nodes stand replace them. -/
theorem length_putNodes {t : CtTree} {ps : List KeyPath} (vs : List CtNode) (hwf : t.wf = true)
    (h : ∀ p ∈ ps, (treeGet t p).isSome = true) : (putNodes t ps vs).length = t.length := by
  induction ps generalizing t vs with
  | nil => cases vs <;> rfl
  | cons p ps ih => cases vs with
    | nil => rfl
    | cons v vs =>
      obtain ⟨hp, hps⟩ := List.forall_mem_cons.mp h
      rw [putNodes, ih vs (treePut_wf p v hwf), length_treePut_of_isSome v hwf hp]
      intro q hq
      by_cases hqp : q = p
      · rw [hqp, treeGet_treePut_same]; rfl
      · rw [treeGet_treePut_other t v hqp]; exact hps q hq

end Sys2Proof.Machine
end

/-! ### Counters -/
section
namespace Sys2Proof.Machine

/-- R127: the counters after the increment. -/
theorem bump_toNat {bit : Bool} {c : Counts} (h0 : c.n0.toNat < 255) (h1 : c.n1.toNat < 255) :
    (bump bit c).n0.toNat = c.n0.toNat + (if bit then 0 else 1) ∧
    (bump bit c).n1.toNat = c.n1.toNat + (if bit then 1 else 0) := by
  cases bit <;> simp [bump] <;> omega

/-- R127: aging on whole numbers. -/
theorem age_toNat {c : Counts} {a b : Nat} (ha : c.n0.toNat = a) (hb : c.n1.toNat = b) :
    (age c).n0.toNat = (if a = 255 ∨ b = 255 ∨ (128 ≤ a ∧ 128 ≤ b) then a / 2 else a) ∧
    (age c).n1.toNat = (if a = 255 ∨ b = 255 ∨ (128 ≤ a ∧ 128 ≤ b) then b / 2 else b) := by
  subst ha hb
  have hage : age c =
      if c.n0.toNat = 255 ∨ c.n1.toNat = 255 ∨ (128 ≤ c.n0.toNat ∧ 128 ≤ c.n1.toNat) then
        { n0 := c.n0 >>> 1, n1 := c.n1 >>> 1 }
      else c := rfl
  rw [hage]
  split
  · simp [Nat.shiftRight_eq_div_pow]
  · exact ⟨rfl, rfl⟩

/-- Settles O23: the increment stays in the byte, and a counter that reaches 255 is halved. -/
theorem countersIncrementAndAge : Obligations.CountersIncrementAndAge := by
  intro bit c h0 h1 a b halves
  obtain ⟨ha, hb⟩ := bump_toNat (bit := bit) h0 h1
  obtain ⟨hn0, hn1⟩ := age_toNat (show _ = a from ha) (show _ = b from hb)
  have hale : a ≤ 255 := by dsimp only [a]; split <;> omega
  have hble : b ≤ 255 := by dsimp only [b]; split <;> omega
  refine ⟨hn0, hn1, ?_, ?_⟩
  · rw [countBit, hn0]; split <;> omega
  · rw [countBit, hn1]; split <;> omega

end Sys2Proof.Machine
end

/-! ### The mixing of a path, position by position -/
section
namespace Sys2Proof.Machine

theorem topPair_of_getElem? {l : List BitPair} {c : BitPair} (h : l[0]? = some c) : topPair l = c := by
  cases l with
  | nil => cases h
  | cons d l => cases h; rfl

theorem topPair_mem {l : List BitPair} (h : l ≠ []) : topPair l ∈ l := by
  cases l with
  | nil => exact absurd rfl h
  | cons d l => exact List.mem_cons_self

theorem topPair_drop {l : List BitPair} {i : Nat} {c : BitPair} (h : l[i]? = some c) :
    topPair (l.drop i) = c :=
  topPair_of_getElem? (by rw [List.getElem?_drop, Nat.add_zero, h])

/-- R124, R125: an internal node over the mixing of the nodes below it. -/
theorem mixPath_cons_cons (p : Params) (c i : Nat) (v w : CtNode) (vs : List CtNode) :
    mixPath p c i (v :: w :: vs) =
      { pr := (if saturated p v then topPair (mixPath p c (i + 1) (w :: vs)).pr
          else mixPair (nodeMass v) (topPair (mixPath p c (i + 1) (w :: vs)).pr)) ::
            (mixPath p c (i + 1) (w :: vs)).pr
        bm := (if saturated p v then freeMass c i else nodeMass v) :: (mixPath p c (i + 1) (w :: vs)).bm
        sat := saturated p v :: (mixPath p c (i + 1) (w :: vs)).sat } := by
  rw [mixPath]
  cases saturated p v <;> rfl

/-- R128: one pair for each node, one mass and one saturation bit for each internal node. -/
theorem mixPath_lengths (p : Params) (c i : Nat) (vs : List CtNode) :
    (mixPath p c i vs).pr.length = vs.length ∧ (mixPath p c i vs).bm.length = vs.length - 1 ∧
    (mixPath p c i vs).sat.length = vs.length - 1 := by
  induction vs generalizing i with
  | nil => exact ⟨rfl, rfl, rfl⟩
  | cons v vs ih => cases vs with
    | nil => exact ⟨rfl, rfl, rfl⟩
    | cons w vs =>
      obtain ⟨hpr, hbm, hsat⟩ := ih (i + 1)
      rw [mixPath_cons_cons]
      simp only [List.length_cons] at hpr hbm hsat ⊢
      omega

/-- R123: the leaf's pair is its KT pair. -/
theorem mixPath_pr_leaf {p : Params} {c i j : Nat} {vs : List CtNode} {v : CtNode} (hv : vs[j]? = some v)
    (hlast : j + 1 = vs.length) : (mixPath p c i vs).pr[j]? = some (ktPair v.counts) := by
  induction vs generalizing i j with
  | nil => cases hv
  | cons u vs ih => cases vs with
    | nil =>
      obtain rfl : j = 0 := by simpa using hlast
      cases hv
      rfl
    | cons w vs =>
      rw [List.length_cons, Nat.add_left_inj] at hlast
      obtain ⟨j, rfl⟩ : ∃ j', j = j' + 1 := ⟨vs.length, by rw [hlast, List.length_cons]⟩
      rw [mixPath_cons_cons]
      exact ih hv hlast

/-- R124, R125: a saturated internal node passes the pair below it through, any other mixes its masses with
that pair. -/
theorem mixPath_internal {p : Params} {c i j : Nat} {vs : List CtNode} {v : CtNode} {child : BitPair}
    (hv : vs[j]? = some v) (hchild : (mixPath p c i vs).pr[j + 1]? = some child) :
    (mixPath p c i vs).sat[j]? = some (saturated p v) ∧
    (mixPath p c i vs).pr[j]? = some (if saturated p v then child else mixPair (nodeMass v) child) ∧
    (saturated p v = false → (mixPath p c i vs).bm[j]? = some (nodeMass v)) := by
  induction vs generalizing i j with
  | nil => cases hv
  | cons u vs ih => cases vs with
    | nil => cases hchild
    | cons w vs =>
      rw [mixPath_cons_cons] at hchild ⊢
      cases j with
      | zero =>
        cases hv
        rw [topPair_of_getElem? hchild]
        exact ⟨rfl, rfl, fun h => by rw [h]; rfl⟩
      | succ j => exact ih hv hchild

/-! ### The node a position has after an update -/

/-- The leaf has no saturation bit. -/
theorem updateNode_beta_leaf {mix : PathMix} {i : Nat} (p : Params) (bit : Bool) (v : CtNode)
    (hsat : mix.sat[i]? = none) : (updateNode p bit mix i v).beta = v.beta := by
  simp only [updateNode, hsat]

theorem updateNode_beta_internal {mix : PathMix} {i : Nat} {sat : Bool} {b child : BitPair} (p : Params)
    (bit : Bool) (v : CtNode) (hsat : mix.sat[i]? = some sat) (hbm : mix.bm[i]? = some b)
    (hchild : mix.pr[i + 1]? = some child) :
    (updateNode p bit mix i v).beta = betaAfter p bit sat v b child := by
  simp only [updateNode, hsat, hbm, topPair_drop hchild]

/-- R126: the beta of a node that is not saturated. -/
theorem betaAfter_mixed (p : Params) (bit : Bool) (v : CtNode) (b c : BitPair) :
    betaAfter p bit false v b c = numDiv (b.get bit) (c.get bit) := if_neg Bool.false_ne_true

end Sys2Proof.Machine
end

/-! ### What an update leaves -/
section
namespace Sys2Proof.Machine

/-- The nodes of the path of R120, as an update finds or creates them. -/
def walkedNodes (m : Model) (n : Nat) : List CtNode := (List.range m.d.toNat).map (pathNode m n)

/-- The mixing of an update of TREE[n] (R122). -/
def walkedMix (p : Params) (m : Model) (n : Nat) : PathMix := mixPath p m.fresh 0 (walkedNodes m n)

@[simp] theorem walkedNodes_length (m : Model) (n : Nat) : (walkedNodes m n).length = m.d.toNat := by
  rw [walkedNodes, List.length_map, List.length_range]

theorem walkedNodes_getElem {m : Model} {n i : Nat} (hi : i < (walkedNodes m n).length) :
    (walkedNodes m n)[i] = pathNode m n i := by
  simp only [walkedNodes, List.getElem_map, List.getElem_range]

theorem walkedNodes_getElem? {m : Model} {i : Nat} (n : Nat) (hi : i < m.d.toNat) :
    (walkedNodes m n)[i]? = some (pathNode m n i) := by
  rw [List.getElem?_eq_getElem (by rwa [walkedNodes_length]), walkedNodes_getElem]

@[simp] theorem treeOf_setTree (n : Nat) (t : CtTree) (m : Model) : treeOf (setTree n t m) n = t :=
  Vector.getElem_set_self _

section
variable {m : Model} (p : Params) (n : Nat) (bit : Bool) (k : Fin 8) (hhist : m.hist.length = m.d.toNat)
include hhist

theorem nodesAt_createPath_window :
    nodesAt (createPath (treeOf m n) (pathPrefixes (window m))).1 (pathPrefixes (window m)) =
      walkedNodes m n := by
  have hnode : ∀ q ∈ pathPrefixes (window m),
      (treeGet (createPath (treeOf m n) (pathPrefixes (window m))).1 q).getD newNode =
        (treeGet (treeOf m n) q).getD newNode := fun q hq => by
    rw [treeGet_createPath_of_mem hq, Option.getD_some]
  rw [nodesAt, List.map_congr_left hnode, pathPrefixes_window hhist, List.map_map]
  rfl

theorem ctUpdate_pair : (ctUpdate p n bit k m).1 = topPair (walkedMix p m n).pr := by
  rw [walkedMix, ← nodesAt_createPath_window n hhist]
  rfl

/-- R128: the scratch an update leaves. -/
theorem ctUpdate_scratch :
    (ctUpdate p n bit k m).2.scr[k] =
      { valid := true, owner := BitVec.ofNat 8 n, path := (List.range m.d.toNat).map (pathKey m),
        saved := (walkedNodes m n).map (·.counts), pr := (walkedMix p m n).pr,
        bm := (walkedMix p m n).bm, sat := (walkedMix p m n).sat } := by
  rw [walkedMix, ← nodesAt_createPath_window n hhist, ← pathPrefixes_window hhist]
  exact Vector.getElem_set_self _

/-- The tree an update leaves: the path made, then its nodes written. -/
theorem ctUpdate_tree :
    treeOf (ctUpdate p n bit k m).2 n =
      putNodes (createPath (treeOf m n) (pathPrefixes (window m))).1 (pathPrefixes (window m))
        ((walkedNodes m n).mapIdx (updateNode p bit (walkedMix p m n))) := by
  rw [walkedMix, ← nodesAt_createPath_window n hhist]
  exact treeOf_setTree ..

theorem mem_pathPrefixes_window {q : KeyPath} :
    q ∈ pathPrefixes (window m) ↔ ∃ i < m.d.toNat, q = pathKey m i := by
  rw [pathPrefixes_window hhist]
  simp only [List.mem_map, List.mem_range, eq_comm]

/-- The node at a path position after an update. -/
theorem treeGet_ctUpdate {i : Nat} (hi : i < m.d.toNat) :
    treeGet (treeOf (ctUpdate p n bit k m).2 n) (pathKey m i) =
      some (updateNode p bit (walkedMix p m n) i (pathNode m n i)) := by
  rw [ctUpdate_tree p n bit k hhist]
  refine treeGet_putNodes_getElem? (i := i) (nodup_pathPrefixes _) ?_ ?_
  · rw [pathPrefixes_window hhist, List.getElem?_map, List.getElem?_range hi, Option.map_some]
  · rw [List.getElem?_mapIdx, walkedNodes_getElem? n hi, Option.map_some]

theorem treeGet_ctUpdate_other {q : KeyPath} (hq : ∀ i < m.d.toNat, q ≠ pathKey m i) :
    treeGet (treeOf (ctUpdate p n bit k m).2 n) q = treeGet (treeOf m n) q := by
  have hmem : q ∉ pathPrefixes (window m) := fun h => by
    obtain ⟨i, hi, heq⟩ := (mem_pathPrefixes_window hhist).mp h
    exact hq i hi heq
  rw [ctUpdate_tree p n bit k hhist, treeGet_putNodes_other _ hmem, treeGet_createPath (.inl hmem)]

/-- R120: an update adds the nodes its walk creates. -/
theorem length_ctUpdate_tree (hwf : (treeOf m n).wf = true) :
    (treeOf (ctUpdate p n bit k m).2 n).length =
      (treeOf m n).length + (createPath (treeOf m n) (pathPrefixes (window m))).2 := by
  rw [ctUpdate_tree p n bit k hhist, length_putNodes _ (createPath_wf _ hwf), length_createPath]
  intro q hq
  rw [treeGet_createPath_of_mem hq]
  rfl

end

section
variable (p : Params) (m : Model) (n : Nat)

theorem walkedMix_lengths :
    (walkedMix p m n).pr.length = m.d.toNat ∧ (walkedMix p m n).bm.length = m.d.toNat - 1 ∧
    (walkedMix p m n).sat.length = m.d.toNat - 1 := by
  rw [← walkedNodes_length m n]
  exact mixPath_lengths ..

theorem walkedMix_leaf {i : Nat} (hlast : i + 1 = m.d.toNat) :
    (walkedMix p m n).pr[i]? = some (ktPair (pathNode m n i).counts) :=
  mixPath_pr_leaf (walkedNodes_getElem? n (by omega)) (by rwa [walkedNodes_length])

theorem walkedMix_internal {i : Nat} {child : BitPair} (hchild : (walkedMix p m n).pr[i + 1]? = some child) :
    (walkedMix p m n).sat[i]? = some (saturated p (pathNode m n i)) ∧
    (walkedMix p m n).pr[i]? = some (if saturated p (pathNode m n i) then child
      else mixPair (nodeMass (pathNode m n i)) child) ∧
    (saturated p (pathNode m n i) = false →
      (walkedMix p m n).bm[i]? = some (nodeMass (pathNode m n i))) := by
  obtain ⟨hpr, -, -⟩ := walkedMix_lengths p m n
  obtain ⟨hi, -⟩ := List.getElem?_eq_some_iff.mp hchild
  exact mixPath_internal (walkedNodes_getElem? n (by omega)) hchild

end

/-- Settles O25: the tree after the walk and the writes, read on the path and off it, and counted. -/
theorem updateWalksThePathOfTheHistory : Obligations.UpdateWalksThePathOfTheHistory := by
  intro p n bit k m _ _ hhist hwf u
  have hlen := length_ctUpdate_tree p n bit k hhist hwf
  refine ⟨fun i hi => by rw [treeGet_ctUpdate p n bit k hhist hi]; rfl,
    fun q hq => treeGet_ctUpdate_other p n bit k hhist hq, ?_, ?_⟩
  · rw [hlen, createPath_count (nodup_pathPrefixes _), pathPrefixes_window hhist, List.filter_map,
      List.length_map]
    rfl
  · rw [hlen, Nat.add_sub_cancel_left]
    rfl

/-- Settles O26: the scratch records the mixing of the path's nodes, position by position. -/
theorem updateMixesBottomUp : Obligations.UpdateMixesBottomUp := by
  intro p n bit k m _ hn hd hhist r scr
  have hscr : scr = _ := ctUpdate_scratch p n bit k hhist
  obtain ⟨hpr, hbm, hsat⟩ := walkedMix_lengths p m n
  have hsaved : (walkedNodes m n).map (·.counts) =
      (List.range m.d.toNat).map (fun i => (pathNode m n i).counts) := List.map_map
  have howner : (BitVec.ofNat 8 n).toNat = n := Nat.mod_eq_of_lt (by omega)
  have htop : (walkedMix p m n).pr[0]? = some r.1 := by
    rw [ctUpdate_pair p n bit k hhist, List.getElem?_eq_getElem (by omega)]
    exact congrArg some (topPair_of_getElem? (List.getElem?_eq_getElem _)).symm
  rw [hscr]
  refine ⟨rfl, howner, rfl, hsaved, htop, hpr, hsat, hbm, ?_, ?_⟩
  · rintro v rfl
    exact walkedMix_leaf p m n (by omega)
  · rintro i c v - hchild rfl
    obtain ⟨hs, hp, hb⟩ := walkedMix_internal p m n hchild
    refine ⟨fun h => ?_, fun h => ?_⟩ <;> change saturated p (pathNode m n i) = _ at h
    · rw [h] at hs hp
      exact ⟨hs, hp⟩
    · have hmass := hb h
      rw [h] at hs hp
      exact ⟨hs, hmass, hp⟩

/-- Settles O27: the node written at a path position is the position's node updated from the mixing. -/
theorem updateWritesCountersAndBetas : Obligations.UpdateWritesCountersAndBetas := by
  intro p n bit k m _ _ hhist u i hi
  obtain ⟨-, hbm, hsat⟩ := walkedMix_lengths p m n
  refine ⟨_, treeGet_ctUpdate p n bit k hhist hi, rfl, fun hlast => ?_, fun c hlt hchild => ?_⟩
  · exact updateNode_beta_leaf _ _ _ (List.getElem?_eq_none (by omega))
  rw [ctUpdate_scratch p n bit k hhist] at hchild ⊢
  obtain ⟨hs, -, -⟩ := walkedMix_internal p m n hchild
  refine ⟨fun h => ?_, fun h b hb => ?_⟩ <;> change saturated p (pathNode m n i) = _ at h
  · rw [updateNode_beta_internal p bit _ hs (List.getElem?_eq_getElem (by omega)) hchild, h]
    rfl
  · rw [updateNode_beta_internal p bit _ hs hb hchild, h, betaAfter_mixed]
    cases bit <;> simp [BitPair.get]

end Sys2Proof.Machine
end

/-! ### Sizes of the values of an update

Two values in balance differ at most by the factor 4096. R133(a)'s ratio is 4065 over exact arithmetic; a power
of two is a factor that the rounding keeps, so the balance passes up a path of any depth. -/
section
namespace Sys2Proof.Machine

/-- 1/16 in units: the counters' pseudo-counts are whole multiples of it. -/
def sixteenth : Nat := 2 ^ 1070

/-- 2^-13 in units: the least probability of O28. -/
def leastProb : Nat := 2 ^ 1061

/-- 2^1000 in units: the greatest BETA_MAX (D8). -/
def betaCeiling : Nat := 2 ^ 2074

/-- A bound of the masses in units, just below 2^1011 (R133(c)). -/
def massCeiling : Nat := 4065 * 2 ^ 2073

theorem unitsPerOne_eq_sixteenths : unitsPerOne = 16 * sixteenth := by decide +kernel
theorem unitsPerOne_eq_leastProb : unitsPerOne = 2 ^ 13 * leastProb := by decide +kernel
theorem two_mul_massCeiling : 2 * massCeiling = 4065 * betaCeiling := by decide +kernel

theorem two_pow_le_sixteenth : 2 ^ 52 ≤ sixteenth := by decide +kernel
theorem two_pow_le_leastProb : 2 ^ 118 ≤ leastProb := by decide +kernel
theorem unitsPerOne_le_massCeiling : unitsPerOne ≤ massCeiling := by decide +kernel
theorem two_pow_mul_betaCeiling_le : 2 ^ 3 * betaCeiling ≤ 2 ^ 13 * massCeiling := by decide +kernel
theorem two_pow_mul_massCeiling_lt_overflow : 2 ^ 13 * massCeiling < overflowUnits := by decide +kernel

theorem isUnits_massCeiling : IsUnits massCeiling := isUnits_mul_two_pow 2073 (by decide)

theorem hasUnits_ktA : HasUnits ktA sixteenth := by unfold HasUnits; decide +kernel
theorem hasUnits_ktB : HasUnits ktB (2 * sixteenth) := by unfold HasUnits; decide +kernel
theorem hasUnits_leastProb : HasUnits 0x3F20000000000000#64 leastProb := by unfold HasUnits; decide +kernel
theorem hasUnits_betaCeiling : HasUnits 0x7E70000000000000#64 betaCeiling := by unfold HasUnits; decide +kernel

/-- Nothing an update computes exceeds 8192 times the bound of the masses, which does not overflow. -/
theorem roundedUnits_lt_overflow {a b : Nat} (hb : 0 < b) (h : a ≤ 2 ^ 13 * massCeiling * b) :
    roundedUnits a b < overflowUnits :=
  (roundedUnits_le hb (isUnits_massCeiling.two_pow_mul 13) h).trans_lt two_pow_mul_massCeiling_lt_overflow

/-! ### Balance -/

/-- `u` and `v` differ at most by the factor 4096. -/
def Balanced (u v : Nat) : Prop := u ≤ 2 ^ 12 * v ∧ v ≤ 2 ^ 12 * u

section
variable {u v : Nat}

theorem Balanced.symm (h : Balanced u v) : Balanced v u := ⟨h.2, h.1⟩

theorem Balanced.add {u' v' : Nat} (h : Balanced u v) (h' : Balanced u' v') :
    Balanced (u + u') (v + v') := by
  unfold Balanced at *
  omega

theorem Balanced.mul_right (h : Balanced u v) (w : Nat) : Balanced (u * w) (v * w) := by
  constructor
  · rw [← Nat.mul_assoc]; exact Nat.mul_le_mul_right w h.1
  · rw [← Nat.mul_assoc]; exact Nat.mul_le_mul_right w h.2

/-- In the normal range the rounding keeps the balance. -/
theorem Balanced.rounded {d : Nat} (h : Balanced u v) (hd : 0 < d) (hu : 2 ^ 52 * d ≤ u)
    (hv : 2 ^ 52 * d ≤ v) : Balanced (roundedUnits u d) (roundedUnits v d) :=
  ⟨(roundedUnits_mono hd h.1).trans_eq (roundedUnits_two_pow_mul 12 hd hv),
    (roundedUnits_mono hd h.2).trans_eq (roundedUnits_two_pow_mul 12 hd hu)⟩

/-- The rounded sum of two values in balance is above both, and not far above. -/
theorem Balanced.sum_bounds (h : Balanced u v) (hu : IsUnits u) (hnormal : 2 ^ 52 ≤ u) :
    2 ^ 53 * u ≤ (2 ^ 53 - 1) * roundedUnits (u + v) 1 ∧ roundedUnits (u + v) 1 ≤ 2 ^ 13 * u := by
  obtain ⟨huv, hvu⟩ := h
  have hloss := mul_le_roundedUnits (a := u + v) Nat.one_pos (by omega)
  exact ⟨by omega, roundedUnits_le Nat.one_pos (hu.two_pow_mul 13) (by omega)⟩

/-- The value before 1.0 is a step of 2^-53 below it. -/
theorem exists_step_below_one : ∃ g, unitsPerOne = 2 ^ 53 * g ∧ 0 < g ∧ IsUnits ((2 ^ 53 - 1) * g) :=
  ⟨2 ^ 1021, by decide +kernel, by decide +kernel, isUnits_mul_two_pow 1021 (by decide)⟩

/-- A share of the rounded sum is a probability of O28. -/
theorem Balanced.share_bounds (h : Balanced u v) (hu : IsUnits u) (hnormal : 2 ^ 52 ≤ u) :
    leastProb ≤ roundedUnits (u * unitsPerOne) (roundedUnits (u + v) 1) ∧
    roundedUnits (u * unitsPerOne) (roundedUnits (u + v) 1) < unitsPerOne := by
  obtain ⟨hlow, hhigh⟩ := h.sum_bounds hu hnormal
  have hpos : 0 < roundedUnits (u + v) 1 := by omega
  constructor
  · refine le_roundedUnits hpos hasUnits_leastProb.isUnits ?_
    calc leastProb * roundedUnits (u + v) 1 ≤ leastProb * (2 ^ 13 * u) := Nat.mul_le_mul_left _ hhigh
      _ = u * unitsPerOne := by rw [unitsPerOne_eq_leastProb]; ring
  · obtain ⟨g, hone, hg, hbelow⟩ := exists_step_below_one
    have hle : roundedUnits (u * unitsPerOne) (roundedUnits (u + v) 1) ≤ (2 ^ 53 - 1) * g := by
      refine roundedUnits_le hpos hbelow ?_
      calc u * unitsPerOne = 2 ^ 53 * u * g := by rw [hone]; ring
        _ ≤ (2 ^ 53 - 1) * roundedUnits (u + v) 1 * g := Nat.mul_le_mul_right _ hlow
        _ = (2 ^ 53 - 1) * g * roundedUnits (u + v) 1 := by ring
    omega

/-- The shares' quotients are in the normal range. -/
theorem Balanced.normal_share (h : Balanced u v) (hu : IsUnits u) (hnormal : 2 ^ 52 ≤ u) :
    2 ^ 52 * roundedUnits (u + v) 1 ≤ u * unitsPerOne := by
  obtain ⟨-, hhigh⟩ := h.sum_bounds hu hnormal
  calc 2 ^ 52 * roundedUnits (u + v) 1 ≤ u * 2 ^ 65 := by omega
    _ ≤ u * unitsPerOne := Nat.mul_le_mul_left u (by decide +kernel)

end

/-! ### Normalized pairs -/

/-- Two probabilities from 2^-13 to below 1.0, in balance. -/
def PairOk (c : BitPair) : Prop :=
  ∃ u v, HasUnits c.zero u ∧ HasUnits c.one v ∧ Balanced u v ∧
    (leastProb ≤ u ∧ u < unitsPerOne) ∧ leastProb ≤ v ∧ v < unitsPerOne

/-- R123, R125: two values in balance over their rounded sum. -/
theorem pairOk_normalized {x y t : F64} {u v : Nat} (hx : HasUnits x u) (hy : HasUnits y v)
    (ht : HasUnits t (roundedUnits (u + v) 1)) (h : Balanced u v) (hu : 2 ^ 52 ≤ u) (hv : 2 ^ 52 ≤ v) :
    PairOk { zero := numDiv x t, one := numDiv y t } := by
  obtain ⟨hlow, -⟩ := h.sum_bounds hx.isUnits hu
  have hpos : 0 < roundedUnits (u + v) 1 := by omega
  have hfit : unitsPerOne < overflowUnits := by decide +kernel
  have hshareX := h.share_bounds hx.isUnits hu
  have hshareY := h.symm.share_bounds hy.isUnits hv
  have hnormalX := h.normal_share hx.isUnits hu
  have hnormalY := h.symm.normal_share hy.isUnits hv
  rw [Nat.add_comm v u] at hshareY hnormalY
  exact ⟨_, _, hx.div ht hpos (hshareX.2.trans hfit), hy.div ht hpos (hshareY.2.trans hfit),
    (h.mul_right unitsPerOne).rounded hpos hnormalX hnormalY, hshareX, hshareY⟩

/-! ### The counters' sums, and the leaf -/

/-- Small sums of sixteenths are exact. -/
theorem HasUnits.add_sixteenths {x y : F64} {q r : Nat} (hx : HasUnits x (q * sixteenth))
    (hy : HasUnits y (r * sixteenth)) (hle : q + r ≤ 2 ^ 53) :
    HasUnits (numAdd x y) ((q + r) * sixteenth) := by
  have hsum : IsUnits ((q + r) * sixteenth) := isUnits_mul_two_pow 1070 hle
  have hfit : (q + r) * sixteenth < overflowUnits :=
    (Nat.mul_le_mul_right sixteenth hle).trans_lt (by decide +kernel)
  rw [Nat.add_mul] at hsum hfit ⊢
  exact hx.add_exact hy hsum hfit

theorem hasUnits_count (b : Byte) : HasUnits (numOfNat b.toNat) (16 * b.toNat * sixteenth) := by
  obtain ⟨hfinite, hval⟩ := numOfNat_exact (n := b.toNat) (by omega)
  refine ⟨hfinite, hval.trans ?_⟩
  rw [unitsPerOne_eq_sixteenths]
  push_cast
  ring

/-- `n + 1/16` of R110 and R125 is exact. -/
theorem hasUnits_pseudoCount (b : Byte) :
    HasUnits (numAdd (numOfNat b.toNat) ktA) ((16 * b.toNat + 1) * sixteenth) :=
  (hasUnits_count b).add_sixteenths ((Nat.one_mul sixteenth).symm ▸ hasUnits_ktA) (by omega)

/-- `n0 + n1 + 1/8` of R110 and R125 is exact. -/
theorem hasUnits_total (c : Counts) :
    HasUnits (numAdd (numAdd (numOfNat c.n0.toNat) (numOfNat c.n1.toNat)) ktB)
      ((16 * c.n0.toNat + 16 * c.n1.toNat + 2) * sixteenth) :=
  ((hasUnits_count c.n0).add_sixteenths (hasUnits_count c.n1) (by omega)).add_sixteenths hasUnits_ktB
    (by omega)

theorem sixteenth_le_pseudoCount (n : Nat) : sixteenth ≤ (16 * n + 1) * sixteenth :=
  Nat.le_mul_of_pos_left sixteenth (by omega)

/-- R133(a): counters in bounds are in balance. -/
theorem balanced_pseudoCounts {c : Counts} (h : CountsOk c) :
    Balanced ((16 * c.n0.toNat + 1) * sixteenth) ((16 * c.n1.toNat + 1) * sixteenth) := by
  obtain ⟨h0, h1, -⟩ := h
  refine Balanced.mul_right ?_ _
  unfold Balanced
  omega

/-- R110: the KT pair has one divisor. -/
theorem ktPair_eq (c : Counts) :
    ktPair c =
      { zero := numDiv (numAdd (numOfNat c.n0.toNat) ktA)
          (numAdd (numAdd (numOfNat c.n0.toNat) (numOfNat c.n1.toNat)) ktB)
        one := numDiv (numAdd (numOfNat c.n1.toNat) ktA)
          (numAdd (numAdd (numOfNat c.n0.toNat) (numOfNat c.n1.toNat)) ktB) } := by
  simp only [ktPair, kt, Bool.false_eq_true, if_false, if_true]

/-- R123: the leaf's probabilities. -/
theorem pairOk_ktPair {c : Counts} (h : CountsOk c) : PairOk (ktPair c) := by
  have hsum : (16 * c.n0.toNat + 16 * c.n1.toNat + 2) * sixteenth =
      (16 * c.n0.toNat + 1) * sixteenth + (16 * c.n1.toNat + 1) * sixteenth := by ring
  have ht := hasUnits_total c
  have hexact := roundedUnits_one ht.isUnits
  rw [← hexact, hsum] at ht
  rw [ktPair_eq]
  exact pairOk_normalized (hasUnits_pseudoCount c.n0) (hasUnits_pseudoCount c.n1) ht
    (balanced_pseudoCounts h) (two_pow_le_sixteenth.trans (sixteenth_le_pseudoCount _))
    (two_pow_le_sixteenth.trans (sixteenth_le_pseudoCount _))

/-! ### Masses -/

/-- The masses of a node that is not saturated: below 2^1011, and in balance or too small to count beside a
probability. -/
def MassOk (b : BitPair) : Prop :=
  ∃ u v, HasUnits b.zero u ∧ HasUnits b.one v ∧ (u ≤ massCeiling ∧ v ≤ massCeiling) ∧
    (Balanced u v ∨ (u ≤ 2 ^ 64 ∧ v ≤ 2 ^ 64))

/-- R125: the refined beta. -/
theorem hasUnits_refinedBeta {beta t : F64} {u q : Nat} (hbeta : HasUnits beta u) (hu : u ≤ betaCeiling)
    (ht : HasUnits t (q * sixteenth)) (hq : 2 ≤ q) :
    ∃ w ≤ 2 ^ 3 * betaCeiling, HasUnits (numDiv beta t) w := by
  have hpos : 0 < q * sixteenth := Nat.mul_pos (by omega) (by decide +kernel)
  have hle : u * unitsPerOne ≤ 2 ^ 3 * betaCeiling * (q * sixteenth) :=
    calc u * unitsPerOne ≤ betaCeiling * (16 * sixteenth) := by
          rw [unitsPerOne_eq_sixteenths]; exact Nat.mul_le_mul_right _ hu
      _ = 2 ^ 3 * betaCeiling * (2 * sixteenth) := by ring
      _ ≤ 2 ^ 3 * betaCeiling * (q * sixteenth) := by gcongr
  exact ⟨_, roundedUnits_le hpos (hasUnits_betaCeiling.isUnits.two_pow_mul 3) hle,
    hbeta.div ht hpos (roundedUnits_lt_overflow hpos
      (hle.trans (Nat.mul_le_mul_right _ two_pow_mul_betaCeiling_le)))⟩

/-- R125: a mass. -/
theorem hasUnits_mass {x y : F64} {w q : Nat} (hx : HasUnits x w) (hw : w ≤ 2 ^ 3 * betaCeiling)
    (hy : HasUnits y (q * sixteenth)) (hq : q ≤ 4065) :
    HasUnits (numMul x y) (roundedUnits (w * (q * sixteenth)) unitsPerOne) ∧
    roundedUnits (w * (q * sixteenth)) unitsPerOne ≤ massCeiling := by
  have hle : w * (q * sixteenth) ≤ massCeiling * unitsPerOne :=
    calc w * (q * sixteenth) ≤ 2 ^ 3 * betaCeiling * (4065 * sixteenth) := by gcongr
      _ = 4065 * betaCeiling * (8 * sixteenth) := by ring
      _ = massCeiling * (16 * sixteenth) := by rw [← two_mul_massCeiling]; ring
      _ = massCeiling * unitsPerOne := by rw [unitsPerOne_eq_sixteenths]
  have hmass := roundedUnits_le unitsPerOne_pos isUnits_massCeiling hle
  have hfit := two_pow_mul_massCeiling_lt_overflow
  exact ⟨hx.mul hy (by omega), hmass⟩

/-- A refined beta below `2 ^ 56` units gives a mass that no probability notices. -/
theorem small_mass {w q : Nat} (hw : w < 2 ^ 56) (hq : q ≤ 4065) :
    roundedUnits (w * (q * sixteenth)) unitsPerOne ≤ 2 ^ 64 := by
  refine roundedUnits_le unitsPerOne_pos (u := 2 ^ 64) ⟨13 * 2 ^ 52, by decide⟩ ?_
  calc w * (q * sixteenth) ≤ 2 ^ 56 * (4096 * sixteenth) := by gcongr; omega
    _ = 2 ^ 64 * unitsPerOne := by rw [unitsPerOne_eq_sixteenths]; ring

theorem massOk_nodeMass {v : CtNode} {u : Nat} (hcounts : CountsOk v.counts) (hbeta : HasUnits v.beta u)
    (hu : u ≤ betaCeiling) : MassOk (nodeMass v) := by
  obtain ⟨w, hw, hrefined⟩ := hasUnits_refinedBeta hbeta hu (hasUnits_total v.counts) (by omega)
  have ⟨h0, h1, _⟩ := hcounts
  obtain ⟨hzero, hle0⟩ := hasUnits_mass hrefined hw (hasUnits_pseudoCount v.counts.n0) (by omega)
  obtain ⟨hone, hle1⟩ := hasUnits_mass hrefined hw (hasUnits_pseudoCount v.counts.n1) (by omega)
  refine ⟨_, _, hzero, hone, ⟨hle0, hle1⟩, ?_⟩
  by_cases hsmall : w < 2 ^ 56
  · exact .inr ⟨small_mass hsmall (by omega), small_mass hsmall (by omega)⟩
  · have hnormal : ∀ n, 2 ^ 52 * unitsPerOne ≤ w * ((16 * n + 1) * sixteenth) := fun n =>
      calc 2 ^ 52 * unitsPerOne = 2 ^ 56 * sixteenth := by rw [unitsPerOne_eq_sixteenths]; ring
        _ ≤ w * ((16 * n + 1) * sixteenth) :=
          Nat.mul_le_mul (Nat.le_of_not_lt hsmall) (sixteenth_le_pseudoCount n)
    have hbalanced := (balanced_pseudoCounts hcounts).mul_right w
    rw [Nat.mul_comm _ w, Nat.mul_comm _ w] at hbalanced
    exact .inl (hbalanced.rounded unitsPerOne_pos (hnormal _) (hnormal _))

/-! ### Mixing and the new beta -/

/-- R125: the rounded sums of masses and probabilities. -/
theorem Balanced.mixed {a b u v : Nat} (hmass : Balanced a b ∨ (a ≤ 2 ^ 64 ∧ b ≤ 2 ^ 64))
    (h : Balanced u v) (hu : IsUnits u) (hv : IsUnits v) (hleast : leastProb ≤ u)
    (hleast' : leastProb ≤ v) :
    Balanced (roundedUnits (a + u) 1) (roundedUnits (b + v) 1) := by
  have hlarge := two_pow_le_leastProb
  obtain hab | ⟨ha, hb⟩ := hmass
  · exact (hab.add h).rounded Nat.one_pos (by omega) (by omega)
  · rwa [Nat.add_comm a, Nat.add_comm b, roundedUnits_add_small (k := 66) hu (by omega) (by omega),
      roundedUnits_add_small (k := 66) hv (by omega) (by omega)]

theorem pairOk_mixPair {b c : BitPair} (hb : MassOk b) (hc : PairOk c) : PairOk (mixPair b c) := by
  obtain ⟨u, v, hu, hv, ⟨hule, hvle⟩, hmass⟩ := hb
  obtain ⟨u', v', hu', hv', hbal, ⟨hlow, hhigh⟩, hlow', hhigh'⟩ := hc
  have hlarge := two_pow_le_leastProb
  have hone := unitsPerOne_le_massCeiling
  have h0 := hu.add hu' (roundedUnits_lt_overflow Nat.one_pos (by omega))
  have h1 := hv.add hv' (roundedUnits_lt_overflow Nat.one_pos (by omega))
  have hle0 : roundedUnits (u + u') 1 ≤ 2 ^ 1 * massCeiling :=
    roundedUnits_le Nat.one_pos (isUnits_massCeiling.two_pow_mul 1) (by omega)
  have hle1 : roundedUnits (v + v') 1 ≤ 2 ^ 1 * massCeiling :=
    roundedUnits_le Nat.one_pos (isUnits_massCeiling.two_pow_mul 1) (by omega)
  have hge0 : u' ≤ roundedUnits (u + u') 1 := le_roundedUnits Nat.one_pos hu'.isUnits (by omega)
  have hge1 : v' ≤ roundedUnits (v + v') 1 := le_roundedUnits Nat.one_pos hv'.isUnits (by omega)
  exact pairOk_normalized h0 h1 (h0.add h1 (roundedUnits_lt_overflow Nat.one_pos (by omega)))
    (.mixed hmass hbal hu'.isUnits hv'.isUnits hlow hlow') (by omega) (by omega)

/-- R126, R133(c): the quotient of a mass and a probability stays finite. -/
theorem hasUnits_mass_div_prob {x y : F64} {u v : Nat} (hx : HasUnits x u) (hu : u ≤ massCeiling)
    (hy : HasUnits y v) (hv : leastProb ≤ v) : ∃ w, HasUnits (numDiv x y) w := by
  have hlarge := two_pow_le_leastProb
  refine ⟨_, hx.div hy (by omega) (roundedUnits_lt_overflow (by omega) ?_)⟩
  calc u * unitsPerOne ≤ massCeiling * (2 ^ 13 * v) := by
        rw [unitsPerOne_eq_leastProb]; gcongr
    _ = 2 ^ 13 * massCeiling * v := by ring

theorem finiteBeta_mass_div_prob {b c : BitPair} (bit : Bool) (hb : MassOk b) (hc : PairOk c) :
    FiniteBeta (numDiv (b.get bit) (c.get bit)) := by
  obtain ⟨u, v, hu, hv, ⟨hule, hvle⟩, -⟩ := hb
  obtain ⟨u', v', hu', hv', -, ⟨hlow, -⟩, hlow', -⟩ := hc
  rw [finiteBeta_iff]
  cases bit with
  | false => exact hasUnits_mass_div_prob hu hule hu' hlow
  | true => exact hasUnits_mass_div_prob hv hvle hv' hlow'

/-! ### The update -/

/-- A node as O28 assumes it. -/
abbrev NodeOk (v : CtNode) : Prop := CountsOk v.counts ∧ FiniteBeta v.beta

theorem nodeOk_newNode : NodeOk newNode :=
  ⟨by decide, finiteBeta_iff.mpr ⟨_, hasUnits_numOne⟩⟩

/-- D8: BETA_MAX is a value, at most 2^1000. -/
theorem hasUnits_betaMax {p : Params} (hp : ParamsOk p) : ∃ u ≤ betaCeiling, HasUnits p.betaMax u := by
  obtain ⟨hone, hceil, -⟩ := hp
  obtain ⟨-, hlow⟩ := numLt_iff_key.mp hone
  obtain ⟨-, hhigh⟩ := numLe_iff_key.mp hceil
  have hkey := natAbs_numKey p.betaMax
  have hzero : 0 ≤ numKey numOne := by decide
  have htop : numKey 0x7E70000000000000#64 < infMag := by decide
  have hval : HasUnits p.betaMax _ := hasUnits_of_finite (by omega)
    ((numSigned_le_iff 0#64 p.betaMax).mpr (hzero.trans hlow.le))
  exact ⟨_, (hval.numLe_iff hasUnits_betaCeiling).mp hceil, hval⟩

theorem massOk_of_not_saturated {p : Params} {v : CtNode} (hp : ParamsOk p) (hv : NodeOk v)
    (hsat : saturated p v = false) : MassOk (nodeMass v) := by
  obtain ⟨max, hmax, hbetaMax⟩ := hasUnits_betaMax hp
  obtain ⟨u, hbeta⟩ := finiteBeta_iff.mp hv.2
  have hlt : ¬ max ≤ u := fun h => Bool.eq_false_iff.mp hsat ((hbetaMax.numLe_iff hbeta).mpr h)
  exact massOk_nodeMass hv.1 hbeta (by omega)

theorem pairOk_mixPath {p : Params} {vs : List CtNode} (hp : ParamsOk p) (c i : Nat)
    (hvs : ∀ v ∈ vs, NodeOk v) : ∀ pair ∈ (mixPath p c i vs).pr, PairOk pair := by
  induction vs generalizing i with
  | nil => exact fun _ h => absurd h List.not_mem_nil
  | cons v vs ih =>
    obtain ⟨hv, hvs⟩ := List.forall_mem_cons.mp hvs
    cases vs with
    | nil => exact List.forall_mem_singleton.mpr (pairOk_ktPair hv.1)
    | cons w vs =>
      have hbelow := ih (i + 1) hvs
      have hlen := (mixPath_lengths p c (i + 1) (w :: vs)).1
      have hchild := hbelow _ (topPair_mem (List.ne_nil_of_length_eq_add_one hlen))
      rw [mixPath_cons_cons]
      refine List.forall_mem_cons.mpr ⟨?_, hbelow⟩
      split
      · exact hchild
      · next hsat =>
        exact pairOk_mixPair (massOk_of_not_saturated hp hv (Bool.eq_false_iff.mpr hsat)) hchild

/-- R124, R126: the beta an update gives an internal node. -/
theorem finiteBeta_betaAfter {p : Params} {v : CtNode} {b child : BitPair} (bit : Bool) (hp : ParamsOk p)
    (hv : NodeOk v) (hchild : PairOk child) (hb : saturated p v = false → b = nodeMass v) :
    FiniteBeta (betaAfter p bit (saturated p v) v b child) := by
  cases hsat : saturated p v with
  | false =>
    rw [betaAfter_mixed, hb hsat]
    exact finiteBeta_mass_div_prob bit (massOk_of_not_saturated hp hv hsat) hchild
  | true =>
    rw [betaAfter, if_pos rfl]
    cases p.satPolicy with
    | reset => exact nodeOk_newNode.2
    | sticky => exact hv.2

section
variable {p : Params} {n : Nat} {m : Model} (hp : ParamsOk p) (hnodes : ∀ e ∈ treeOf m n, NodeOk e.2)
include hnodes

theorem nodeOk_pathNode (i : Nat) : NodeOk (pathNode m n i) := by
  unfold pathNode
  cases hget : treeGet (treeOf m n) (pathKey m i) with
  | none => exact nodeOk_newNode
  | some v => exact hnodes _ (mem_of_treeGet hget)

include hp

theorem pairOk_walkedMix : ∀ pair ∈ (walkedMix p m n).pr, PairOk pair :=
  pairOk_mixPath hp _ _ fun v hv => by
    obtain ⟨i, -, rfl⟩ := List.mem_map.mp hv
    exact nodeOk_pathNode hnodes i

theorem finiteBeta_updateNode {i : Nat} (bit : Bool) (hi : i < m.d.toNat) :
    FiniteBeta (updateNode p bit (walkedMix p m n) i (pathNode m n i)).beta := by
  obtain ⟨hpr, hbm, hsat⟩ := walkedMix_lengths p m n
  by_cases hlast : i + 1 = m.d.toNat
  · rw [updateNode_beta_leaf _ _ _ (List.getElem?_eq_none (by omega))]
    exact (nodeOk_pathNode hnodes i).2
  · have hchild : (walkedMix p m n).pr[i + 1]? = some _ := List.getElem?_eq_getElem (by omega)
    have hmass : (walkedMix p m n).bm[i]? = some _ := List.getElem?_eq_getElem (by omega)
    obtain ⟨hs, -, hb⟩ := walkedMix_internal p m n hchild
    rw [updateNode_beta_internal p bit _ hs hmass hchild]
    exact finiteBeta_betaAfter bit hp (nodeOk_pathNode hnodes i)
      (pairOk_walkedMix hp hnodes _ (List.getElem_mem _)) fun h => Option.some.inj (hmass.symm.trans (hb h))

end

/-- The bounds of O28 on one pair. -/
theorem PairOk.bounds {c : BitPair} (h : PairOk c) :
    numLe 0x3F20000000000000#64 c.zero = true ∧ numLt c.zero numOne = true ∧
    numLe 0x3F20000000000000#64 c.one = true ∧ numLt c.one numOne = true := by
  obtain ⟨u, v, hu, hv, -, ⟨hlow, hhigh⟩, hlow', hhigh'⟩ := h
  exact ⟨(hasUnits_leastProb.numLe_iff hu).mpr hlow, (hu.numLt_iff hasUnits_numOne).mpr hhigh,
    (hasUnits_leastProb.numLe_iff hv).mpr hlow', (hv.numLt_iff hasUnits_numOne).mpr hhigh'⟩

/-- Settles O28: every pair of the path is in balance, by induction from the leaf up; a node of the new tree is
an old one, a new one or one written from such pairs. -/
theorem updateKeepsProbabilitiesPositiveAndBetasFinite :
    Obligations.UpdateKeepsProbabilitiesPositiveAndBetasFinite := by
  intro p n bit k m _ _ hp hhist hnodes
  constructor
  · intro c hc
    rw [ctUpdate_scratch p n bit k hhist] at hc
    exact (pairOk_walkedMix hp hnodes c hc).bounds
  · intro e he
    rw [ctUpdate_tree p n bit k hhist] at he
    obtain he | he := mem_putNodes he
    · obtain he | he := mem_createPath he
      · exact (hnodes e he).2
      · exact he ▸ nodeOk_newNode.2
    · obtain ⟨i, hi, heq⟩ := List.mem_mapIdx.mp he
      rw [← heq, walkedNodes_getElem]
      exact finiteBeta_updateNode hp hnodes bit (walkedNodes_length m n ▸ hi)

end Sys2Proof.Machine
end

/-! ### Emitted bits

The packer as a list of bits: what OutBit, EmitPend and Flush append to the bits emitted before. -/
section
namespace Sys2Proof.Machine

/-- The low `n` bits of a byte, most significant first: a byte of OUT has 8 of them, the packer PCNT. -/
def lowBits (n : Nat) (b : Byte) : List Bool := (List.range n).map (fun i => b.getLsbD (n - 1 - i))

theorem byteBits_eq_lowBits (b : Byte) : byteBits b = lowBits 8 b := rfl

theorem emittedBits_eq (e : Encoder) :
    emittedBits e = outStream e.out ++ lowBits e.cnt.toNat e.acc := rfl

@[simp] theorem lowBits_length (n : Nat) (b : Byte) : (lowBits n b).length = n := by simp [lowBits]

theorem outStream_concat (out : List Byte) (b : Byte) :
    outStream (out ++ [b]) = outStream out ++ lowBits 8 b := by
  simp [outStream, byteBits_eq_lowBits]

/-- R189: shifting a bit into a packer that has room for it. -/
theorem lowBits_shift_in (x : Bool) (acc : Byte) {n : Nat} (hn : n < 8) :
    lowBits (n + 1) (BitVec.ofNat 8 (2 * acc.toNat + x.toNat)) = lowBits n acc ++ [x] := by
  have hbit : ∀ i < 8, (BitVec.ofNat 8 (2 * acc.toNat + x.toNat)).getLsbD i =
      (Nat.bit x acc.toNat).testBit i := fun i hi => by
    rw [Nat.bit_val, BitVec.getLsbD_ofNat, decide_eq_true hi, Bool.true_and]
  simp only [lowBits, List.range_succ, List.map_append, List.map_cons, List.map_nil, Nat.add_sub_cancel,
    Nat.sub_self]
  congr 1
  · refine List.map_congr_left fun i hi => ?_
    have hlt := List.mem_range.mp hi
    rw [hbit _ (by omega), show n - i = n - 1 - i + 1 by omega, Nat.testBit_bit_succ,
      BitVec.testBit_toNat]
  · rw [hbit 0 (by omega), Nat.testBit_bit_zero]

/-- R190: the byte of a packer that is padded with 0 bits. -/
theorem lowBits_padded (acc : Byte) {n : Nat} (hn : n ≤ 8) :
    lowBits 8 (BitVec.ofNat 8 (acc.toNat * 2 ^ (8 - n))) = lowBits n acc ++ List.replicate (8 - n) false := by
  refine List.ext_getElem (by simp; omega) fun i hi _ => ?_
  rw [lowBits_length] at hi
  simp only [lowBits, List.getElem_map, List.getElem_range, List.getElem_append, List.length_map,
    List.length_range, List.getElem_replicate, BitVec.getLsbD_ofNat, Nat.testBit_mul_two_pow]
  split
  · rw [show 8 - 1 - i - (8 - n) = n - 1 - i by omega, BitVec.testBit_toNat,
      decide_eq_true (by omega), decide_eq_true (by omega), Bool.true_and, Bool.true_and]
  · rw [decide_eq_false (show ¬ 8 - n ≤ 8 - 1 - i by omega), Bool.false_and, Bool.and_false]

/-! ### OutBit and EmitPend -/

theorem outBit_of_full (x : Bool) {e : Encoder} (h : e.cnt.toNat + 1 = 8) :
    outBit x e = { e with
      out := e.out ++ [BitVec.ofNat 8 (2 * e.acc.toNat + x.toNat)], acc := 0, cnt := 0 } := if_pos h

theorem outBit_of_room (x : Bool) {e : Encoder} (h : e.cnt.toNat + 1 ≠ 8) :
    outBit x e = { e with acc := BitVec.ofNat 8 (2 * e.acc.toNat + x.toNat), cnt := e.cnt + 1 } := if_neg h

theorem cnt_succ_toNat {c : BitVec 3} (h : c.toNat + 1 ≠ 8) : (c + 1).toNat = c.toNat + 1 := by
  bv_omega

@[simp] theorem emittedBits_outBit (x : Bool) (e : Encoder) :
    emittedBits (outBit x e) = emittedBits e ++ [x] := by
  have hshift := lowBits_shift_in x e.acc e.cnt.isLt
  by_cases hfull : e.cnt.toNat + 1 = 8
  · rw [hfull] at hshift
    rw [outBit_of_full x hfull, emittedBits_eq, emittedBits_eq, outStream_concat, hshift]
    simp [lowBits]
  · rw [outBit_of_room x hfull, emittedBits_eq, emittedBits_eq, cnt_succ_toNat hfull, hshift,
      List.append_assoc]

theorem packerOk_outBit (x : Bool) {e : Encoder} (h : PackerOk e) : PackerOk (outBit x e) := by
  by_cases hfull : e.cnt.toNat + 1 = 8
  · rw [outBit_of_full x hfull]
    exact Nat.one_pos
  · have hx := x.toNat_lt
    rw [outBit_of_room x hfull, PackerOk, cnt_succ_toNat hfull, BitVec.toNat_ofNat, pow_succ]
    have := Nat.mod_le (2 * e.acc.toNat + x.toNat) (2 ^ 8)
    have : e.acc.toNat < 2 ^ e.cnt.toNat := h
    omega

@[simp] theorem emittedBits_outBits (x : Bool) (n : Nat) (e : Encoder) :
    emittedBits (outBits x n e) = emittedBits e ++ List.replicate n x := by
  induction n generalizing e with
  | zero => simp [outBits]
  | succ n ih => simp [outBits, ih, List.replicate_succ]

theorem packerOk_outBits (x : Bool) (n : Nat) {e : Encoder} (h : PackerOk e) : PackerOk (outBits x n e) := by
  induction n generalizing e with
  | zero => exact h
  | succ n ih => exact ih (packerOk_outBit x h)

@[simp] theorem emittedBits_emitPend (x : Bool) (e : Encoder) :
    emittedBits (emitPend x e) = emittedBits e ++ x :: List.replicate e.pend (!x) := by
  change emittedBits (outBits (!x) e.pend (outBit x e)) = _
  simp

theorem packerOk_emitPend (x : Bool) {e : Encoder} (h : PackerOk e) : PackerOk (emitPend x e) :=
  packerOk_outBits (!x) e.pend (packerOk_outBit x h)

/-! ### Flush -/

@[simp] theorem padOut_low (e : Encoder) : (padOut e).low = e.low := by unfold padOut; split <;> rfl
@[simp] theorem padOut_high (e : Encoder) : (padOut e).high = e.high := by unfold padOut; split <;> rfl
@[simp] theorem padOut_pend (e : Encoder) : (padOut e).pend = e.pend := by unfold padOut; split <;> rfl

@[simp] theorem padOut_cnt (e : Encoder) : (padOut e).cnt = 0 := by
  unfold padOut
  split
  · rfl
  · bv_omega

theorem padOut_acc {e : Encoder} (h : PackerOk e) : (padOut e).acc = 0 := by
  unfold padOut
  split
  · rfl
  · have hcnt : e.cnt.toNat = 0 := by omega
    have hacc : e.acc.toNat < 2 ^ e.cnt.toNat := h
    rw [hcnt] at hacc
    bv_omega

/-- R190: fewer than 8 zero bits make the bits in the packer a byte. -/
theorem outStream_padOut (e : Encoder) :
    ∃ n < 8, outStream (padOut e).out = emittedBits e ++ List.replicate n false := by
  have hlt := e.cnt.isLt
  unfold padOut
  split
  · exact ⟨8 - e.cnt.toNat, by omega, by
      rw [outStream_concat, lowBits_padded _ hlt.le, emittedBits_eq, List.append_assoc]⟩
  · have hcnt : e.cnt.toNat = 0 := by omega
    exact ⟨0, by omega, by simp [emittedBits_eq, hcnt, lowBits]⟩

/-- The bits an encoder has emitted once Flush has ended the code, before the padding (R190). -/
def codedBits (e : Encoder) : List Bool :=
  emittedBits e ++ decide (0x400000 ≤ e.low.toNat) ::
    List.replicate (e.pend + 1) (!decide (0x400000 ≤ e.low.toNat))

theorem outStream_flushBits (e : Encoder) :
    ∃ n < 8, outStream (flushBits e).out = codedBits e ++ List.replicate n false := by
  obtain ⟨n, hn, hout⟩ :=
    outStream_padOut (emitPend (decide (Config.qtr ≤ e.low.toNat)) { e with pend := e.pend + 1 })
  rw [emittedBits_emitPend] at hout
  exact ⟨n, hn, hout⟩

@[simp] theorem flushBits_low (e : Encoder) : (flushBits e).low = e.low := by simp [flushBits]
@[simp] theorem flushBits_high (e : Encoder) : (flushBits e).high = e.high := by simp [flushBits]
@[simp] theorem flushBits_pend (e : Encoder) : (flushBits e).pend = 0 := by simp [flushBits]
@[simp] theorem flushBits_cnt (e : Encoder) : (flushBits e).cnt = 0 := padOut_cnt _

theorem flushBits_acc {e : Encoder} (h : PackerOk e) : (flushBits e).acc = 0 :=
  padOut_acc (packerOk_emitPend _ (e := { e with pend := e.pend + 1 }) h)

/-! ### OUT read back as IN -/

/-- R69, R70: the decoder reads the bits of a byte string in order, and zeros after them. -/
theorem inBitAt_eq_outStream (out : List Byte) (i : Nat) :
    inBitAt out i = (outStream out)[i]?.getD false := by
  induction out generalizing i with
  | nil => simp [inBitAt, outStream]
  | cons b bs ih =>
    have hcons : outStream (b :: bs) = lowBits 8 b ++ outStream bs := by
      simp [outStream, byteBits_eq_lowBits]
    rw [hcons]
    by_cases hi : i < 8
    · rw [inBitAt_of_getElem? (b := b) (by simp [Nat.div_eq_of_lt hi]), Nat.mod_eq_of_lt hi,
        List.getElem?_append_left (by simpa using hi)]
      simp [lowBits, hi]
    · have hdiv : i / 8 = (i - 8) / 8 + 1 := by omega
      have hmod : i % 8 = (i - 8) % 8 := by omega
      rw [List.getElem?_append_right (by simpa using hi), lowBits_length, ← ih]
      simp [inBitAt, hdiv, hmod]

theorem inBitAt_flushBits (e : Encoder) (i : Nat) :
    inBitAt (flushBits e).out i = (codedBits e)[i]?.getD false := by
  obtain ⟨n, -, hout⟩ := outStream_flushBits e
  rw [inBitAt_eq_outStream, hout, List.getElem?_append]
  split
  · rfl
  · rw [List.getElem?_replicate, List.getElem?_eq_none (by omega)]
    split <;> rfl

end Sys2Proof.Machine
end

/-! ### Numbers read from a bit stream

`σ i` is the bit a decoder reads at INPOS = i. -/
section
namespace Sys2Proof.Machine

/-- The `n` bits of a stream from bit `k` on as an unsigned number, first bit most significant. -/
def bitsValue (σ : Nat → Bool) (k n : Nat) : Nat :=
  (List.range n).foldl (fun v i => 2 * v + (σ (k + i)).toNat) 0

@[simp] theorem bitsValue_zero (σ : Nat → Bool) (k : Nat) : bitsValue σ k 0 = 0 := rfl

theorem bitsValue_succ (σ : Nat → Bool) (k n : Nat) :
    bitsValue σ k (n + 1) = 2 * bitsValue σ k n + (σ (k + n)).toNat := by
  simp [bitsValue, List.range_succ]

theorem bitsValue_one (σ : Nat → Bool) (k : Nat) : bitsValue σ k 1 = (σ k).toNat := by
  simp [bitsValue_succ]

theorem bitsValue_add (σ : Nat → Bool) (k m n : Nat) :
    bitsValue σ k (m + n) = 2 ^ n * bitsValue σ k m + bitsValue σ (k + m) n := by
  induction n with
  | zero => simp
  | succ n ih =>
    rw [← Nat.add_assoc, bitsValue_succ, bitsValue_succ, ih, pow_succ, Nat.add_assoc k]
    ring

theorem bitsValue_lt (σ : Nat → Bool) (k n : Nat) : bitsValue σ k n < 2 ^ n := by
  induction n with
  | zero => exact Nat.one_pos
  | succ n ih =>
    have := (σ (k + n)).toNat_lt
    rw [bitsValue_succ, pow_succ]
    omega

section
variable {σ : Nat → Bool} {k n : Nat}

/-- A stream that shows the low `n` bits of `x` shows their value. -/
theorem bitsValue_of_testBit {x : Nat} (h : ∀ i < n, σ (k + i) = x.testBit (n - 1 - i)) :
    bitsValue σ k n = x % 2 ^ n := by
  induction n generalizing x with
  | zero => simp [Nat.mod_one]
  | succ n ih =>
    have hlow : (σ (k + n)).toNat = x % 2 := by
      rw [h n (by omega), Nat.add_sub_cancel, Nat.sub_self, Nat.toNat_testBit, pow_zero, Nat.div_one]
    have hhigh : bitsValue σ k n = x / 2 % 2 ^ n := ih fun i hi => by
      rw [h i (by omega), ← Nat.testBit_succ, show n + 1 - 1 - i = n - 1 - i + 1 by omega]
    rw [bitsValue_succ, hlow, hhigh, pow_succ', Nat.mod_mul, Nat.add_comm]

/-- The stream shows these bits from bit `k` on. -/
def Shows (σ : Nat → Bool) (k : Nat) (bits : List Bool) : Prop :=
  ∀ i b, bits[i]? = some b → σ (k + i) = b

theorem Shows.left {as bs : List Bool} (h : Shows σ k (as ++ bs)) : Shows σ k as :=
  fun i b hb => h i b (by rw [List.getElem?_append_left (List.getElem?_eq_some_iff.mp hb).1, hb])

theorem Shows.right {as bs : List Bool} (h : Shows σ k (as ++ bs)) :
    Shows σ (k + as.length) bs := fun i b hb => by
  rw [Nat.add_assoc]
  exact h _ b (by rw [List.getElem?_append_right (by omega), Nat.add_sub_cancel_left, hb])

/-- A run of equal bits: `n` zeros, or the number `2 ^ n - 1`. -/
theorem Shows.bitsValue_replicate {x : Bool} (h : Shows σ k (List.replicate n x)) :
    bitsValue σ k n + x.toNat = 2 ^ n * x.toNat := by
  induction n with
  | zero => simp
  | succ n ih =>
    have hlast : σ (k + n) = x := h n x (by simp)
    rw [List.replicate_succ'] at h
    rw [bitsValue_succ, hlast, pow_succ]
    have := ih h.left
    linarith

/-- R187: a bit and `n` complements of it are `2 ^ n` or one less. -/
theorem Shows.bitsValue_pending {x : Bool} (h : Shows σ k (x :: List.replicate n (!x))) :
    bitsValue σ k (n + 1) + 1 = 2 ^ n + x.toNat := by
  have hfirst : σ k = x := h 0 x rfl
  have hrest := (Shows.right (as := [x]) h).bitsValue_replicate
  have hflip : (!x).toNat + x.toNat = 1 := by cases x <;> rfl
  have hsum : 2 ^ n * (!x).toNat + 2 ^ n * x.toNat = 2 ^ n := by rw [← Nat.mul_add, hflip, Nat.mul_one]
  rw [Nat.add_comm n 1, bitsValue_add, bitsValue_one, hfirst]
  simp only [List.length_singleton] at hrest
  linarith

end

end Sys2Proof.Machine
end

/-! ### The interval -/
section
namespace Sys2Proof.Machine

/-- R185: case (a). -/
theorem scalingOf_eq_e1 {low high : Bound} (h : high.toNat < 0x800000) :
    scalingOf low high = some .e1 := if_pos h

/-- R185: case (b). -/
theorem scalingOf_eq_e2 {low high : Bound} (hhigh : 0x800000 ≤ high.toNat) (hlow : 0x800000 ≤ low.toNat) :
    scalingOf low high = some .e2 := (if_neg (not_lt_of_ge hhigh)).trans (if_pos hlow)

/-- R185: what is left to case (c), or to the exit, once (a) and (b) do not apply. -/
theorem scalingOf_straddling {low high : Bound} (hlow : low.toNat < 0x800000)
    (hhigh : 0x800000 ≤ high.toNat) :
    scalingOf low high = if 0x400000 ≤ low.toNat ∧ high.toNat < 0xC00000 then some .e3 else none :=
  (if_neg (not_lt_of_ge hhigh)).trans (if_neg (not_le_of_gt hlow))

/-- R188: between commands no case applies. -/
theorem scalingOf_eq_none_iff (low high : Bound) : scalingOf low high = none ↔ IntervalOk low high := by
  refine ⟨scalingOf_none, fun ⟨hlow, hhigh, hquarter⟩ => ?_⟩
  rw [scalingOf_straddling hlow hhigh, if_neg (by omega)]

/-- R184: the 1 part, on whole numbers. -/
theorem narrow_true {t : Nat} {low high : Bound} (h : low.toNat + t ≤ high.toNat) :
    (narrow true t low high).1.toNat = low.toNat + t ∧ (narrow true t low high).2 = high :=
  ⟨by rw [narrow, if_pos rfl, BitVec.toNat_ofNat]; have := high.isLt; omega, rfl⟩

/-- R184: the 0 part, on whole numbers. -/
theorem narrow_false {t : Nat} {low high : Bound} (h : low.toNat + t ≤ high.toNat) :
    (narrow false t low high).1 = low ∧ (narrow false t low high).2.toNat = low.toNat + t - 1 :=
  ⟨rfl, by rw [narrow, if_neg Bool.false_ne_true, BitVec.toNat_ofNat]; have := high.isLt; omega⟩

/-- R183: between commands the threshold leaves both parts non-empty. -/
theorem thresh_bounds_of_intervalOk (p0 : F64) {low high : Bound} (h : IntervalOk low high) :
    1 ≤ thresh p0 (rangeOf low high) ∧ low.toNat + thresh p0 (rangeOf low high) ≤ high.toNat := by
  obtain ⟨hlow, hhigh, -⟩ := h
  have hrange : rangeOf low high = high.toNat + 1 - low.toNat := rfl
  obtain ⟨hmin, hmax⟩ := thresh_bounds p0 (r := rangeOf low high) (by omega)
  exact ⟨hmin, by omega⟩

/-- R188: every pass doubles the range. -/
theorem rangeOf_scale {c : Scaling} {low high : Bound} (h : scalingOf low high = some c)
    (hle : low.toNat ≤ high.toNat) :
    (scaleLow c low).toNat ≤ (scaleHigh c high).toNat ∧
    rangeOf (scaleLow c low) (scaleHigh c high) = 2 * rangeOf low high := by
  obtain ⟨hoff, -⟩ := scalingOf_some h
  rw [rangeOf, rangeOf, scaleLow_toNat h hle, scaleHigh_toNat h]
  omega

/-! ### The renormalization loops -/

theorem encRenorm_of_none {e : Encoder} (fuel : Nat) (h : scalingOf e.low e.high = none) :
    encRenorm fuel e = e := by
  cases fuel with
  | zero => rfl
  | succ fuel => rw [encRenorm_succ, h]

theorem encRenorm_of_some {e : Encoder} {c : Scaling} (fuel : Nat) (h : scalingOf e.low e.high = some c) :
    encRenorm (fuel + 1) e = encRenorm fuel (encPass c e) := by rw [encRenorm_succ, h]

theorem decRenorm_of_none (inp : List Byte) {d : Decoder} (fuel : Nat) (h : scalingOf d.low d.high = none) :
    decRenorm inp fuel d = d := by
  cases fuel with
  | zero => rfl
  | succ fuel => rw [decRenorm_succ, h]

theorem decRenorm_of_some (inp : List Byte) {d : Decoder} {c : Scaling} (fuel : Nat)
    (h : scalingOf d.low d.high = some c) :
    decRenorm inp (fuel + 1) d = decRenorm inp fuel (decPass inp c d) := by rw [decRenorm_succ, h]

/-- R188: no range exceeds 2^24, so the loop ends when the passes left suffice to reach it. -/
theorem encRenorm_intervalOk {fuel : Nat} {e : Encoder} (hle : e.low.toNat ≤ e.high.toNat)
    (hfuel : 2 ^ 24 ≤ 2 ^ fuel * rangeOf e.low e.high) :
    IntervalOk (encRenorm fuel e).low (encRenorm fuel e).high := by
  induction fuel generalizing e with
  | zero =>
    have := e.high.isLt
    simp only [rangeOf, pow_zero, one_mul] at hfuel
    change IntervalOk e.low e.high
    exact ⟨by omega, by omega, by omega⟩
  | succ fuel ih =>
    cases hc : scalingOf e.low e.high with
    | none =>
      rw [encRenorm_of_none _ hc]
      exact (scalingOf_eq_none_iff ..).mp hc
    | some c =>
      obtain ⟨hle', hrange⟩ := rangeOf_scale hc hle
      rw [encRenorm_of_some _ hc]
      refine ih (by simpa using hle') ?_
      rw [encPass_low, encPass_high, hrange]
      calc 2 ^ 24 ≤ 2 ^ (fuel + 1) * rangeOf e.low e.high := hfuel
        _ = 2 ^ fuel * (2 * rangeOf e.low e.high) := by ring

/-- The encoder of EncodeBit when its loop starts (R184). -/
def narrowed (bit : Bool) (p0 : F64) (e : Encoder) : Encoder :=
  { e with
    low := (narrow bit (thresh p0 (rangeOf e.low e.high)) e.low e.high).1
    high := (narrow bit (thresh p0 (rangeOf e.low e.high)) e.low e.high).2 }

theorem encodeBit_eq (bit : Bool) (p0 : F64) (e : Encoder) :
    encodeBit bit p0 e = encRenorm maxPasses (narrowed bit p0 e) := rfl

section
variable (bit : Bool) (p0 : F64) {e : Encoder}

theorem narrowed_true (h : IntervalOk e.low e.high) :
    (narrowed true p0 e).low.toNat = e.low.toNat + thresh p0 (rangeOf e.low e.high) ∧
    (narrowed true p0 e).high = e.high := narrow_true (thresh_bounds_of_intervalOk p0 h).2

theorem narrowed_false (h : IntervalOk e.low e.high) :
    (narrowed false p0 e).low = e.low ∧
    (narrowed false p0 e).high.toNat = e.low.toNat + thresh p0 (rangeOf e.low e.high) - 1 :=
  narrow_false (thresh_bounds_of_intervalOk p0 h).2

/-- R184: the part of a bit is not empty and lies in the interval. -/
theorem narrowed_within (h : IntervalOk e.low e.high) :
    e.low.toNat ≤ (narrowed bit p0 e).low.toNat ∧
    (narrowed bit p0 e).low.toNat ≤ (narrowed bit p0 e).high.toNat ∧
    (narrowed bit p0 e).high.toNat ≤ e.high.toNat := by
  obtain ⟨hmin, hmax⟩ := thresh_bounds_of_intervalOk p0 h
  cases bit with
  | true =>
    obtain ⟨hlow, hhigh⟩ := narrowed_true p0 h
    rw [hhigh]
    exact ⟨by omega, by omega, le_rfl⟩
  | false =>
    obtain ⟨hlow, hhigh⟩ := narrowed_false p0 h
    rw [hlow]
    exact ⟨le_rfl, by omega, by omega⟩

theorem encodeBit_intervalOk (h : IntervalOk e.low e.high) :
    IntervalOk (encodeBit bit p0 e).low (encodeBit bit p0 e).high := by
  obtain ⟨-, hle, -⟩ := narrowed_within bit p0 h
  have hpos : 0 < rangeOf (narrowed bit p0 e).low (narrowed bit p0 e).high := by rw [rangeOf]; omega
  exact encRenorm_intervalOk hle (Nat.le_mul_of_pos_right _ hpos)

end

/-- R188: the bounds of an interval between commands, in the rule's words. -/
theorem IntervalOk.bounds {low high : Bound} (h : IntervalOk low high) :
    low.toNat ≤ high.toNat ∧ high.toNat ≤ 0xFFFFFF ∧ low.toNat < 0x800000 ∧ 0x800000 ≤ high.toNat ∧
    0x400002 ≤ high.toNat - low.toNat + 1 ∧ scalingOf low high = none := by
  have hnone := (scalingOf_eq_none_iff low high).mpr h
  have := high.isLt
  obtain ⟨hlow, hhigh, hquarter⟩ := h
  exact ⟨by omega, by omega, hlow, hhigh, by omega, hnone⟩

/-! ### The decoder's loop beside the encoder's -/

/-- How many bits an encoder has determined: those emitted, and those pending. -/
def determined (e : Encoder) : Nat := (emittedBits e).length + e.pend

theorem emittedBits_encPass (c : Scaling) (e : Encoder) :
    emittedBits (encPass c e) = emittedBits (scalingEmit c e) := rfl

theorem pend_encPass (c : Scaling) (e : Encoder) : (encPass c e).pend = (scalingEmit c e).pend := rfl

/-- R185, R186: a pass on whole numbers. -/
theorem encPass_eq (c : Scaling) (e : Encoder) :
    encPass c e = { scalingEmit c e with
      low := BitVec.ofNat 24 (2 * (e.low.toNat - scalingOffset c))
      high := BitVec.ofNat 24 (2 * (e.high.toNat - scalingOffset c) + 1) } := by
  rw [encPass, scalingEmit_low, scalingEmit_high, scaleLow, scaleHigh]

/-- R186: every case determines one more bit. -/
theorem determined_encPass (c : Scaling) (e : Encoder) : determined (encPass c e) = determined e + 1 := by
  rw [determined, emittedBits_encPass, pend_encPass]
  cases c with
  | e1 => simp [scalingEmit, determined]; omega
  | e2 => simp [scalingEmit, determined]; omega
  | e3 => exact (Nat.add_assoc ..).symm

/-- R201: the decoder's loop makes the passes of the encoder's, one for each bit the encoder determines. -/
theorem decRenorm_mirrors (inp : List Byte) (fuel : Nat) {d : Decoder} {e : Encoder} (hlow : d.low = e.low)
    (hhigh : d.high = e.high) :
    (decRenorm inp fuel d).low = (encRenorm fuel e).low ∧
    (decRenorm inp fuel d).high = (encRenorm fuel e).high ∧
    d.pos ≤ (decRenorm inp fuel d).pos ∧
    determined (encRenorm fuel e) = determined e + ((decRenorm inp fuel d).pos - d.pos) := by
  induction fuel generalizing d e with
  | zero => exact ⟨hlow, hhigh, le_rfl, by simp [encRenorm, decRenorm]⟩
  | succ fuel ih =>
    cases hc : scalingOf e.low e.high with
    | none =>
      rw [encRenorm_of_none _ hc, decRenorm_of_none _ _ (by rw [hlow, hhigh, hc]), Nat.sub_self]
      exact ⟨hlow, hhigh, le_rfl, rfl⟩
    | some c =>
      rw [encRenorm_of_some _ hc, decRenorm_of_some _ _ (by rw [hlow, hhigh, hc])]
      obtain ⟨ihlow, ihhigh, ihpos, ihdet⟩ := ih (d := decPass inp c d) (e := encPass c e)
        (by simp [hlow]) (by simp [hhigh])
      rw [decPass_pos] at ihpos ihdet
      rw [determined_encPass] at ihdet
      exact ⟨ihlow, ihhigh, by omega, by omega⟩

theorem decRenorm_mode (inp : List Byte) (fuel : Nat) (d : Decoder) :
    (decRenorm inp fuel d).mode = d.mode := by
  induction fuel generalizing d with
  | zero => rfl
  | succ fuel ih =>
    rw [decRenorm_succ]
    split
    · rfl
    · rw [ih, decPass_mode]

/-- R201: the code after a pass, on whole numbers. -/
theorem decPass_code_toNat (inp : List Byte) (c : Scaling) (d : Decoder) :
    ((decPass inp c d).code.toNat : Int) =
      (2 * ((d.code.toNat : Int) - scalingOffset c) + (inBitAt inp d.pos).toNat) % 2 ^ 24 := by
  have hx := (inBitAt inp d.pos).toNat_lt
  have hoff : scalingOffset c < 2 ^ 24 := by cases c <;> decide
  change ((scaleCode c d.code (inBitAt inp d.pos)).toNat : Int) = _
  rw [scaleCode, BitVec.toNat_add, BitVec.toNat_mul, BitVec.toNat_sub, BitVec.toNat_ofNat, BitVec.toNat_ofNat,
    show (2 : Bound).toNat = 2 from rfl]
  omega

/-- R201: the code is shifted in the interval's frame. -/
theorem decPass_code_sub_low (inp : List Byte) {c : Scaling} {d : Decoder}
    (h : scalingOf d.low d.high = some c) :
    (decPass inp c d).code - (decPass inp c d).low =
      2 * (d.code - d.low) + BitVec.ofNat 24 (inBitAt inp d.pos).toNat := by
  obtain ⟨hoff, -⟩ := scalingOf_some h
  have hlow : scaleLow c d.low = 2 * (d.low - BitVec.ofNat 24 (scalingOffset c)) := by
    simp only [scaleLow, ← BitVec.natCast_eq_ofNat]
    push_cast [Nat.cast_sub hoff]
    simp
  rw [decPass_low, hlow]
  change scaleCode c d.code (inBitAt inp d.pos) - _ = _
  rw [scaleCode]
  ring

/-- R201: in the interval's frame each pass shifts the code left and takes in a bit of IN. -/
theorem decRenorm_code (inp : List Byte) (fuel : Nat) (d : Decoder) :
    ∃ n, (decRenorm inp fuel d).pos = d.pos + n ∧
      (decRenorm inp fuel d).code - (decRenorm inp fuel d).low =
        BitVec.ofNat 24 (2 ^ n) * (d.code - d.low) + BitVec.ofNat 24 (bitsValue (inBitAt inp) d.pos n) := by
  induction fuel generalizing d with
  | zero => exact ⟨0, rfl, by simp [decRenorm]⟩
  | succ fuel ih =>
    cases hc : scalingOf d.low d.high with
    | none => exact ⟨0, by rw [decRenorm_of_none _ _ hc]; rfl, by rw [decRenorm_of_none _ _ hc]; simp⟩
    | some c =>
      obtain ⟨n, hpos, hcode⟩ := ih (decPass inp c d)
      rw [decRenorm_of_some _ _ hc]
      refine ⟨n + 1, by rw [hpos, decPass_pos]; omega, ?_⟩
      rw [hcode, decPass_code_sub_low inp hc, decPass_pos, Nat.add_comm n 1, bitsValue_add, bitsValue_one]
      simp only [← BitVec.natCast_eq_ofNat]
      push_cast
      ring

/-- R201: the bit DecodeBit decides. -/
def decidedBit (p0 : F64) (d : Decoder) : Bool :=
  decide (d.low.toNat + thresh p0 (rangeOf d.low d.high) ≤ d.code.toNat)

/-- The decoder of DecodeBit when its loop starts, for the bit decided (R201). -/
def narrowedDec (bit : Bool) (p0 : F64) (d : Decoder) : Decoder :=
  { d with
    low := (narrow bit (thresh p0 (rangeOf d.low d.high)) d.low d.high).1
    high := (narrow bit (thresh p0 (rangeOf d.low d.high)) d.low d.high).2 }

theorem decodeBit_eq (inp : List Byte) (p0 : F64) (d : Decoder) :
    decodeBit inp p0 d =
      (decidedBit p0 d, decRenorm inp maxPasses (narrowedDec (decidedBit p0 d) p0 d)) := by
  have hbit :
      (!decide (d.code.toNat < d.low.toNat + thresh p0 (rangeOf d.low d.high))) = decidedBit p0 d := by
    rw [decidedBit, ← decide_not]
    exact decide_eq_decide.mpr not_lt
  rw [← hbit]
  rfl

theorem decodeBit_bit (inp : List Byte) (p0 : F64) (d : Decoder) :
    (decodeBit inp p0 d).1 = decidedBit p0 d := by
  rw [decodeBit_eq]

theorem decodeBit_dec (inp : List Byte) (p0 : F64) (d : Decoder) :
    (decodeBit inp p0 d).2 = decRenorm inp maxPasses (narrowedDec (decidedBit p0 d) p0 d) := by
  rw [decodeBit_eq]

@[simp] theorem narrowedDec_mode (bit : Bool) (p0 : F64) (d : Decoder) :
    (narrowedDec bit p0 d).mode = d.mode := rfl
@[simp] theorem narrowedDec_code (bit : Bool) (p0 : F64) (d : Decoder) :
    (narrowedDec bit p0 d).code = d.code := rfl
@[simp] theorem narrowedDec_pos (bit : Bool) (p0 : F64) (d : Decoder) :
    (narrowedDec bit p0 d).pos = d.pos := rfl

theorem determined_narrowed (bit : Bool) (p0 : F64) (e : Encoder) :
    determined (narrowed bit p0 e) = determined e := rfl

/-- R201: the decoder narrows as the encoder does. -/
theorem narrowedDec_mirrors (bit : Bool) (p0 : F64) {d : Decoder} {e : Encoder} (hlow : d.low = e.low)
    (hhigh : d.high = e.high) :
    (narrowedDec bit p0 d).low = (narrowed bit p0 e).low ∧
    (narrowedDec bit p0 d).high = (narrowed bit p0 e).high := by
  simp only [narrowedDec, narrowed, hlow, hhigh, and_self]

/-- R201: DecodeBit makes the passes of EncodeBit of the bit it decides. -/
theorem decodeBit_mirrors (inp : List Byte) (p0 : F64) {d : Decoder} {e : Encoder} (hlow : d.low = e.low)
    (hhigh : d.high = e.high) :
    (decodeBit inp p0 d).2.low = (encodeBit (decidedBit p0 d) p0 e).low ∧
    (decodeBit inp p0 d).2.high = (encodeBit (decidedBit p0 d) p0 e).high ∧
    d.pos ≤ (decodeBit inp p0 d).2.pos ∧
    determined (encodeBit (decidedBit p0 d) p0 e) = determined e + ((decodeBit inp p0 d).2.pos - d.pos) := by
  obtain ⟨hlow', hhigh'⟩ := narrowedDec_mirrors (decidedBit p0 d) p0 hlow hhigh
  have hloop := decRenorm_mirrors inp maxPasses hlow' hhigh'
  rwa [narrowedDec_pos, determined_narrowed, ← decodeBit_dec, ← encodeBit_eq] at hloop

theorem decodeBit_intervalOk (inp : List Byte) (p0 : F64) {d : Decoder} (h : IntervalOk d.low d.high) :
    IntervalOk (decodeBit inp p0 d).2.low (decodeBit inp p0 d).2.high := by
  obtain ⟨e, hlow, hhigh⟩ : ∃ e : Encoder, d.low = e.low ∧ d.high = e.high :=
    ⟨{ freshEncoder with low := d.low, high := d.high }, rfl, rfl⟩
  obtain ⟨hlow', hhigh', -⟩ := decodeBit_mirrors inp p0 hlow hhigh
  rw [hlow', hhigh']
  exact encodeBit_intervalOk _ p0 (hlow ▸ hhigh ▸ h)

theorem decodeBit_mode (inp : List Byte) (p0 : F64) (d : Decoder) :
    (decodeBit inp p0 d).2.mode = d.mode := by
  rw [decodeBit_dec, decRenorm_mode, narrowedDec_mode]

/-- R201: in the frame of the bit's part, DecodeBit shifts the code left by the bits it reads. -/
theorem decodeBit_code (inp : List Byte) (p0 : F64) (d : Decoder) :
    ∃ n, (decodeBit inp p0 d).2.pos = d.pos + n ∧
      (decodeBit inp p0 d).2.code - (decodeBit inp p0 d).2.low =
        BitVec.ofNat 24 (2 ^ n) *
            (d.code - if decidedBit p0 d then BitVec.ofNat 24 (d.low.toNat + thresh p0 (rangeOf d.low d.high))
              else d.low) +
          BitVec.ofNat 24 (bitsValue (inBitAt inp) d.pos n) := by
  have hlow : (narrowedDec (decidedBit p0 d) p0 d).low =
      if decidedBit p0 d then BitVec.ofNat 24 (d.low.toNat + thresh p0 (rangeOf d.low d.high)) else d.low :=
    apply_ite Prod.fst _ _ _
  have hloop := decRenorm_code inp maxPasses (narrowedDec (decidedBit p0 d) p0 d)
  rwa [narrowedDec_pos, narrowedDec_code, hlow, ← decodeBit_dec] at hloop

end Sys2Proof.Machine
end

/-! ### The code in the encoder's frame

What the decoder's code is while the bits it reads are those the encoder emits (R205). -/
section
namespace Sys2Proof.Machine

/-- The code of a decoder of the stream that stands where the encoder does: the window of 24 bits lies behind
the pending ones, and HALF has been subtracted `2 ^ pend - 1` times for those. -/
def frameCode (σ : Nat → Bool) (e : Encoder) : Int :=
  bitsValue σ (emittedBits e).length (e.pend + 24) - Config.half * (2 ^ e.pend - 1)

section
variable {σ : Nat → Bool} {e : Encoder}

/-- R186: a case that emits, with the bit it emits. -/
theorem frameCode_emitPend {x : Bool} (h : Shows σ 0 (emittedBits (emitPend x e))) :
    frameCode σ (emitPend x e) =
      2 * (frameCode σ e - Config.half * x.toNat) + (σ (determined e + 24)).toNat := by
  rw [emittedBits_emitPend] at h
  have hemit := h.right.bitsValue_pending
  rw [Nat.zero_add] at hemit
  have hsplit : 2 * bitsValue σ (emittedBits e).length (e.pend + 24) + (σ (determined e + 24)).toNat =
      2 ^ 24 * bitsValue σ (emittedBits e).length (e.pend + 1) +
        bitsValue σ ((emittedBits e).length + (e.pend + 1)) 24 := by
    rw [determined, Nat.add_assoc, ← bitsValue_succ, ← bitsValue_add, Nat.add_right_comm]
  have hlen : (emittedBits (emitPend x e)).length = (emittedBits e).length + (e.pend + 1) := by simp
  rw [frameCode, hlen, emitPend_pend, Nat.zero_add, pow_zero, frameCode, Config.half]
  zify at hemit hsplit
  push_cast
  linarith

theorem frameCode_encPass_eq (c : Scaling) :
    frameCode σ (encPass c e) = frameCode σ (scalingEmit c e) := by
  rw [frameCode, emittedBits_encPass, pend_encPass, frameCode]

/-- R201: what a pass does to the code, the code of the encoder's frame does too. -/
theorem frameCode_encPass {c : Scaling} (h : Shows σ 0 (emittedBits (encPass c e))) :
    frameCode σ (encPass c e) =
      2 * (frameCode σ e - scalingOffset c) + (σ (determined e + 24)).toNat := by
  rw [emittedBits_encPass] at h
  rw [frameCode_encPass_eq]
  cases c with
  | e1 => exact (frameCode_emitPend h).trans (by simp [scalingOffset])
  | e2 => exact (frameCode_emitPend h).trans (by simp [scalingOffset])
  | e3 =>
    have hpend : (scalingEmit .e3 e).pend = e.pend + 1 := rfl
    have hbits : emittedBits (scalingEmit .e3 e) = emittedBits e := rfl
    rw [frameCode, hpend, hbits, Nat.add_right_comm, bitsValue_succ, pow_succ, frameCode, determined,
      Nat.add_assoc, scalingOffset, Config.half, Config.qtr]
    push_cast
    ring

/-- The stream codes what the encoder has encoded: it shows the bits emitted, and the code lies in the
interval (R205). -/
def Codes (σ : Nat → Bool) (e : Encoder) : Prop :=
  Shows σ 0 (emittedBits e) ∧ (e.low.toNat : Int) ≤ frameCode σ e ∧ frameCode σ e ≤ e.high.toNat

theorem emittedBits_encPass_append (c : Scaling) (e : Encoder) :
    ∃ bits, emittedBits (encPass c e) = emittedBits e ++ bits := by
  rw [emittedBits_encPass]
  cases c with
  | e1 => exact ⟨_, emittedBits_emitPend false e⟩
  | e2 => exact ⟨_, emittedBits_emitPend true e⟩
  | e3 => exact ⟨[], (List.append_nil _).symm⟩

/-- A code that lies in the interval after a pass lay in it before. -/
theorem codes_of_encPass {c : Scaling} (hc : scalingOf e.low e.high = some c)
    (hle : e.low.toNat ≤ e.high.toNat) (h : Codes σ (encPass c e)) : Codes σ e := by
  obtain ⟨hshows, hlow, hhigh⟩ := h
  obtain ⟨hoff, -⟩ := scalingOf_some hc
  have hx := (σ (determined e + 24)).toNat_lt
  rw [frameCode_encPass hshows] at hlow hhigh
  rw [encPass_low, scaleLow_toNat hc hle] at hlow
  rw [encPass_high, scaleHigh_toNat hc] at hhigh
  obtain ⟨bits, hbits⟩ := emittedBits_encPass_append c e
  exact ⟨(hbits ▸ hshows).left, by omega, by omega⟩

theorem codes_of_encRenorm {fuel : Nat} (hle : e.low.toNat ≤ e.high.toNat)
    (h : Codes σ (encRenorm fuel e)) : Codes σ e := by
  induction fuel generalizing e with
  | zero => exact h
  | succ fuel ih =>
    cases hc : scalingOf e.low e.high with
    | none => rwa [encRenorm_of_none _ hc] at h
    | some c =>
      rw [encRenorm_of_some _ hc] at h
      exact codes_of_encPass hc hle (ih (by simpa using (rangeOf_scale hc hle).1) h)

/-- A code in the part of a bit lies in the interval that was narrowed. -/
theorem codes_of_encodeBit {bit : Bool} {p0 : F64} (hok : IntervalOk e.low e.high)
    (h : Codes σ (encodeBit bit p0 e)) : Codes σ e := by
  obtain ⟨hlow, hle, hhigh⟩ := narrowed_within bit p0 hok
  obtain ⟨hshows, hmin, hmax⟩ := codes_of_encRenorm hle h
  exact ⟨hshows, (Nat.cast_le.mpr hlow).trans hmin, hmax.trans (Nat.cast_le.mpr hhigh)⟩

theorem encodeEvents_intervalOk (events : List (Bool × F64)) (hok : IntervalOk e.low e.high) :
    IntervalOk (encodeEvents events e).low (encodeEvents events e).high := by
  induction events generalizing e with
  | nil => exact hok
  | cons ev events ih => exact ih (encodeBit_intervalOk ev.1 ev.2 hok)

theorem codes_of_encodeEvents {events : List (Bool × F64)} (hok : IntervalOk e.low e.high)
    (h : Codes σ (encodeEvents events e)) : Codes σ e := by
  induction events generalizing e with
  | nil => exact h
  | cons ev events ih => exact codes_of_encodeBit hok (ih (encodeBit_intervalOk ev.1 ev.2 hok) h)

end

/-- The flushed stream shows the coded bits and then zeros. -/
theorem shows_flushBits (e : Encoder) (n : Nat) :
    Shows (inBitAt (flushBits e).out) 0 (codedBits e ++ List.replicate n false) := by
  intro i b hb
  rw [Nat.zero_add, inBitAt_flushBits]
  rw [List.getElem?_append] at hb
  split at hb
  · rw [hb]; rfl
  · rw [List.getElem?_eq_none (by omega)]
    exact ((List.mem_replicate.mp (List.mem_of_getElem? hb)).2).symm

/-- R205: in the interval's frame the bits of Flush stand for QTR or, after a 1, for HALF. -/
theorem frameCode_flushBits (e : Encoder) :
    frameCode (inBitAt (flushBits e).out) e =
      0x400000 * (1 + (decide (0x400000 ≤ e.low.toNat)).toNat : Int) := by
  have hshows := shows_flushBits e 22
  have hpending := hshows.left.right.bitsValue_pending
  have hzeros := hshows.right.bitsValue_replicate
  have hlen : (codedBits e).length = (emittedBits e).length + (e.pend + 1 + 1) := by simp [codedBits]
  rw [Nat.zero_add, pow_succ] at hpending
  rw [hlen, Nat.zero_add, Bool.toNat_false, Nat.mul_zero, Nat.add_zero] at hzeros
  rw [frameCode, show e.pend + 24 = e.pend + 1 + 1 + 22 by omega, bitsValue_add, hzeros, Config.half]
  generalize decide (0x400000 ≤ e.low.toNat) = x at hpending ⊢
  zify at hpending
  push_cast
  linarith

theorem codes_flushBits {e : Encoder} (hok : IntervalOk e.low e.high) :
    Codes (inBitAt (flushBits e).out) e := by
  obtain ⟨hlow, hhigh, hquarter⟩ := hok
  refine ⟨(shows_flushBits e 0).left.left, ?_⟩
  rw [frameCode_flushBits]
  by_cases hqtr : 0x400000 ≤ e.low.toNat
  · rw [decide_eq_true hqtr, Bool.toNat_true]
    exact ⟨by omega, by omega⟩
  · rw [decide_eq_false hqtr, Bool.toNat_false]
    exact ⟨by omega, by omega⟩

/-! ### The decoder on the encoder's stream -/

/-- The decoder stands where the encoder does (R205): the same interval, INPOS behind the window, and the code
of the encoder's frame. -/
structure InStep (inp : List Byte) (d : Decoder) (e : Encoder) : Prop where
  low : d.low = e.low
  high : d.high = e.high
  pos : d.pos = determined e + 24
  code : (d.code.toNat : Int) = frameCode (inBitAt inp) e

section
variable {inp : List Byte} {d : Decoder} {e : Encoder} {bit : Bool} {p0 : F64}

theorem InStep.after_pass {c : Scaling} (h : InStep inp d e)
    (hcodes : Codes (inBitAt inp) (encPass c e)) : InStep inp (decPass inp c d) (encPass c e) where
  low := by rw [decPass_low, encPass_low, h.low]
  high := by rw [decPass_high, encPass_high, h.high]
  pos := by rw [decPass_pos, determined_encPass, h.pos, Nat.add_right_comm]
  code := by
    obtain ⟨hshows, hlow, hhigh⟩ := hcodes
    have := (encPass c e).high.isLt
    rw [decPass_code_toNat, h.pos, h.code, ← frameCode_encPass hshows]
    exact Int.emod_eq_of_lt (by omega) (by omega)

theorem InStep.after_renorm {fuel : Nat} (h : InStep inp d e) (hle : e.low.toNat ≤ e.high.toNat)
    (hcodes : Codes (inBitAt inp) (encRenorm fuel e)) :
    InStep inp (decRenorm inp fuel d) (encRenorm fuel e) := by
  induction fuel generalizing d e with
  | zero => exact h
  | succ fuel ih =>
    cases hc : scalingOf e.low e.high with
    | none => rwa [encRenorm_of_none _ hc, decRenorm_of_none _ _ (by rw [h.low, h.high, hc])]
    | some c =>
      have hle' : (encPass c e).low.toNat ≤ (encPass c e).high.toNat := by
        simpa using (rangeOf_scale hc hle).1
      rw [encRenorm_of_some _ hc] at hcodes ⊢
      rw [decRenorm_of_some _ _ (by rw [h.low, h.high, hc])]
      exact ih (h.after_pass (codes_of_encRenorm hle' hcodes)) hle' hcodes

theorem InStep.after_narrowing (h : InStep inp d e) (bit : Bool) (p0 : F64) :
    InStep inp (narrowedDec bit p0 d) (narrowed bit p0 e) where
  low := (narrowedDec_mirrors bit p0 h.low h.high).1
  high := (narrowedDec_mirrors bit p0 h.low h.high).2
  pos := h.pos
  code := h.code

/-- R205: the code lies in the part of the bit that was encoded, so that bit is decided. -/
theorem InStep.decidedBit_eq (h : InStep inp d e) (hok : IntervalOk e.low e.high)
    (hcodes : Codes (inBitAt inp) (narrowed bit p0 e)) :
    decidedBit p0 d = bit := by
  obtain ⟨-, hmin, hmax⟩ := hcodes
  obtain ⟨hpos, -⟩ := thresh_bounds_of_intervalOk p0 hok
  have hcode : (d.code.toNat : Int) = frameCode (inBitAt inp) (narrowed bit p0 e) := h.code
  rw [← hcode] at hmin hmax
  rw [decidedBit, h.low, h.high]
  cases bit with
  | true =>
    obtain ⟨hlow, -⟩ := narrowed_true p0 hok
    exact decide_eq_true (by omega)
  | false =>
    obtain ⟨-, hhigh⟩ := narrowed_false p0 hok
    exact decide_eq_false (by omega)

theorem InStep.after_decodeBit (h : InStep inp d e) (hok : IntervalOk e.low e.high)
    (hcodes : Codes (inBitAt inp) (encodeBit bit p0 e)) :
    (decodeBit inp p0 d).1 = bit ∧ InStep inp (decodeBit inp p0 d).2 (encodeBit bit p0 e) := by
  obtain ⟨-, hle, -⟩ := narrowed_within bit p0 hok
  have hbit := h.decidedBit_eq hok (codes_of_encRenorm hle hcodes)
  rw [decodeBit_bit, decodeBit_dec, hbit]
  exact ⟨rfl, (h.after_narrowing bit p0).after_renorm hle hcodes⟩

/-- R205, by induction over the events: a code that ends in the last interval lay in every one before. -/
theorem InStep.decodeEvents_eq {events : List (Bool × F64)} (h : InStep inp d e)
    (hok : IntervalOk e.low e.high) (hcodes : Codes (inBitAt inp) (encodeEvents events e)) :
    (decodeEvents inp (events.map (·.2)) d).1 = events.map (·.1) := by
  induction events generalizing d e with
  | nil => rfl
  | cons ev events ih =>
    have hok' := encodeBit_intervalOk ev.1 ev.2 hok
    obtain ⟨hbit, hstep⟩ := h.after_decodeBit hok (codes_of_encodeEvents hok' hcodes)
    exact congrArg₂ List.cons hbit (ih hstep hok' hcodes)

end

/-! ### Seeding -/

/-- R200: what seeding reads. -/
theorem seedCode_eq (inp : List Byte) (n : Nat) (d : Decoder) :
    seedCode inp n d = { d with
      code := BitVec.ofNat 24 (2 ^ n * d.code.toNat + bitsValue (inBitAt inp) d.pos n)
      pos := d.pos + n } := by
  induction n generalizing d with
  | zero => simp [seedCode]
  | succ n ih =>
    have hmod (a b : Nat) : BitVec.ofNat 24 (2 ^ n * (a % 2 ^ 24) + b) = BitVec.ofNat 24 (2 ^ n * a + b) := by
      apply BitVec.eq_of_toNat_eq
      simp [Nat.add_mod, Nat.mul_mod]
    rw [seedCode, ih, Nat.add_comm n 1, bitsValue_add, bitsValue_one]
    simp only [inBit_bit, inBit_pos, BitVec.toNat_ofNat, hmod]
    simp only [inBit, Decoder.mk.injEq, true_and]
    exact ⟨by congr 1; rw [pow_add]; ring, by omega⟩

theorem seedDecoder_eq (inp : List Byte) :
    seedDecoder inp = { mode := .active, low := 0x000000, high := 0xFFFFFF
                        code := BitVec.ofNat 24 (bitsValue (inBitAt inp) 0 24), pos := 24 } := by
  rw [seedDecoder, seedCode_eq]
  simp

theorem frameCode_freshEncoder (σ : Nat → Bool) : frameCode σ freshEncoder = bitsValue σ 0 24 :=
  Int.sub_zero _

theorem inStep_seedDecoder (inp : List Byte) : InStep inp (seedDecoder inp) freshEncoder := by
  rw [seedDecoder_eq]
  exact
    { low := rfl
      high := rfl
      pos := rfl
      code := by rw [frameCode_freshEncoder, BitVec.toNat_ofNat, Nat.mod_eq_of_lt (bitsValue_lt ..)] }

/-! ### The bytes of IN -/

/-- R69: eight bits of IN are a byte of it. -/
theorem bitsValue_inBitAt (inp : List Byte) (j : Nat) :
    bitsValue (inBitAt inp) (8 * j) 8 = (inByteOrZero inp j).toNat := by
  rw [bitsValue_of_testBit (x := (inByteOrZero inp j).toNat), Nat.mod_eq_of_lt (inByteOrZero inp j).isLt]
  intro i hi
  have hdiv : (8 * j + i) / 8 = j := by omega
  have hmod : (8 * j + i) % 8 = i := by omega
  rw [BitVec.testBit_toNat, inBitAt, hdiv, hmod, inByteOrZero, List.getD_eq_getElem?_getD]
  cases inp[j]? with
  | some b => rfl
  | none => simp

theorem bitsValue_first_bytes (inp : List Byte) :
    BitVec.ofNat 24 (bitsValue (inBitAt inp) 0 24) =
      inByteOrZero inp 0 ++ inByteOrZero inp 1 ++ inByteOrZero inp 2 := by
  have hsplit : bitsValue (inBitAt inp) 0 24 =
      256 * (256 * (inByteOrZero inp 0).toNat + (inByteOrZero inp 1).toNat) + (inByteOrZero inp 2).toNat := by
    rw [← bitsValue_inBitAt, ← bitsValue_inBitAt, ← bitsValue_inBitAt, bitsValue_add _ _ 16 8,
      bitsValue_add _ _ 8 8]
    rfl
  apply BitVec.eq_of_toNat_eq
  rw [toNat_append_byte, toNat_append_byte, ← hsplit, BitVec.toNat_ofNat, Nat.mod_eq_of_lt (bitsValue_lt ..)]

end Sys2Proof.Machine
end

/-! ### The threshold, and the fields of a read -/
section
namespace Sys2Proof.Machine

/-- R183: the threshold is the floor of the product unless the clamp moves it. -/
theorem thresh_clamp (p0 : F64) {range : Nat} (h : 2 ≤ range) :
    let f := numFloor (numMul p0 (numOfNat range))
    (f < 1 → thresh p0 range = 1) ∧ (range - 1 < f → thresh p0 range = range - 1) ∧
    (1 ≤ f → f ≤ range - 1 → thresh p0 range = f) := by
  intro f
  have hthresh : thresh p0 range = max 1 (min f (range - 1)) := rfl
  rw [hthresh]
  exact ⟨by omega, by omega, by omega⟩

/-- The floor of a value that is finite and not negative; of the zero with the sign bit it is 0. -/
theorem HasUnits.numFloor_eq {x : F64} {u : Nat} (h : HasUnits x u) : numFloor x = u / unitsPerOne := by
  have hnan := numIsNaN_of_finite h.1
  rw [numFloor, hnan, if_neg Bool.false_ne_true, h.numUnits_eq]
  split
  · rename_i hneg
    rw [h.eq_zero_of_sign hneg, Nat.zero_div]
  · rfl

theorem numFloor_bounds {x : F64} (h : FiniteBeta x) :
    numFloor x * unitsPerOne ≤ numUnits x ∧ numUnits x < (numFloor x + 1) * unitsPerOne := by
  obtain ⟨u, hu⟩ := finiteBeta_iff.mp h
  rw [hu.numFloor_eq, hu.numUnits_eq]
  exact ⟨Nat.div_mul_le_self .., Nat.lt_mul_of_div_lt (Nat.lt_succ_self _) unitsPerOne_pos⟩

/-- R86: a field of `n` bytes does not see what lies above `n` or more bytes of its value. -/
theorem beBytes_mod {n m : Nat} (h : n ≤ m) (v : Nat) : beBytes n (v % 2 ^ (8 * m)) = beBytes n v := by
  induction n with
  | zero => rfl
  | succ n ih =>
    have hsplit : 2 ^ (8 * m) = 2 ^ (8 * n) * (2 ^ 8 * 2 ^ (8 * (m - n - 1))) := by
      rw [← pow_add, ← pow_add]
      congr 1
      omega
    have hdigit : BitVec.ofNat 8 (v % 2 ^ (8 * m) / 2 ^ (8 * n)) = BitVec.ofNat 8 (v / 2 ^ (8 * n)) := by
      apply BitVec.eq_of_toNat_eq
      rw [BitVec.toNat_ofNat, BitVec.toNat_ofNat, hsplit, Nat.mod_mul_right_div_self, Nat.mod_mul_right_mod]
    rw [beBytes, beBytes, ih (Nat.le_of_succ_le h), hdigit]

theorem beBytes_one (v : Nat) : beBytes 1 v = [BitVec.ofNat 8 v] := by simp [beBytes]

end Sys2Proof.Machine
end

/-! ### The obligations of 44_coder.md -/
section
namespace Sys2Proof.Machine

/-- Settles O53: the flushed stream codes every encoder on the way, so the seeded decoder stays in step. -/
theorem coderRoundTrip : Obligations.CoderRoundTrip := by
  intro events
  have hok : IntervalOk freshEncoder.low freshEncoder.high := by decide
  exact (inStep_seedDecoder _).decodeEvents_eq hok (codes_flushBits (encodeEvents_intervalOk events hok))

/-- Settles O45: the encoder's loop ends in an interval of R188, and the decoder's makes the same passes. -/
theorem coderIntervalInvariant : Obligations.CoderIntervalInvariant := by
  intro p0
  exact ⟨fun bit e hok => (encodeBit_intervalOk bit p0 hok).bounds,
    fun inp d hok => (decodeBit_intervalOk inp p0 hok).bounds⟩

/-- Settles O47: OutBit appends a bit and keeps the packer's form. -/
theorem emitPendEmitsTheBitAndItsComplements : Obligations.EmitPendEmitsTheBitAndItsComplements :=
  fun x e hpacker => ⟨emittedBits_emitPend x e, emitPend_pend x e, packerOk_emitPend x hpacker,
    emitPend_low x e, emitPend_high x e⟩

/-- Settles O48: the padded OUT is the coded bits and fewer than 8 zeros. -/
theorem flushTerminatesTheCode : Obligations.FlushTerminatesTheCode := fun e hpacker =>
  ⟨flushBits_low e, flushBits_high e, flushBits_pend e, flushBits_cnt e, flushBits_acc hpacker,
    outStream_flushBits e, inBitAt_flushBits e⟩

/-- Settles O50: the 24 bits read are three bytes. -/
theorem dinitSeedsFromIn : Obligations.DinitSeedsFromIn := by
  intro s
  rw [← bitsValue_first_bytes, ← seedDecoder_eq]
  rfl

/-- Settles O58: one bit of IN for each pass, and one pass for each bit the encoder determines. -/
theorem decodeBitShiftsTheCode : Obligations.DecodeBitShiftsTheCode := by
  intro inp p0 d
  obtain ⟨n, hpos, hcode⟩ := decodeBit_code inp p0 d
  have hread : (decodeBit inp p0 d).2.pos - d.pos = n := by omega
  rw [← hread] at hcode
  refine ⟨decodeBit_bit inp p0 d, decodeBit_mode inp p0 d, by omega, hcode, fun e hlow hhigh _ => ?_⟩
  obtain ⟨-, -, -, hdetermined⟩ := decodeBit_mirrors inp p0 hlow.symm hhigh.symm
  exact hdetermined

/-- Settles O17: the opcodes are read, and a field of 8 bytes does not see the multiples of 2^64. -/
theorem stateReadsAppendTheirFields : Obligations.StateReadsAppendTheirFields := by
  refine ⟨fun rest => ⟨rfl, rfl, rfl⟩, fun s => ⟨?_, ?_, rfl⟩⟩
  · rw [beBytes_mod (n := 8) (m := 8) le_rfl, ← beBytes_one]
    rfl
  · rw [beBytes_mod (n := 8) (m := 8) le_rfl]
    rfl

/-- Settles O43: the clamp of R183, and the quotient by the units of 1.0. -/
theorem thresholdLeavesBothPartsNonEmpty : Obligations.ThresholdLeavesBothPartsNonEmpty := by
  intro p0 range hrange
  obtain ⟨hmin, hmax⟩ := thresh_bounds p0 hrange
  exact ⟨hmin, hmax, thresh_clamp p0 hrange, fun x hle hfin => numFloor_bounds ⟨hle, hfin⟩⟩

/-- Settles O46: the part of a bit, and the three cases one by one. -/
theorem narrowingAndTheThreeCases : Obligations.NarrowingAndTheThreeCases := by
  refine ⟨fun t low high _ hle => ⟨(narrow_true hle).1, (narrow_true hle).2, (narrow_false hle).1,
    (narrow_false hle).2⟩, fun e hle => ⟨fun hhigh => ?_, fun hlow => ?_, fun hqtr hlow hhigh hthree => ?_⟩⟩
  · exact ⟨scalingOf_eq_e1 hhigh, encPass_eq .e1 e, by omega⟩
  · have := e.high.isLt
    exact ⟨scalingOf_eq_e2 (hlow.trans hle) hlow, encPass_eq .e2 e, by omega⟩
  · exact ⟨(scalingOf_straddling hlow hhigh).trans (if_pos ⟨hqtr, hthree⟩), encPass_eq .e3 e, by omega⟩

/-- Settles O52: both loops scale the bounds alike. -/
theorem decoderPassMirrorsTheEncoder : Obligations.DecoderPassMirrorsTheEncoder := by
  intro inp c d e hlow hhigh
  exact ⟨by rw [decPass_low, encPass_low, hlow], by rw [decPass_high, encPass_high, hhigh], rfl, rfl,
    decPass_code_toNat inp c d⟩

end Sys2Proof.Machine
end

/-! ### The byte a walk takes

A known byte steers a walk to its own leaf (R37), and the running values of a walk depend on its chooser only
through the bits that it picks (R154(c)). -/
section
namespace Sys2Proof.Machine

/-- The BDT node below `n` on the side of bit `k` of `b` (R37). -/
def childNode (b : Byte) (n : Nat) (k : Fin 8) : Nat := 2 * n + (b.getLsbD k).toNat

/-- The leaf of a byte, on the side of its last bit. -/
theorem marked_eq_child (b : Byte) : 0x100 ||| b.toNat = 2 * nodeFor b 0 + (b.getLsbD 0).toNat := by
  have hbit := Nat.toNat_testBit (0x100 ||| b.toNat) 0
  rw [testBit_marked b (by decide), pow_zero, Nat.div_one] at hbit
  rw [nodeFor, Nat.zero_add, Nat.shiftRight_eq_div_pow, pow_one]
  omega

theorem foldl_childNode (b : Byte) : levels.foldl (childNode b) 1 = 256 + b.toNat := by
  have hmark : 256 + b.toNat = 0x100 ||| b.toNat := Nat.two_pow_add_eq_or_of_lt (i := 8) b.isLt 1
  rw [hmark, marked_eq_child]
  simp (disch := decide) only [nodeFor_eq_child, Nat.reduceAdd, nodeFor_root]
  rfl

/-- The p0 of a level (R152): what CtUpdate with bit 0 returns at the walk's node. -/
def levelP0 {σ : Type} (p : Params) (w : Walking σ) (k : Fin 8) : F64 :=
  (ctUpdate p w.node false k w.model).1.zero

/-- The values of a walk, with the state of another chooser. -/
def Walking.withOuter {σ τ : Type} (w : Walking σ) (o : τ) : Walking τ :=
  { model := w.model, outer := o, prob := w.prob, cum := w.cum, node := w.node }

/-- What a walk answers from its running values after the last level (R152). -/
def Walking.result {σ : Type} (w : Walking σ) : Model × σ :=
  ({ w.model with
      cache := { w.model.cache with byte := BitVec.ofNat 8 (w.node - 256), prob := w.prob, cum := w.cum }
      dirty := true }, w.outer)

section
variable {σ : Type} {p : Params} {choose : Chooser σ} {b : Byte} {k : Fin 8} {ks : List (Fin 8)}

theorem walkLevel_cache_p0 (w : Walking σ) :
    (walkLevel p choose w k).model.cache.p0 = w.model.cache.p0.set k (levelP0 p w k) := rfl

/-- R220: no later level writes the p0 of a level. -/
theorem foldl_walkLevel_cache_p0 (hk : k ∉ ks) (w : Walking σ) :
    (ks.foldl (walkLevel p choose) w).model.cache.p0[k] = w.model.cache.p0[k] := by
  induction ks generalizing w with
  | nil => rfl
  | cons j ks ih =>
    have hne : j.val ≠ k.val := Fin.val_ne_of_ne (List.ne_of_not_mem_cons hk).symm
    rw [List.foldl_cons, ih (List.not_mem_of_not_mem_cons hk), walkLevel_cache_p0]
    exact Vector.getElem_set_ne _ _ hne

theorem walk_eq_result (p : Params) (choose : Chooser σ) (m : Model) (o : σ) :
    walk p choose m o = (levels.foldl (walkLevel p choose) (walkStart m o)).result := rfl

theorem Walking.result_cache (w : Walking σ) :
    w.result.1.cache =
      { w.model.cache with byte := BitVec.ofNat 8 (w.node - 256), prob := w.prob, cum := w.cum } := rfl

theorem Walking.result_withOuter {τ : Type} (w : Walking σ) (o : τ) : (w.withOuter o).result = (w.result.1, o) := rfl

theorem walk_known_byte (p : Params) (b : Byte) (m : Model) : (walk p (known b) m ()).1.cache.byte = b := by
  have hnode : (levels.foldl (walkLevel p (known b)) (walkStart m ())).node = 256 + b.toNat := by
    rw [← foldl_childNode b]
    exact (List.foldl_hom Walking.node fun _ _ => rfl).symm
  rw [walk_eq_result, Walking.result_cache, hnode, Nat.add_sub_cancel_left, BitVec.ofNat_toNat, BitVec.setWidth_eq]

/-- R154(c), one level: a chooser that picks bit k of b steps as `known b` does. -/
theorem walkLevel_of_choice (w : Walking Unit) {o o' : σ}
    (h : choose k (levelP0 p w k) (numAdd w.cum (numMul w.prob (levelP0 p w k))) o = (b.getLsbD k, o')) :
    walkLevel p choose (w.withOuter o) k = (walkLevel p (known b) w k).withOuter o' := by
  calc walkLevel p choose (w.withOuter o) k
    _ = walkLevel p (fun _ _ _ _ =>
          choose k (levelP0 p w k) (numAdd w.cum (numMul w.prob (levelP0 p w k))) o) (w.withOuter o) k := rfl
    _ = walkLevel p (fun _ _ _ _ => (b.getLsbD k, o')) (w.withOuter o) k := by rw [h]
    _ = (walkLevel p (known b) w k).withOuter o' := rfl

end

/-! ### The decoder as the chooser -/

section
variable {p : Params} {inp : List Byte} {b : Byte} {m : Model} {d d' : Decoder}

theorem decodeEvents_cons_eq {p0 : F64} {p0s : List F64} {x : Bool} {bits : List Bool}
    (h : decodeEvents inp (p0 :: p0s) d = (x :: bits, d')) :
    ∃ d₁, decodeBit inp p0 d = (x, d₁) ∧ decodeEvents inp p0s d₁ = (bits, d') := by
  rcases hfirst : decodeBit inp p0 d with ⟨y, d₁⟩
  rw [decodeEvents, hfirst, Prod.mk.injEq, List.cons.injEq] at h
  obtain ⟨⟨rfl, hbits⟩, hdec⟩ := h
  exact ⟨d₁, rfl, Prod.ext hbits hdec⟩

theorem walkLevel_coded {k : Fin 8} (w : Walking Unit)
    (h : decodeBit inp (levelP0 p w k) d = (b.getLsbD k, d')) :
    walkLevel p (coded inp) (w.withOuter d) k = (walkLevel p (known b) w k).withOuter d' :=
  walkLevel_of_choice (choose := coded inp) w h

/-- R223: where DecodeBit returns the bits of `b` at the p0 of its walk, the coded walk is that walk. -/
theorem foldl_walkLevel_coded {ks : List (Fin 8)} (hnodup : ks.Nodup) {w : Walking Unit}
    (h : decodeEvents inp
        (ks.map (fun (k : Fin 8) => (ks.foldl (walkLevel p (known b)) w).model.cache.p0[k])) d =
      (ks.map (fun (k : Fin 8) => b.getLsbD k), d')) :
    ks.foldl (walkLevel p (coded inp)) (w.withOuter d) =
      (ks.foldl (walkLevel p (known b)) w).withOuter d' := by
  induction ks generalizing w d with
  | nil => rw [← (Prod.mk.inj h).2]; rfl
  | cons k ks ih =>
    obtain ⟨hk, hnodup⟩ := List.nodup_cons.mp hnodup
    have hp0 : ((k :: ks).foldl (walkLevel p (known b)) w).model.cache.p0[k] = levelP0 p w k := by
      rw [List.foldl_cons, foldl_walkLevel_cache_p0 hk, walkLevel_cache_p0]
      exact Vector.getElem_set_self _
    rw [List.map_cons, List.map_cons, hp0] at h
    obtain ⟨d₁, hbit, hrest⟩ := decodeEvents_cons_eq h
    rw [List.foldl_cons, walkLevel_coded w hbit]
    exact ih hnodup hrest

/-- The coder events of EncodeByte(b): the bits of b from bit 7 on, at the p0 of its walk (R220, R221). -/
def byteEvents (p : Params) (b : Byte) (m : Model) : List (Bool × F64) :=
  levels.map (fun (k : Fin 8) => (b.getLsbD k, (walk p (known b) m ()).1.cache.p0[k]))

theorem foldl_encodeLevel (b : Byte) (p0 : Vector F64 8) (ks : List (Fin 8)) (e : Encoder) :
    ks.foldl (encodeLevel b p0) e = encodeEvents (ks.map (fun (k : Fin 8) => (b.getLsbD k, p0[k]))) e := by
  rw [encodeEvents, List.foldl_map]
  rfl

theorem encodeByte_enc (p : Params) (b : Byte) (m : Model) (e : Encoder) :
    (encodeByte p b m e).2 = encodeEvents (byteEvents p b m) e :=
  foldl_encodeLevel ..

theorem byteEvents_bits (p : Params) (b : Byte) (m : Model) :
    (byteEvents p b m).map (·.1) = levels.map (fun (k : Fin 8) => b.getLsbD k) := List.map_map

theorem byteEvents_p0s (p : Params) (b : Byte) (m : Model) :
    (byteEvents p b m).map (·.2) = levels.map (fun (k : Fin 8) =>
      (levels.foldl (walkLevel p (known b)) (walkStart m ())).model.cache.p0[k]) := by
  rw [byteEvents, List.map_map, walk_eq_result, Walking.result_cache]
  rfl

theorem walk_coded
    (h : decodeEvents inp ((byteEvents p b m).map (·.2)) d = ((byteEvents p b m).map (·.1), d')) :
    walk p (coded inp) m d = ((walk p (known b) m ()).1, d') := by
  rw [byteEvents_bits, byteEvents_p0s] at h
  have hwalk : levels.foldl (walkLevel p (coded inp)) (walkStart m d) = _ :=
    foldl_walkLevel_coded (w := walkStart m ()) (by decide) h
  rw [walk_eq_result, hwalk, Walking.result_withOuter, ← walk_eq_result]

/-- R223: a decoder that returns the bits of `b` decodes `b`, and leaves the model that encoding it leaves. -/
theorem decodeByte_eq
    (h : decodeEvents inp ((byteEvents p b m).map (·.2)) d = ((byteEvents p b m).map (·.1), d'))
    (e : Encoder) : decodeByte p inp m d = (b, (encodeByte p b m e).1, d') := by
  rw [decodeByte, walk_coded h, walk_known_byte]
  rfl

end

/-! ### Bytes on the encoder's stream -/

section
variable {p : Params} {inp : List Byte} {σ : Nat → Bool} {b : Byte} {bytes : List Byte} {m : Model} {d : Decoder}
  {e : Encoder}

theorem InStep.after_decodeEvents {events : List (Bool × F64)} (h : InStep inp d e)
    (hok : IntervalOk e.low e.high) (hcodes : Codes (inBitAt inp) (encodeEvents events e)) :
    ∃ d', decodeEvents inp (events.map (·.2)) d = (events.map (·.1), d') ∧
      InStep inp d' (encodeEvents events e) := by
  induction events generalizing d e with
  | nil => exact ⟨d, rfl, h⟩
  | cons ev events ih =>
    have hok' := encodeBit_intervalOk ev.1 ev.2 hok
    obtain ⟨hbit, hstep⟩ := h.after_decodeBit hok (codes_of_encodeEvents hok' hcodes)
    obtain ⟨d', hbits, hend⟩ := ih hstep hok' hcodes
    exact ⟨d', by rw [List.map_cons, List.map_cons, decodeEvents, hbit, hbits], hend⟩

theorem encodeByte_intervalOk (hok : IntervalOk e.low e.high) :
    IntervalOk (encodeByte p b m e).2.low (encodeByte p b m e).2.high := by
  rw [encodeByte_enc]
  exact encodeEvents_intervalOk _ hok

theorem encodeBytes_intervalOk (hok : IntervalOk e.low e.high) :
    IntervalOk (encodeBytes p bytes m e).2.low (encodeBytes p bytes m e).2.high := by
  induction bytes generalizing m e with
  | nil => exact hok
  | cons b bytes ih => exact ih (encodeByte_intervalOk hok)

/-- A code that ends in the interval after some bytes lay in it before them. -/
theorem codes_of_encodeBytes (hok : IntervalOk e.low e.high) (h : Codes σ (encodeBytes p bytes m e).2) :
    Codes σ e := by
  induction bytes generalizing m e with
  | nil => exact h
  | cons b bytes ih =>
    have hbyte := ih (encodeByte_intervalOk hok) h
    rw [encodeByte_enc] at hbyte
    exact codes_of_encodeEvents hok hbyte

/-- R225, one byte: the decoder returns it, shares the model after it, and stays in step. -/
theorem InStep.after_decodeByte (h : InStep inp d e) (hok : IntervalOk e.low e.high)
    (hcodes : Codes (inBitAt inp) (encodeByte p b m e).2) :
    ∃ d', decodeByte p inp m d = (b, (encodeByte p b m e).1, d') ∧ InStep inp d' (encodeByte p b m e).2 := by
  rw [encodeByte_enc] at hcodes ⊢
  obtain ⟨d', hbits, hstep⟩ := h.after_decodeEvents hok hcodes
  exact ⟨d', decodeByte_eq hbits e, hstep⟩

/-- R225, by induction over the bytes. -/
theorem InStep.decodeBytes_eq (h : InStep inp d e) (hok : IntervalOk e.low e.high)
    (hcodes : Codes (inBitAt inp) (encodeBytes p bytes m e).2) :
    (decodeBytes p inp bytes.length m d).1 = bytes ∧
    (decodeBytes p inp bytes.length m d).2.1 = (encodeBytes p bytes m e).1 := by
  induction bytes generalizing m d e with
  | nil => exact ⟨rfl, rfl⟩
  | cons b bytes ih =>
    have hok' := encodeByte_intervalOk (p := p) (b := b) (m := m) hok
    obtain ⟨d', hbyte, hstep⟩ := h.after_decodeByte hok (codes_of_encodeBytes hok' hcodes)
    obtain ⟨hbytes, hmodel⟩ := ih hstep hok' hcodes
    rw [List.length_cons, decodeBytes, hbyte]
    exact ⟨congrArg (b :: ·) hbytes, hmodel⟩

end

end Sys2Proof.Machine
end

/-! ### The obligations of 45_stream.md -/
section
namespace Sys2Proof.Machine

/-- Settles O56: the flushed stream codes every encoder on the way, so the seeded decoder stays in step, and
its walks, which pick the bits encoded, are the encoder's walks. -/
theorem streamRoundTrip : Obligations.StreamRoundTrip := by
  intro p bytes m
  have hok : IntervalOk freshEncoder.low freshEncoder.high := by decide
  exact (inStep_seedDecoder _).decodeBytes_eq hok (codes_flushBits (encodeBytes_intervalOk hok))

end Sys2Proof.Machine
end

/-! ### The code of the first failing check

The checks of a command, read as R243's table reads them: the code of the first one that fails. -/
section
namespace Sys2Proof.Machine

/-- The code of the first failing check (R240, R243). -/
def firstCode (cs : List Check) : Option Byte := (firstFault cs).map faultByte

@[simp] theorem firstCode_nil : firstCode [] = none := rfl

section
variable {s : State} {cs : List Check}

/-- A check that fails exactly where `P` holds is one row of the table. -/
theorem firstCode_cons {fails : Bool} {P : Prop} [Decidable P] (c : FaultCode) (h : fails = true ↔ P) :
    firstCode ((fails, c) :: cs) = if P then some (faultByte c) else firstCode cs := by
  simp only [firstCode, firstFault_cons, ← h, apply_ite (Option.map faultByte), Option.map_some]

@[simp] theorem firstCode_orderIllegal (d : Byte) :
    firstCode ((orderIllegal d, .badOrder) :: cs) =
      if d.toNat < 1 ∨ 15 < d.toNat then some 0x03 else firstCode cs :=
  firstCode_cons .badOrder (by simp [orderIllegal])

@[simp] theorem firstCode_bitIllegal (b : Byte) :
    firstCode ((bitIllegal b, .badOperand) :: cs) = if 1 < b.toNat then some 0x04 else firstCode cs :=
  firstCode_cons .badOperand decide_eq_true_iff

@[simp] theorem firstCode_nodeIllegal (node : Byte) :
    firstCode ((nodeIllegal node, .badOperand) :: cs) = if node.toNat = 0 then some 0x04 else firstCode cs :=
  firstCode_cons .badOperand decide_eq_true_iff

@[simp] theorem firstCode_probIllegal (p0 : F64) :
    firstCode ((probIllegal p0, .badProbability) :: cs) =
      if legalProb p0 = false then some 0x05 else firstCode cs :=
  firstCode_cons .badProbability (by rw [probIllegal_eq_not_legalProb, Bool.not_eq_true'])

@[simp] theorem firstCode_checkConfigured :
    firstCode (checkConfigured s :: cs) = if s.model.configured = false then some 0x02 else firstCode cs :=
  firstCode_cons .notConfigured (by simp)

@[simp] theorem firstCode_checkHistory :
    firstCode (checkHistory s :: cs) = if s.model.hloaded = false then some 0x07 else firstCode cs :=
  firstCode_cons .historyNotLoaded (by simp)

@[simp] theorem firstCode_checkClean :
    firstCode (checkClean s :: cs) = if s.model.dirty = true then some 0x0A else firstCode cs :=
  firstCode_cons .modelBusy Iff.rfl

@[simp] theorem firstCode_checkEncoder :
    firstCode (checkEncoder s :: cs) = if s.enc.mode = .flushed then some 0x0D else firstCode cs :=
  firstCode_cons .encoderNotActive decide_eq_true_iff

@[simp] theorem firstCode_checkDecoder :
    firstCode (checkDecoder s :: cs) = if s.dec.mode = .idle then some 0x0E else firstCode cs :=
  firstCode_cons .decoderNotActive decide_eq_true_iff

@[simp] theorem firstCode_checkCapacity (need : Nat) :
    firstCode (checkCapacity need s :: cs) =
      if s.params.nodeCap < s.model.nodesUsed.toNat + need then some 0x0C else firstCode cs :=
  firstCode_cons .nodeCapacity decide_eq_true_iff

@[simp] theorem firstCode_checkScratch (node : Byte) :
    firstCode (checkScratch node s :: cs) =
      if s.model.scr[levelOf node.toNat].valid = false ∨ s.model.scr[levelOf node.toNat].owner ≠ node then
        some 0x0B
      else firstCode cs :=
  firstCode_cons .reupdateWithoutUpdate (by simp)

@[simp] theorem firstCode_seedLength (seed : List Byte) (n : Nat) :
    firstCode ((!decide (seed.length = n), .historyLength) :: cs) =
      if seed.length ≠ n then some 0x06 else firstCode cs :=
  firstCode_cons .historyLength (by simp)

@[simp] theorem firstCode_pending (dirty : Bool) :
    firstCode ((!dirty, .updateWithoutPredict) :: cs) = if dirty = false then some 0x08 else firstCode cs :=
  firstCode_cons .updateWithoutPredict (by simp)

@[simp] theorem firstCode_pendingByte (b c : Byte) :
    firstCode ((!decide (b = c), .updateMismatch) :: cs) = if b ≠ c then some 0x09 else firstCode cs :=
  firstCode_cons .updateMismatch (by simp)

/-- R157: the capacity of a query is checked only when a walk will run. -/
@[simp] theorem firstCode_queryCapacity (need : Nat) :
    firstCode ((!s.model.dirty && (checkCapacity need s).1, .nodeCapacity) :: cs) =
      if s.model.dirty = false ∧ s.params.nodeCap < s.model.nodesUsed.toNat + need then some 0x0C
      else firstCode cs :=
  firstCode_cons .nodeCapacity (by simp [checkCapacity])

end

/-! ### A command is its checks, then its effect -/

/-- A query writes the model and nothing else. -/
theorem query_eq_setModel (choose : Chooser Unit) (s : State) : ∃ m, query choose s = setModel m s := by
  by_cases hdirty : s.model.dirty = true
  · exact ⟨s.model, if_pos hdirty⟩
  · exact ⟨_, if_neg hdirty⟩

@[simp] theorem query_fault (choose : Chooser Unit) (s : State) : (query choose s).fault = s.fault := by
  obtain ⟨m, hquery⟩ := query_eq_setModel choose s
  rw [hquery, setModel_fault]

@[simp] theorem query_fcode (choose : Chooser Unit) (s : State) : (query choose s).fcode = s.fcode := by
  obtain ⟨m, hquery⟩ := query_eq_setModel choose s
  rw [hquery, setModel_fcode]

@[simp] theorem query_cp (choose : Chooser Unit) (s : State) : (query choose s).cp = s.cp := by
  obtain ⟨m, hquery⟩ := query_eq_setModel choose s
  rw [hquery, setModel_cp]

/-- `t` is a state after `i` has completed in `s`: FAULT and FCODE as before, CP past the command (R10). -/
def Completed (i : Instr) (s t : State) : Prop :=
  t.fault = s.fault ∧ t.fcode = s.fcode ∧ t.cp = s.cp + commandLength i

/-- An effect that ends with CP's advance completes the command when nothing before the advance wrote FAULT,
FCODE or CP. -/
theorem completed_advance (i : Instr) {s t : State} (hfault : t.fault = s.fault) (hfcode : t.fcode = s.fcode)
    (hcp : t.cp = s.cp) : Completed i s (advance (commandLength i) t) :=
  ⟨hfault, hfcode, congrArg (· + commandLength i) hcp⟩

/-- `o` is the outcome of some checks that agree with R243's table for `i` in `s`, before an effect that
completes `i`. -/
def ChecksThenCompletes (i : Instr) (s : State) (o : Host.Outcome State Fault Refusal) : Prop :=
  ∃ cs f, o = checked cs f s ∧ firstCode cs = firstFailure s i ∧ Completed i s (f s)

theorem checksThenCompletes_checked {i : Instr} {s : State} {cs : List Check} {f : State → State}
    (hcode : firstCode cs = firstFailure s i) (hdone : Completed i s (f s)) :
    ChecksThenCompletes i s (checked cs f s) :=
  ⟨cs, f, rfl, hcode, hdone⟩

/-- R243, command by command: the checks read as the command's row, and the effect ends with CP's advance. -/
theorem exec_checksThenCompletes (i : Instr) (s : State) : ChecksThenCompletes i s (exec i s) := by
  cases i with rw [exec]
  | predict _ | cumprob _ | decode _ =>
    exact checksThenCompletes_checked (by simp [firstFailure, queryChecks])
      (completed_advance _ (by simp) (by simp) (by simp))
  | _ =>
    exact checksThenCompletes_checked (by simp [firstFailure])
      (completed_advance _ (by simp) (by simp) (by simp))

theorem ChecksThenCompletes.faults {i : Instr} {s : State} {o : Host.Outcome State Fault Refusal} {code : Byte}
    (h : ChecksThenCompletes i s o) (hfail : firstFailure s i = some code) : o = .next (faulted code s) := by
  obtain ⟨cs, f, rfl, htable, -⟩ := h
  obtain ⟨c, hfirst, rfl⟩ := Option.map_eq_some_iff.mp (htable.trans hfail)
  exact checked_of_fail hfirst

theorem ChecksThenCompletes.completes {i : Instr} {s : State} {o : Host.Outcome State Fault Refusal}
    (h : ChecksThenCompletes i s o) (hpass : firstFailure s i = none) : ∃ t, o = .next t ∧ Completed i s t := by
  obtain ⟨cs, f, rfl, htable, hdone⟩ := h
  exact ⟨f s, checked_of_pass (Option.map_eq_none_iff.mp (htable.trans hpass)), hdone⟩

/-! ### The ends of a run -/

theorem step_of_ended {s : State} (hfault : s.fault = false)
    (hdecode : decodeCommand (s.cmd.drop s.cp) = .ended) : step s = .fault .runEnded := by
  rw [step, fetchBytes, hfault, hdecode]
  rfl

theorem step_of_incomplete {s : State} (hfault : s.fault = false)
    (hdecode : decodeCommand (s.cmd.drop s.cp) = .incomplete) : step s = .fault .stuck := by
  rw [step, fetchBytes, hfault, hdecode]
  rfl

/-! ### The obligation of 60_exceptions.md -/

/-- Settles O12: a step by what the decoder says, and a command by its checks, which read as R243's table. -/
theorem firstFailingCheckDecidesTheFault : Obligations.FirstFailingCheckDecidesTheFault := by
  refine ⟨fun s hfault => ?_, fun i s => ?_⟩
  · cases hdecode : decodeCommand (s.cmd.drop s.cp) with
    | ended => exact step_of_ended hfault hdecode
    | illegalOpcode op => exact step_of_illegalOpcode hfault hdecode
    | incomplete => exact step_of_incomplete hfault hdecode
    | command i rest => exact step_of_command hfault hdecode
  · have hexec := exec_checksThenCompletes i s
    exact ⟨fun code hfail => hexec.faults hfail, fun hpass => hexec.completes hpass⟩

end Sys2Proof.Machine
end

/-! ### Incomplete commands

R82: once the opcode is read, the decoder answers a command unless the bytes left are too few for the
command's format (R81). -/
section
namespace Sys2Proof.Machine

/-- The bytes after the opcode are fewer than the operand fields of the format (R81). -/
def TooShort (format : Format) (t : List Byte) : Prop :=
  match format with
  | .f0 => False
  | .fb => t.length < 1
  | .fn => t.length < 2
  | .fk => t.length < 3
  | .fr => t.length < 8
  | .fe => t.length < 9
  | .fh => t = [] ∨ ∃ len seed, t = len :: seed ∧ seed.length < len.toNat

/-- `d` is incomplete where `short` holds, and a command everywhere else. -/
def CommandUnless (short : Prop) (d : Decoded) : Prop :=
  (short ∧ d = .incomplete) ∨ (¬ short ∧ ∃ i rest, d = .command i rest)

theorem CommandUnless.incomplete_iff {short : Prop} {d : Decoded} (h : CommandUnless short d) :
    d = .incomplete ↔ short := by
  obtain ⟨hshort, rfl⟩ | ⟨hlong, i, rest, rfl⟩ := h
  · exact iff_of_true rfl hshort
  · exact iff_of_false Decoded.noConfusion hlong

theorem CommandUnless.ne_ended {short : Prop} {d : Decoded} (h : CommandUnless short d) : d ≠ .ended := by
  obtain ⟨-, rfl⟩ | ⟨-, i, rest, rfl⟩ := h <;> exact Decoded.noConfusion

/-! ### The formats -/

theorem decodeF0_commandUnless (i : Instr) (t : List Byte) : CommandUnless (TooShort .f0 t) (decodeF0 i t) :=
  .inr ⟨not_false, i, t, rfl⟩

theorem decodeFB_commandUnless (mk : Byte → Instr) (t : List Byte) :
    CommandUnless (TooShort .fb t) (decodeFB mk t) := by
  match t with
  | [] => exact .inl ⟨by simp [TooShort], rfl⟩
  | b :: rest => exact .inr ⟨by simp [TooShort], mk b, rest, rfl⟩

theorem decodeFN_commandUnless (mk : Byte → Byte → Instr) (t : List Byte) :
    CommandUnless (TooShort .fn t) (decodeFN mk t) := by
  match t with
  | [] | [_] => exact .inl ⟨by simp [TooShort], rfl⟩
  | a :: b :: rest => exact .inr ⟨by simp [TooShort], mk a b, rest, rfl⟩

theorem decodeFK_commandUnless (mk : Byte → Byte → Byte → Instr) (t : List Byte) :
    CommandUnless (TooShort .fk t) (decodeFK mk t) := by
  match t with
  | [] | [_] | [_, _] => exact .inl ⟨by simp [TooShort], rfl⟩
  | a :: b :: c :: rest => exact .inr ⟨by simp [TooShort], mk a b c, rest, rfl⟩

theorem decodeFR_commandUnless (mk : F64 → Instr) (t : List Byte) :
    CommandUnless (TooShort .fr t) (decodeFR mk t) := by
  match t with
  | [] | [_] | [_, _] | [_, _, _] | [_, _, _, _] | [_, _, _, _, _] | [_, _, _, _, _, _]
  | [_, _, _, _, _, _, _] => exact .inl ⟨by simp [TooShort], rfl⟩
  | b0 :: b1 :: b2 :: b3 :: b4 :: b5 :: b6 :: b7 :: rest =>
    exact .inr ⟨by simp [TooShort], mk (numOfBytes b0 b1 b2 b3 b4 b5 b6 b7), rest, rfl⟩

/-- Behind the byte field, format FE is format FR. -/
theorem decodeFE_commandUnless (mk : Byte → F64 → Instr) (t : List Byte) :
    CommandUnless (TooShort .fe t) (decodeFE mk t) := by
  match t with
  | [] => exact .inl ⟨by simp [TooShort], rfl⟩
  | b :: t =>
    have hlength : TooShort .fe (b :: t) ↔ TooShort .fr t := Nat.succ_lt_succ_iff
    rw [hlength]
    exact decodeFR_commandUnless (mk b) t

theorem decodeFH_commandUnless (mk : List Byte → Instr) (t : List Byte) :
    CommandUnless (TooShort .fh t) (decodeFH mk t) := by
  match t with
  | [] => exact .inl ⟨.inl rfl, rfl⟩
  | len :: seed =>
    by_cases hlen : len.toNat ≤ seed.length
    · exact .inr ⟨by simp [TooShort, hlen], mk (seed.take len.toNat), seed.drop len.toNat,
        by simp [decodeFH, takeSeed, hlen]⟩
    · exact .inl ⟨.inr ⟨len, seed, rfl, Nat.not_le.mp hlen⟩, by simp [decodeFH, takeSeed, hlen]⟩

/-! ### The decoder -/

theorem decodeOperands_commandUnless (o : Opcode) (t : List Byte) :
    CommandUnless (TooShort (opcodeFormat o) t) (decodeOperands o t) := by
  cases o with
  | stat | einit | eflush | erd | dinit | drd | decbyte => exact decodeF0_commandUnless _ t
  | init | predict | cumprob | update | encbyte => exact decodeFB_commandUnless _ t
  | ctupd | ctreupd => exact decodeFN_commandUnless _ t
  | kt => exact decodeFK_commandUnless _ t
  | decode | dbit => exact decodeFR_commandUnless _ t
  | ebit => exact decodeFE_commandUnless _ t
  | loadhist => exact decodeFH_commandUnless _ t

theorem decodeCommand_of_opcodeOf {op : Byte} {o : Opcode} (h : opcodeOf op = some o) (t : List Byte) :
    decodeCommand (op :: t) = decodeOperands o t :=
  opcodeByte_of_opcodeOf h ▸ decodeCommand_of_opcode o t

theorem decodeCommand_eq_ended_iff (bytes : List Byte) : decodeCommand bytes = .ended ↔ bytes = [] := by
  match bytes with
  | [] => exact iff_of_true rfl rfl
  | op :: t =>
    refine iff_of_false ?_ (List.cons_ne_nil op t)
    cases hop : opcodeOf op with
    | none => rw [decodeCommand_of_no_opcode hop]; exact Decoded.noConfusion
    | some o => rw [decodeCommand_of_opcodeOf hop]; exact (decodeOperands_commandUnless o t).ne_ended

theorem decodeCommand_eq_incomplete_iff (bytes : List Byte) :
    decodeCommand bytes = .incomplete ↔
      ∃ op t o, bytes = op :: t ∧ opcodeOf op = some o ∧ TooShort (opcodeFormat o) t := by
  constructor
  · intro hdecode
    match bytes with
    | [] => cases hdecode
    | op :: t =>
      cases hop : opcodeOf op with
      | none => cases (decodeCommand_of_no_opcode hop t).symm.trans hdecode
      | some o =>
        rw [decodeCommand_of_opcodeOf hop] at hdecode
        exact ⟨op, t, o, rfl, hop, (decodeOperands_commandUnless o t).incomplete_iff.mp hdecode⟩
  · rintro ⟨op, t, o, rfl, hop, hshort⟩
    rw [decodeCommand_of_opcodeOf hop]
    exact (decodeOperands_commandUnless o t).incomplete_iff.mpr hshort

/-! ### The outcome of a step -/

theorem exec_answers_next (i : Instr) (s : State) : ∃ t, exec i s = .next t := by
  obtain ⟨cs, f, hexec, -⟩ := exec_checksThenCompletes i s
  obtain ⟨c, -, hchecked⟩ | ⟨-, hchecked⟩ := checked_cases cs f s
  · exact ⟨_, hexec.trans hchecked⟩
  · exact ⟨_, hexec.trans hchecked⟩

theorem step_of_fault {s : State} (hfault : s.fault = true) : step s = .fault .halted := by
  rw [step, hfault]
  rfl

/-- What a step answers: one of the three ends, each with its cause, or a next state. -/
theorem step_cases (s : State) :
    (s.fault = true ∧ step s = .fault .halted) ∨
    (s.fault = false ∧ decodeCommand (s.cmd.drop s.cp) = .ended ∧ step s = .fault .runEnded) ∨
    (s.fault = false ∧ decodeCommand (s.cmd.drop s.cp) = .incomplete ∧ step s = .fault .stuck) ∨
    (s.fault = false ∧ decodeCommand (s.cmd.drop s.cp) ≠ .ended ∧
      decodeCommand (s.cmd.drop s.cp) ≠ .incomplete ∧ ∃ t, step s = .next t) := by
  cases hfault : s.fault with
  | true => exact .inl ⟨rfl, step_of_fault hfault⟩
  | false =>
    cases hdecode : decodeCommand (s.cmd.drop s.cp) with
    | ended => exact .inr (.inl ⟨rfl, rfl, step_of_ended hfault hdecode⟩)
    | incomplete => exact .inr (.inr (.inl ⟨rfl, rfl, step_of_incomplete hfault hdecode⟩))
    | illegalOpcode op =>
      exact .inr (.inr (.inr ⟨rfl, nofun, nofun, _, step_of_illegalOpcode hfault hdecode⟩))
    | command i rest =>
      obtain ⟨t, hexec⟩ := exec_answers_next i s
      exact .inr (.inr (.inr ⟨rfl, nofun, nofun, t, (step_of_command hfault hdecode).trans hexec⟩))

theorem step_eq_halted_iff (s : State) : step s = .fault .halted ↔ s.fault = true := by
  rcases step_cases s with ⟨hfault, hstep⟩ | ⟨hfault, -, hstep⟩ | ⟨hfault, -, hstep⟩ | ⟨hfault, -, -, t, hstep⟩ <;>
    simp [hfault, hstep]

theorem step_eq_runEnded_iff (s : State) :
    step s = .fault .runEnded ↔ s.fault = false ∧ decodeCommand (s.cmd.drop s.cp) = .ended := by
  rcases step_cases s with
    ⟨hfault, hstep⟩ | ⟨hfault, hdecode, hstep⟩ | ⟨-, hdecode, hstep⟩ | ⟨-, hnotEnded, -, t, hstep⟩
  · simp [hfault, hstep]
  · simp [hfault, hdecode, hstep]
  · simp [hdecode, hstep]
  · simp [hnotEnded, hstep]

theorem step_eq_stuck_iff (s : State) :
    step s = .fault .stuck ↔ s.fault = false ∧ decodeCommand (s.cmd.drop s.cp) = .incomplete := by
  rcases step_cases s with
    ⟨hfault, hstep⟩ | ⟨-, hdecode, hstep⟩ | ⟨hfault, hdecode, hstep⟩ | ⟨-, -, hcomplete, t, hstep⟩
  · simp [hfault, hstep]
  · simp [hdecode, hstep]
  · simp [hfault, hdecode, hstep]
  · simp [hcomplete, hstep]

/-- Every command has a meaning in the model. -/
theorem step_ne_refused (s : State) (r : Refusal) : step s ≠ .refused r := by
  rcases step_cases s with ⟨-, hstep⟩ | ⟨-, -, hstep⟩ | ⟨-, -, hstep⟩ | ⟨-, -, -, t, hstep⟩ <;> simp [hstep]

/-! ### The obligation of 70_reset_and_hazards.md -/

/-- Settles O6: a step ends as the decoder says, and the decoder finds no byte at the end of CMD and no complete
command where the bytes are too few for the format. -/
theorem runEndsInOneOfThreeWays : Obligations.RunEndsInOneOfThreeWays := by
  intro s
  refine ⟨step_eq_halted_iff s, ?_, ?_, step_ne_refused s⟩
  · rw [step_eq_runEnded_iff, decodeCommand_eq_ended_iff, List.drop_eq_nil_iff]
  · exact (step_eq_stuck_iff s).trans (and_congr_right fun _ => decodeCommand_eq_incomplete_iff _)

end Sys2Proof.Machine
end

/-! ### Reading a command back

The converse of decoding an encoding, format by format: the bytes of a decoded command are its encoding and
what follows it. -/
section
namespace Sys2Proof.Machine

/-- A byte string is the big-endian form of its value. -/
theorem beBytes_beValue (bytes : List Byte) : beBytes bytes.length (beValue bytes) = bytes := by
  induction bytes with
  | nil => rfl
  | cons b bs ih =>
    have hlow : beValue bs < 2 ^ (8 * bs.length) := by
      have hmod := beValue_beBytes bs.length (beValue bs)
      rw [ih] at hmod
      exact hmod ▸ Nat.mod_lt _ (Nat.two_pow_pos _)
    have hmod : (b.toNat * 2 ^ (8 * bs.length) + beValue bs) % 2 ^ (8 * bs.length) = beValue bs := by
      rw [Nat.mul_add_mod_self_right, Nat.mod_eq_of_lt hlow]
    have hdiv : (b.toNat * 2 ^ (8 * bs.length) + beValue bs) / 2 ^ (8 * bs.length) = b.toNat := by
      rw [Nat.mul_comm, Nat.mul_add_div (Nat.two_pow_pos _), Nat.div_eq_of_lt hlow, Nat.add_zero]
    rw [beValue_cons, List.length_cons, beBytes, hdiv, ← beBytes_mod le_rfl, hmod, ih, BitVec.ofNat_toNat,
      BitVec.setWidth_eq]

/-- A NUM field read from bytes is written as the same bytes (R71). -/
theorem takeNum_eq_some {t rest : List Byte} {x : F64} (h : takeNum t = some (x, rest)) :
    t = numBytes x ++ rest := by
  match t with
  | [] | [_] | [_, _] | [_, _, _] | [_, _, _, _] | [_, _, _, _, _] | [_, _, _, _, _, _]
  | [_, _, _, _, _, _, _] => cases h
  | b0 :: b1 :: b2 :: b3 :: b4 :: b5 :: b6 :: b7 :: tail =>
    obtain ⟨rfl, rfl⟩ := Prod.mk.inj (Option.some.inj h)
    rw [numBytes_eq_beBytes, numOfBytes_toNat]
    exact congrArg (· ++ tail) (beBytes_beValue [b0, b1, b2, b3, b4, b5, b6, b7]).symm

/-- LOADHIST's fields read from bytes are written as the same bytes (R81 format FH). -/
theorem takeSeed_eq_some {t seed rest : List Byte} (h : takeSeed t = some (seed, rest)) :
    seed.length < 256 ∧ t = BitVec.ofNat 8 seed.length :: (seed ++ rest) := by
  match t with
  | [] => cases h
  | len :: tail =>
    rw [takeSeed] at h
    split at h
    · next hlen =>
      obtain ⟨rfl, rfl⟩ := Prod.mk.inj (Option.some.inj h)
      rw [List.length_take, Nat.min_eq_left hlen, List.take_append_drop, BitVec.ofNat_toNat, BitVec.setWidth_eq]
      exact ⟨len.isLt, rfl⟩
    · cases h

/-! ### The formats -/

section
variable {t rest : List Byte} {i : Instr}

theorem decodeF0_eq_command {j : Instr} (h : decodeF0 j t = .command i rest) : i = j ∧ t = rest := by
  cases h
  exact ⟨rfl, rfl⟩

theorem decodeFB_eq_command {mk : Byte → Instr} (h : decodeFB mk t = .command i rest) :
    ∃ b, i = mk b ∧ t = b :: rest := by
  match t with
  | [] => cases h
  | b :: tail => cases h; exact ⟨b, rfl, rfl⟩

theorem decodeFN_eq_command {mk : Byte → Byte → Instr} (h : decodeFN mk t = .command i rest) :
    ∃ a b, i = mk a b ∧ t = a :: b :: rest := by
  match t with
  | [] | [_] => cases h
  | a :: b :: tail => cases h; exact ⟨a, b, rfl, rfl⟩

theorem decodeFK_eq_command {mk : Byte → Byte → Byte → Instr} (h : decodeFK mk t = .command i rest) :
    ∃ a b c, i = mk a b c ∧ t = a :: b :: c :: rest := by
  match t with
  | [] | [_] | [_, _] => cases h
  | a :: b :: c :: tail => cases h; exact ⟨a, b, c, rfl, rfl⟩

theorem decodeFH_eq_command {mk : List Byte → Instr} (h : decodeFH mk t = .command i rest) :
    ∃ seed : List Byte, seed.length < 256 ∧ i = mk seed ∧ t = BitVec.ofNat 8 seed.length :: (seed ++ rest) := by
  rw [decodeFH] at h
  split at h
  · next hread =>
    cases h
    obtain ⟨hlen, ht⟩ := takeSeed_eq_some hread
    exact ⟨_, hlen, rfl, ht⟩
  · cases h

theorem decodeFR_eq_command {mk : F64 → Instr} (h : decodeFR mk t = .command i rest) :
    ∃ x, i = mk x ∧ t = numBytes x ++ rest := by
  rw [decodeFR] at h
  split at h
  · next hread =>
    cases h
    exact ⟨_, rfl, takeNum_eq_some hread⟩
  · cases h

theorem decodeFE_eq_command {mk : Byte → F64 → Instr} (h : decodeFE mk t = .command i rest) :
    ∃ b x, i = mk b x ∧ t = b :: (numBytes x ++ rest) := by
  match t with
  | [] => cases h
  | b :: tail =>
    obtain ⟨x, rfl, rfl⟩ := decodeFR_eq_command h
    exact ⟨b, x, rfl, rfl⟩

/-! ### The decoder -/

/-- `i` is a command of the opcode `o` that the encoding can write, with the operand bytes `fields`. -/
def OperandsOf (o : Opcode) (fields : List Byte) (i : Instr) : Prop :=
  i.wellFormed = true ∧ instrOpcode i = o ∧ fields = encodeOperands i

theorem decodeOperands_eq_command {o : Opcode} (h : decodeOperands o t = .command i rest) :
    ∃ fields, t = fields ++ rest ∧ OperandsOf o fields i := by
  cases o with
  | stat | einit | eflush | erd | dinit | drd | decbyte =>
    obtain ⟨rfl, rfl⟩ := decodeF0_eq_command h
    exact ⟨_, rfl, rfl, rfl, rfl⟩
  | init | predict | cumprob | update | encbyte =>
    obtain ⟨b, rfl, rfl⟩ := decodeFB_eq_command h
    exact ⟨[b], rfl, rfl, rfl, rfl⟩
  | ctupd | ctreupd =>
    obtain ⟨a, b, rfl, rfl⟩ := decodeFN_eq_command h
    exact ⟨[a, b], rfl, rfl, rfl, rfl⟩
  | kt =>
    obtain ⟨a, b, c, rfl, rfl⟩ := decodeFK_eq_command h
    exact ⟨[a, b, c], rfl, rfl, rfl, rfl⟩
  | decode | dbit =>
    obtain ⟨x, rfl, rfl⟩ := decodeFR_eq_command h
    exact ⟨_, rfl, rfl, rfl, rfl⟩
  | ebit =>
    obtain ⟨b, x, rfl, rfl⟩ := decodeFE_eq_command h
    exact ⟨b :: numBytes x, rfl, rfl, rfl, rfl⟩
  | loadhist =>
    obtain ⟨seed, hlen, rfl, rfl⟩ := decodeFH_eq_command h
    exact ⟨_ :: seed, rfl, decide_eq_true hlen, rfl, rfl⟩

theorem decodeCommand_eq_command {bytes : List Byte} (h : decodeCommand bytes = .command i rest) :
    i.wellFormed = true ∧ bytes = encode i ++ rest := by
  match bytes with
  | [] => cases h
  | op :: t =>
    cases hop : opcodeOf op with
    | none => cases (decodeCommand_of_no_opcode hop t).symm.trans h
    | some o =>
      rw [decodeCommand_of_opcodeOf hop] at h
      obtain ⟨fields, rfl, hwf, rfl, rfl⟩ := decodeOperands_eq_command h
      rw [← opcodeByte_of_opcodeOf hop]
      exact ⟨hwf, rfl⟩

end

/-- Column `length` of R84 is the number of bytes of the command. -/
theorem encode_length (i : Instr) : (encode i).length = commandLength i := by
  cases i with
  | loadhist seed => exact (Laws.EncodedLength.loadhist seed).2
  | decode x => exact (Laws.EncodedLength.decode x).2
  | ebit bit p0 => exact (Laws.EncodedLength.ebit bit p0).2
  | dbit p0 => exact (Laws.EncodedLength.dbit p0).2
  | _ => rfl

theorem commandLength_pos (i : Instr) : 0 < commandLength i := by
  rw [← encode_length i]
  exact Nat.succ_pos _

/-! ### The obligations of 30_encoding.md on whole commands -/

/-- Settles O1: each word is read field by field. -/
theorem specWordsDecodeToTheirCommands : Obligations.SpecWordsDecodeToTheirCommands := by
  unfold Obligations.SpecWordsDecodeToTheirCommands
  decide

/-- Settles O2: the opcode byte is read back as its opcode, and each format reads its fields back. -/
theorem decodeOfEncodeGivesTheCommandBack : Obligations.DecodeOfEncodeGivesTheCommandBack :=
  fun _ rest hwf => decodeCommand_encode_append hwf rest

/-- Settles O3: the converse, format by format. -/
theorem decodedCommandWasEncoded : Obligations.DecodedCommandWasEncoded := by
  intro bytes i rest h
  obtain ⟨hwf, hbytes⟩ := decodeCommand_eq_command h
  exact ⟨hwf, hbytes, encode_length i⟩

end Sys2Proof.Machine
end

/-! ### The effect of a command

What a command does once its checks pass, in one table: a command answers fault entry, or its effect. -/
section
namespace Sys2Proof.Machine

/-- The effect of each command (R112, R131, R132, R155 to R160, R195 to R204, R222 to R228). -/
def commandEffect (i : Instr) (s : State) : State :=
  match i with
  | .init d => advance 2 (setModel (initModel (d.setWidth 4) s.model) s)
  | .stat => advance 1 (resAppend (beBytes 4 (statusWord s).toNat ++ beBytes 4 s.model.nodesUsed.toNat) s)
  | .kt n0 n1 sym => advance 4 (resAppend (numBytes (kt n0 n1 (operandBit sym))) s)
  | .ctupd node bit =>
    let r := ctUpdate s.params node.toNat (operandBit bit) (levelOf node.toNat) s.model
    advance 3 (resAppend (numBytes r.1.zero ++ numBytes r.1.one) (setModel r.2 s))
  | .ctreupd node bit =>
    advance 3 (setModel (ctReupdate s.params node.toNat (operandBit bit) (levelOf node.toNat) s.model) s)
  | .loadhist seed =>
    advance (2 + seed.length) (setModel { s.model with hist := seed.reverse, hloaded := true } s)
  | .predict b => advance 2 (resAppend (numBytes (query (known b) s).model.cache.prob) (query (known b) s))
  | .cumprob b => advance 2 (resAppend (numBytes (query (known b) s).model.cache.cum) (query (known b) s))
  | .update b => advance 2 (setModel (commit s.params b s.model) s)
  | .decode x => advance 9 (resAppend [(query (target x) s).model.cache.byte] (query (target x) s))
  | .einit =>
    advance 1
      (setEnc { mode := .active, low := 0x000000, high := 0xFFFFFF, pend := 0, acc := 0, cnt := 0,
                out := s.enc.out } s)
  | .ebit bit p0 => advance 10 (setEnc (encodeBit (operandBit bit) p0 s.enc) s)
  | .eflush => advance 1 (setEnc { flushBits s.enc with mode := .flushed } s)
  | .erd =>
    advance 1
      (resAppend
        (beBytes 3 s.enc.low.toNat ++ beBytes 3 s.enc.high.toNat ++ beBytes 8 s.enc.pend ++
          beBytes 1 s.enc.cnt.toNat ++ [s.enc.acc]) s)
  | .dinit => advance 1 (setDec (seedDecoder s.inp) s)
  | .dbit p0 =>
    let r := decodeBit s.inp p0 s.dec
    advance 9 (resAppend [BitVec.ofNat 8 r.1.toNat] (setDec r.2 s))
  | .drd =>
    advance 1
      (resAppend
        (beBytes 3 s.dec.low.toNat ++ beBytes 3 s.dec.high.toNat ++ beBytes 3 s.dec.code.toNat ++
          beBytes 8 s.dec.pos) s)
  | .encbyte b =>
    let r := encodeByte s.params b s.model s.enc
    advance 2 (setEnc r.2 (setModel r.1 s))
  | .decbyte =>
    let r := decodeByte s.params s.inp s.model s.dec
    advance 1 (resAppend [r.1] (setDec r.2.2 (setModel r.2.1 s)))

/-- Each command is checks that read as its row of R243, before its effect. -/
theorem exec_eq_checked (i : Instr) (s : State) :
    ∃ cs, exec i s = checked cs (commandEffect i) s ∧ firstCode cs = firstFailure s i := by
  cases i with rw [exec]
  | predict _ | cumprob _ | decode _ => exact ⟨_, rfl, by simp [firstFailure, queryChecks]⟩
  | _ => exact ⟨_, rfl, by simp [firstFailure]⟩

section
variable {i : Instr} {s t : State}

theorem exec_of_pass (h : firstFailure s i = none) : exec i s = .next (commandEffect i s) := by
  obtain ⟨cs, hexec, hcode⟩ := exec_eq_checked i s
  rw [hexec, checked_of_pass (Option.map_eq_none_iff.mp (hcode.trans h))]

theorem exec_of_fail {code : Byte} (h : firstFailure s i = some code) : exec i s = .next (faulted code s) :=
  (exec_checksThenCompletes i s).faults h

/-- R10: a command that answers `t` has entered the fault state, or has passed its checks and had its effect. -/
theorem exec_next (h : exec i s = .next t) :
    (∃ c, t = raiseFault c s) ∨ (firstFailure s i = none ∧ t = commandEffect i s) := by
  obtain ⟨cs, hexec, hcode⟩ := exec_eq_checked i s
  obtain ⟨c, -, rfl⟩ | ⟨hfirst, rfl⟩ := checked_next (hexec ▸ h)
  · exact .inl ⟨c, rfl⟩
  · exact .inr ⟨by rw [← hcode, firstCode, hfirst]; rfl, rfl⟩

theorem commandEffect_completed (h : firstFailure s i = none) : Completed i s (commandEffect i s) := by
  obtain ⟨t, hexec, hdone⟩ := (exec_checksThenCompletes i s).completes h
  cases hexec.symm.trans (exec_of_pass h)
  exact hdone

/-- What a step that answers a next state has done (R22, R241). -/
theorem step_next (h : step s = .next t) :
    s.fault = false ∧ ((∃ c, t = raiseFault c s) ∨
      ∃ i rest, decodeCommand (s.cmd.drop s.cp) = .command i rest ∧ exec i s = .next t ∧
        firstFailure s i = none ∧ t = commandEffect i s) := by
  cases hfault : s.fault with
  | true => cases (step_of_fault hfault).symm.trans h
  | false =>
    refine ⟨rfl, ?_⟩
    cases hdecode : decodeCommand (s.cmd.drop s.cp) with
    | ended => cases (step_of_ended hfault hdecode).symm.trans h
    | incomplete => cases (step_of_incomplete hfault hdecode).symm.trans h
    | illegalOpcode op =>
      cases (step_of_illegalOpcode hfault hdecode).symm.trans h
      exact .inl ⟨.illegalOpcode, rfl⟩
    | command i rest =>
      rw [step_of_command hfault hdecode] at h
      obtain hraise | ⟨hpass, heffect⟩ := exec_next h
      · exact .inl hraise
      · exact .inr ⟨i, rest, rfl, h, hpass, heffect⟩

end

/-! ### The streams -/

section
variable (x : Bool) (p0 : F64)

/-- `t` has the CMD, IN and parameters of `s`, and its RES and OUT go on from those of `s`. -/
def StreamsExtend (s t : State) : Prop :=
  t.cmd = s.cmd ∧ t.inp = s.inp ∧ t.params = s.params ∧ s.res <+: t.res ∧ s.enc.out <+: t.enc.out

theorem out_prefix_outBit (e : Encoder) : e.out <+: (outBit x e).out := by
  unfold outBit
  dsimp only
  split
  · exact List.prefix_append ..
  · exact List.prefix_rfl

theorem out_prefix_outBits (n : Nat) (e : Encoder) : e.out <+: (outBits x n e).out := by
  induction n generalizing e with
  | zero => exact List.prefix_rfl
  | succ n ih => exact (out_prefix_outBit x e).trans (ih _)

theorem out_prefix_emitPend (e : Encoder) : e.out <+: (emitPend x e).out :=
  (out_prefix_outBit x e).trans (out_prefix_outBits (!x) e.pend _)

theorem encPass_out (c : Scaling) (e : Encoder) : (encPass c e).out = (scalingEmit c e).out := rfl

theorem out_prefix_encPass (c : Scaling) (e : Encoder) : e.out <+: (encPass c e).out := by
  rw [encPass_out]
  cases c with
  | e1 => exact out_prefix_emitPend false e
  | e2 => exact out_prefix_emitPend true e
  | e3 => exact List.prefix_rfl

theorem out_prefix_encRenorm (fuel : Nat) (e : Encoder) : e.out <+: (encRenorm fuel e).out := by
  induction fuel generalizing e with
  | zero => exact List.prefix_rfl
  | succ fuel ih =>
    rw [encRenorm_succ]
    split
    · exact List.prefix_rfl
    · exact (out_prefix_encPass _ e).trans (ih _)

theorem out_prefix_encodeBit (e : Encoder) : e.out <+: (encodeBit x p0 e).out :=
  out_prefix_encRenorm maxPasses (narrowed x p0 e)

theorem out_prefix_encodeEvents (events : List (Bool × F64)) (e : Encoder) :
    e.out <+: (encodeEvents events e).out := by
  induction events generalizing e with
  | nil => exact List.prefix_rfl
  | cons ev events ih => exact (out_prefix_encodeBit ev.1 ev.2 e).trans (ih _)

theorem out_prefix_padOut (e : Encoder) : e.out <+: (padOut e).out := by
  unfold padOut
  split
  · exact List.prefix_append ..
  · exact List.prefix_rfl

theorem out_prefix_flushBits (e : Encoder) : e.out <+: (flushBits e).out := by
  unfold flushBits
  exact (out_prefix_emitPend _ { e with pend := e.pend + 1 }).trans (out_prefix_padOut _)

theorem out_prefix_encodeByte (p : Params) (b : Byte) (m : Model) (e : Encoder) :
    e.out <+: (encodeByte p b m e).2.out := by
  rw [encodeByte_enc]
  exact out_prefix_encodeEvents _ e

end

/-- R66, R67, command by command: an effect appends to RES, or appends to OUT, or leaves both. -/
theorem streamsExtend_commandEffect (i : Instr) (s : State) : StreamsExtend s (commandEffect i s) := by
  have hquery : ∀ choose bytes n, StreamsExtend s (advance n (resAppend bytes (query choose s))) := by
    intro choose bytes n
    obtain ⟨m, hquery⟩ := query_eq_setModel choose s
    simp [StreamsExtend, hquery]
  cases i with rw [commandEffect]
  | predict b => exact hquery ..
  | cumprob b => exact hquery ..
  | decode x => exact hquery ..
  | ebit bit p0 => simp [StreamsExtend, out_prefix_encodeBit]
  | eflush => simp [StreamsExtend, out_prefix_flushBits]
  | encbyte b => simp [StreamsExtend, out_prefix_encodeByte]
  | _ => simp [StreamsExtend]

/-- Settles O13: fault entry touches no stream, and an effect extends them. -/
theorem streamsOnlyGrow : Obligations.StreamsOnlyGrow := by
  intro i s t h
  obtain ⟨c, rfl⟩ | ⟨-, rfl⟩ := exec_next h
  · exact ⟨rfl, rfl, rfl, List.prefix_rfl, List.prefix_rfl⟩
  · exact streamsExtend_commandEffect i s

/-! ### The end of every run -/

/-- Settles O7: the next state is fault entry, or the effect of a command whose checks passed. -/
theorem stepFaultsInPlaceOrMovesPastTheCommand : Obligations.StepFaultsInPlaceOrMovesPastTheCommand := by
  intro s t h
  obtain ⟨hfault, ⟨c, rfl⟩ | ⟨i, rest, hdecode, hexec, hpass, rfl⟩⟩ := step_next h
  · exact .inl ⟨c, rfl⟩
  · obtain ⟨hfault', hfcode, hcp⟩ := commandEffect_completed hpass
    exact .inr ⟨hfault'.trans hfault, hfcode, i, rest, hdecode, hexec, hcp⟩

theorem cp_lt_of_step_next {s t : State} (h : step s = .next t) : s.cp < s.cmd.length := by
  refine Nat.lt_of_not_le fun hend => ?_
  have hdecode := (decodeCommand_eq_ended_iff _).mpr (List.drop_eq_nil_iff.mpr hend)
  rcases step_cases s with ⟨-, hstep⟩ | ⟨-, -, hstep⟩ | ⟨-, -, hstep⟩ | ⟨-, hnotEnded, -⟩
  · cases hstep.symm.trans h
  · cases hstep.symm.trans h
  · cases hstep.symm.trans h
  · exact hnotEnded hdecode

/-- A step leaves a faulted core, or fewer bytes of CMD. -/
theorem fault_or_fewer_bytes_of_step_next {s t : State} (h : step s = .next t) :
    t.fault = true ∨ t.cmd.length - t.cp < s.cmd.length - s.cp := by
  have hlt := cp_lt_of_step_next h
  obtain ⟨-, ⟨c, rfl⟩ | ⟨i, rest, -, -, hpass, rfl⟩⟩ := step_next h
  · exact .inl rfl
  · obtain ⟨hcmd, -⟩ := streamsExtend_commandEffect i s
    obtain ⟨-, -, hcp⟩ := commandEffect_completed hpass
    have hpos := commandLength_pos i
    rw [hcmd, hcp]
    exact .inr (by omega)

theorem run_succ_of_next {M : Host.Core} {s t : M.State} (n : Nat) (h : M.step s = .next t) :
    M.run (n + 1) s = M.run n t := by rw [Host.Core.run, h]

theorem run_succ_of_fault {M : Host.Core} {s : M.State} {r : M.Fault} (n : Nat) (h : M.step s = .fault r) :
    M.run (n + 1) s = .fault r := by rw [Host.Core.run, h]

/-- R276: fuel above the bytes left reaches an end of the run. -/
theorem exists_run_eq_fault {n : Nat} {s : State} (hfuel : s.cmd.length - s.cp < n) :
    ∃ r, Host.Core.run core n s = .fault r := by
  induction n generalizing s with
  | zero => exact absurd hfuel (Nat.not_lt_zero _)
  | succ n ih =>
    cases hstep : step s with
    | fault r => exact ⟨r, run_succ_of_fault (M := core) n hstep⟩
    | refused r => exact absurd hstep (step_ne_refused s r)
    | next t =>
      rw [run_succ_of_next (M := core) n hstep]
      obtain hfault | hless := fault_or_fewer_bytes_of_step_next hstep
      · obtain ⟨n, rfl⟩ : ∃ j, n = j + 1 := ⟨n - 1, by have := cp_lt_of_step_next hstep; omega⟩
        exact ⟨_, run_succ_of_fault (M := core) n (step_of_fault hfault)⟩
      · exact ih (by omega)

/-- Settles O8: each step faults or leaves fewer bytes, and a faulted core halts at the next step. -/
theorem everyRunEnds : Obligations.EveryRunEnds :=
  fun _ => exists_run_eq_fault (Nat.lt_succ_self _)

end Sys2Proof.Machine
end

/-! ### Canonical trees by their reads

A canonical tree is fixed by what is read at each path. -/
section
namespace Sys2Proof.Machine

section
variable {t u : CtTree} {ps : List KeyPath} {vs ws : List CtNode} {q : KeyPath}

theorem treeGet_of_mem {v : CtNode} (hwf : t.wf = true) (h : (q, v) ∈ t) : treeGet t q = some v := by
  induction t with
  | nil => cases h
  | cons e t ih =>
    obtain ⟨r, w⟩ := e
    obtain ⟨htail, hfirst⟩ := wf_cons hwf
    obtain heq | hmem := List.mem_cons.mp h
    · cases heq
      exact if_pos rfl
    · have hne : r ≠ q := fun heq => by
        have hlt := hfirst _ hmem
        rw [heq, pathLt_irrefl] at hlt
        cases hlt
      rw [treeGet, if_neg hne, ih htail hmem]

/-- The first path of a canonical tree is not below the first path of another with the same reads. -/
theorem not_pathLt_first {p : KeyPath} {v w : CtNode} (hu : CtTree.wf ((q, w) :: u) = true)
    (hget : treeGet ((q, w) :: u) p = some v) : pathLt p q = false := by
  refine Bool.eq_false_iff.mpr fun hlt => ?_
  have hnone := treeGet_eq_none_of_forall_pathLt (t := (q, w) :: u) (p := p) fun e he => by
    obtain rfl | he := List.mem_cons.mp he
    · exact hlt
    · exact pathLt_trans hlt ((wf_cons hu).2 e he)
  cases hnone.symm.trans hget

theorem eq_of_treeGet_eq (ht : t.wf = true) (hu : u.wf = true) (h : ∀ q, treeGet t q = treeGet u q) : t = u := by
  induction t generalizing u with
  | nil => cases u with
    | nil => rfl
    | cons e u => exact absurd (h e.1) (by simp [treeGet])
  | cons e t ih => cases u with
    | nil => exact absurd (h e.1) (by simp [treeGet])
    | cons f u =>
      obtain ⟨p, v⟩ := e
      obtain ⟨q, w⟩ := f
      have hp : treeGet ((q, w) :: u) p = some v := (h p).symm.trans (if_pos rfl)
      have hq : treeGet ((p, v) :: t) q = some w := (h q).trans (if_pos rfl)
      obtain rfl : p = q := by
        by_contra hne
        have hlt := pathLt_total hne (not_pathLt_first hu hp)
        rw [not_pathLt_first ht hq] at hlt
        cases hlt
      obtain rfl : w = v := by simpa [treeGet] using hp
      congr 1
      refine ih (wf_cons ht).1 (wf_cons hu).1 fun r => ?_
      by_cases hr : p = r
      · subst hr
        rw [treeGet_eq_none_of_forall_pathLt (wf_cons ht).2, treeGet_eq_none_of_forall_pathLt (wf_cons hu).2]
      · simpa [treeGet, hr] using h r

/-! ### Writes along a path -/

theorem nodesAt_length (t : CtTree) (ps : List KeyPath) : (nodesAt t ps).length = ps.length := List.length_map _

/-- The nodes written along a path are read back. -/
theorem nodesAt_putNodes (hps : ps.Nodup) (hlen : vs.length = ps.length) : nodesAt (putNodes t ps vs) ps = vs := by
  refine List.ext_getElem ((nodesAt_length ..).trans hlen.symm) fun i hi hi' => ?_
  have hread : treeGet (putNodes t ps vs) (ps[i]'(hlen ▸ hi')) = some vs[i] :=
    treeGet_putNodes_getElem? hps (List.getElem?_eq_getElem _) (List.getElem?_eq_getElem hi')
  simp only [nodesAt, List.getElem_map, hread, Option.getD_some]

/-- Nodes written twice along a path are those written last. -/
theorem putNodes_putNodes (hwf : t.wf = true) (hps : ps.Nodup) (hlen : ws.length = ps.length) :
    putNodes (putNodes t ps vs) ps ws = putNodes t ps ws := by
  refine eq_of_treeGet_eq (putNodes_wf _ _ (putNodes_wf _ _ hwf)) (putNodes_wf _ _ hwf) fun q => ?_
  by_cases hq : q ∈ ps
  · obtain ⟨i, hi, rfl⟩ := List.mem_iff_getElem.mp hq
    have hget : ps[i]? = some ps[i] := List.getElem?_eq_getElem hi
    have hw : ws[i]? = some (ws[i]'(by omega)) := List.getElem?_eq_getElem _
    rw [treeGet_putNodes_getElem? hps hget hw, treeGet_putNodes_getElem? hps hget hw]
  · rw [treeGet_putNodes_other ws hq, treeGet_putNodes_other vs hq, treeGet_putNodes_other ws hq]

/-- Creating a path does not change what is read along it (R120). -/
theorem nodesAt_createPath (t : CtTree) (ps : List KeyPath) : nodesAt (createPath t ps).1 ps = nodesAt t ps :=
  List.map_congr_left fun q hq => by rw [treeGet_createPath_of_mem hq, Option.getD_some]

end
end Sys2Proof.Machine
end

/-! ### An update as a function of its tree

An update reads nothing but the window and the tree of its node; the count of free values only names the masses
at saturated nodes, which nothing reads (R128). -/
section
namespace Sys2Proof.Machine

section
variable (p : Params) (c c' : Nat) (vs : List CtNode)

/-- Two mixings agree but for the masses at saturated nodes. -/
def PathMix.Agree (a b : PathMix) : Prop :=
  a.pr = b.pr ∧ a.sat = b.sat ∧ a.bm.length = b.bm.length ∧
    ∀ i : Nat, a.sat[i]? = some false → a.bm[i]? = b.bm[i]?

theorem mixPath_agree (i : Nat) : (mixPath p c i vs).Agree (mixPath p c' i vs) := by
  induction vs generalizing i with
  | nil => exact ⟨rfl, rfl, rfl, fun _ _ => rfl⟩
  | cons v vs ih => cases vs with
    | nil => exact ⟨rfl, rfl, rfl, fun _ _ => rfl⟩
    | cons w vs =>
      obtain ⟨hpr, hsat, hlen, hbm⟩ := ih (i + 1)
      rw [mixPath_cons_cons, mixPath_cons_cons, hpr, hsat]
      refine ⟨rfl, rfl, congrArg (· + 1) hlen, fun j hj => ?_⟩
      cases j with
      | zero => rw [show saturated p v = false from Option.some.inj hj]; rfl
      | succ j => exact hbm j (hsat ▸ hj)

theorem betaAfter_saturated (bit bit' : Bool) (v : CtNode) (a b d : BitPair) :
    betaAfter p bit true v a d = betaAfter p bit' true v b d := by
  rw [betaAfter, betaAfter, if_pos rfl, if_pos rfl]

theorem PathMix.Agree.updateNode_eq {a b : PathMix} (h : a.Agree b) (bit : Bool) :
    updateNode p bit a = updateNode p bit b := by
  obtain ⟨hpr, hsat, hlen, hbm⟩ := h
  funext i v
  rw [updateNode, updateNode, hpr, ← hsat]
  cases hs : a.sat[i]? with
  | none => rfl
  | some s => cases s with
    | false => rw [hbm i hs]
    | true =>
      by_cases hi : i < a.bm.length
      · rw [List.getElem?_eq_getElem hi, List.getElem?_eq_getElem (hlen ▸ hi)]
        exact congrArg (CtNode.mk _) (betaAfter_saturated ..)
      · rw [List.getElem?_eq_none (by omega), List.getElem?_eq_none (by omega)]

end

/-- The paths of an update: the keys of the window, most recent first (R120). -/
def windowPaths (m : Model) : List KeyPath := pathPrefixes (window m)

theorem nodup_windowPaths (m : Model) : (windowPaths m).Nodup := nodup_pathPrefixes _

/-- The mixing along the paths `ps` of a tree. -/
def treeMix (p : Params) (c : Nat) (ps : List KeyPath) (t : CtTree) : PathMix := mixPath p c 0 (nodesAt t ps)

/-- The tree an update with `bit` leaves of `t`. -/
def updatedTree (p : Params) (bit : Bool) (ps : List KeyPath) (t : CtTree) : CtTree :=
  putNodes (createPath t ps).1 ps ((nodesAt t ps).mapIdx (updateNode p bit (treeMix p 0 ps t)))

/-- How many nodes an update creates in `t`. -/
def createdNodes (ps : List KeyPath) (t : CtTree) : Nat := (createPath t ps).2

/-- The scratch an update of TREE[n] leaves, with the free values drawn at `c` (R128). -/
def updateScratch (p : Params) (n : Nat) (ps : List KeyPath) (t : CtTree) (c : Nat) : Scratch :=
  { valid := true, owner := BitVec.ofNat 8 n, path := ps, saved := (nodesAt t ps).map (·.counts),
    pr := (treeMix p c ps t).pr, bm := (treeMix p c ps t).bm, sat := (treeMix p c ps t).sat }

/-- The pair an update returns. -/
def updatePair (p : Params) (ps : List KeyPath) (t : CtTree) : BitPair := topPair (treeMix p 0 ps t).pr

theorem treeMix_agree (p : Params) (c c' : Nat) (ps : List KeyPath) (t : CtTree) :
    (treeMix p c ps t).Agree (treeMix p c' ps t) := mixPath_agree ..

/-- R120 to R128: an update by its parts. -/
theorem ctUpdate_eq (p : Params) (n : Nat) (bit : Bool) (k : Fin 8) (m : Model) :
    ctUpdate p n bit k m =
      (updatePair p (windowPaths m) (treeOf m n),
        { m with
          trees := m.trees.set (treeIndex n) (updatedTree p bit (windowPaths m) (treeOf m n))
          nodesUsed := m.nodesUsed + BitVec.ofNat 32 (createdNodes (windowPaths m) (treeOf m n))
          scr := m.scr.set k (updateScratch p n (windowPaths m) (treeOf m n) m.fresh)
          fresh := m.fresh + 1 }) := by
  have hagree := treeMix_agree p 0 m.fresh (windowPaths m) (treeOf m n)
  have ⟨hpr, _⟩ := hagree
  rw [updatePair, updatedTree, PathMix.Agree.updateNode_eq p hagree, hpr, treeMix, updateScratch, treeMix,
    ← nodesAt_createPath]
  rfl

section
variable (p : Params) (n : Nat) (bit : Bool) (k : Fin 8) (m : Model)

@[simp] theorem ctUpdate_fst : (ctUpdate p n bit k m).1 = updatePair p (windowPaths m) (treeOf m n) := by
  rw [ctUpdate_eq]
@[simp] theorem ctUpdate_trees : (ctUpdate p n bit k m).2.trees =
    m.trees.set (treeIndex n) (updatedTree p bit (windowPaths m) (treeOf m n)) := by rw [ctUpdate_eq]
@[simp] theorem ctUpdate_nodesUsed : (ctUpdate p n bit k m).2.nodesUsed =
    m.nodesUsed + BitVec.ofNat 32 (createdNodes (windowPaths m) (treeOf m n)) := rfl
@[simp] theorem ctUpdate_scr : (ctUpdate p n bit k m).2.scr =
    m.scr.set k (updateScratch p n (windowPaths m) (treeOf m n) m.fresh) := by rw [ctUpdate_eq]
@[simp] theorem ctUpdate_configured : (ctUpdate p n bit k m).2.configured = m.configured := rfl
@[simp] theorem ctUpdate_d : (ctUpdate p n bit k m).2.d = m.d := rfl
@[simp] theorem ctUpdate_hist : (ctUpdate p n bit k m).2.hist = m.hist := rfl
@[simp] theorem ctUpdate_hloaded : (ctUpdate p n bit k m).2.hloaded = m.hloaded := rfl
@[simp] theorem ctUpdate_dirty : (ctUpdate p n bit k m).2.dirty = m.dirty := rfl
@[simp] theorem ctUpdate_cache : (ctUpdate p n bit k m).2.cache = m.cache := rfl
@[simp] theorem ctUpdate_fresh : (ctUpdate p n bit k m).2.fresh = m.fresh + 1 := rfl

/-- The tree a reupdate with bit 1 leaves of `t` (R129). -/
def correctedTree (scr : Scratch) (t : CtTree) : CtTree :=
  putNodes t scr.path ((nodesAt t scr.path).mapIdx (reupdateNode p scr))

theorem ctReupdate_true : ctReupdate p n true k m =
    invalidate k (setTree n (correctedTree p m.scr[k] (treeOf m n)) m) := rfl

theorem ctReupdate_false : ctReupdate p n false k m = invalidate k m := rfl

end

/-! ### Trees by number -/

theorem treeIndex_val {n : Nat} (hpos : 1 ≤ n) (hn : n ≤ 255) : (treeIndex n).val + 1 = n := by
  simp only [treeIndex]
  omega

/-- R30, R126 and R129: with `restore`, the dummy bit leaves no trace in the node that a reupdate corrects. -/
theorem reupdateNode_updateNode {p : Params} (hrestore : p.reupdateCounters = .restore) {scr : Scratch}
    {mix : PathMix} {i : Nat} {v : CtNode} (hsaved : scr.saved[i]? = some v.counts) (hpr : scr.pr = mix.pr)
    (hbm : scr.bm = mix.bm) (hsat : scr.sat = mix.sat) (hlen : mix.bm.length = mix.sat.length) :
    reupdateNode p scr i (updateNode p false mix i v) = updateNode p true mix i v := by
  have hget : scr.saved.getD i (updateNode p false mix i v).counts = v.counts := by
    rw [List.getD_eq_getElem?_getD, hsaved, Option.getD_some]
  have hcounts : reupdateCounts p v.counts (updateNode p false mix i v).counts = countBit true v.counts := by
    rw [reupdateCounts, hrestore]
    rfl
  rw [reupdateNode, hget, hcounts, hpr, hbm, hsat, updateNode, updateNode]
  cases hs : mix.sat[i]? with
  | none => rfl
  | some s =>
    obtain ⟨hi, -⟩ := List.getElem?_eq_some_iff.mp hs
    rw [List.getElem?_eq_getElem (l := mix.bm) (by omega)]
    cases s with
    | false => exact congrArg (CtNode.mk _) (betaAfter_mixed p true v _ _).symm
    | true => exact congrArg (CtNode.mk _) (betaAfter_saturated p false true v mix.bm[i] _ _)

/-- R133(d): a dummy update with bit 0 and its correction leave the tree that an update with bit 1 leaves. -/
theorem correctedTree_updatedTree {p : Params} (hrestore : p.reupdateCounters = .restore) (n c : Nat)
    {ps : List KeyPath} {t : CtTree} (hps : ps.Nodup) (hwf : t.wf = true) :
    correctedTree p (updateScratch p n ps t c) (updatedTree p false ps t) = updatedTree p true ps t := by
  have hmix : updateNode p false (treeMix p 0 ps t) = updateNode p false (treeMix p c ps t) :=
    (treeMix_agree p 0 c ps t).updateNode_eq p false
  have hmix' : updateNode p true (treeMix p 0 ps t) = updateNode p true (treeMix p c ps t) :=
    (treeMix_agree p 0 c ps t).updateNode_eq p true
  obtain ⟨-, hbm, hsat⟩ := mixPath_lengths p c 0 (nodesAt t ps)
  have hread : nodesAt (updatedTree p false ps t) ps =
      (nodesAt t ps).mapIdx (updateNode p false (treeMix p c ps t)) := by
    rw [updatedTree, hmix]
    exact nodesAt_putNodes hps (by simp [nodesAt_length])
  have hnodes : ((nodesAt t ps).mapIdx (updateNode p false (treeMix p c ps t))).mapIdx
      (reupdateNode p (updateScratch p n ps t c)) =
      (nodesAt t ps).mapIdx (updateNode p true (treeMix p c ps t)) := by
    refine List.ext_getElem (by simp) fun i hi hi' => ?_
    have hlt : i < (nodesAt t ps).length := by simpa using hi
    rw [List.getElem_mapIdx, List.getElem_mapIdx, List.getElem_mapIdx]
    refine reupdateNode_updateNode hrestore ?_ rfl rfl rfl (hbm.trans hsat.symm)
    simp [updateScratch, List.getElem?_eq_getElem hlt]
  rw [correctedTree, show (updateScratch p n ps t c).path = ps from rfl, hread, hnodes, ← hmix', updatedTree,
    putNodes_putNodes (createPath_wf ps hwf) hps (by simp [nodesAt_length])]
  rfl

/-- Settles O31: the trees differ in TREE[n] alone, where the correction meets the true update. -/
theorem dummyThenReupdateEqualsTrueUpdate : Obligations.DummyThenReupdateEqualsTrueUpdate := by
  intro p n k m hrestore hwf
  have hscr : (ctUpdate p n false k m).2.scr[k] =
      updateScratch p n (windowPaths m) (treeOf m n) m.fresh := by
    rw [ctUpdate_eq]
    exact Vector.getElem_set_self _
  have htree : treeOf (ctUpdate p n false k m).2 n = updatedTree p false (windowPaths m) (treeOf m n) := by
    rw [ctUpdate_eq]
    exact Vector.getElem_set_self _
  constructor
  · rw [ctReupdate_true, invalidate_trees, setTree_trees, hscr, htree, ctUpdate_trees, ctUpdate_trees,
      Vector.set_set, correctedTree_updatedTree hrestore n m.fresh (nodup_windowPaths m) hwf]
  · rfl

end Sys2Proof.Machine
end

/-! ### The levels of a byte's path

A walk, its commit and direct updates visit the eight nodes of a byte's path (R150), one a level. What each does
at a level depends on that level's tree and scratch alone, so the levels can be read one by one. -/
section
namespace Sys2Proof.Machine

theorem getElem_set_self_fin {α : Type} {n : Nat} (v : Vector α n) (i : Fin n) (x : α) : (v.set i x)[i] = x :=
  Vector.getElem_set_self _

theorem getElem_set_ne_fin {α : Type} {n : Nat} (v : Vector α n) {i j : Fin n} (x : α) (h : j ≠ i) :
    (v.set i x)[j] = v[j] := Vector.getElem_set_ne _ _ (Fin.val_ne_of_ne h.symm)

/-! ### The nodes of the path -/

/-- The node of level k has 8 - k bits, the marker on top (R37). -/
theorem nodeFor_bounds (b : Byte) (k : Fin 8) : 2 ^ (7 - k.val) ≤ nodeFor b k ∧ nodeFor b k < 2 ^ (8 - k.val) := by
  have hmark : 0x100 ||| b.toNat = 256 + b.toNat := (Nat.two_pow_add_eq_or_of_lt (i := 8) b.isLt 1).symm
  have hb := b.isLt
  have hk := k.isLt
  have hlow : 2 ^ (7 - k.val) * 2 ^ (k.val + 1) = 2 ^ 8 := by
    rw [← pow_add, show 7 - k.val + (k.val + 1) = 8 by omega]
  have hhigh : 2 ^ (8 - k.val) * 2 ^ (k.val + 1) = 2 ^ 9 := by
    rw [← pow_add, show 8 - k.val + (k.val + 1) = 9 by omega]
  rw [nodeFor, hmark, Nat.shiftRight_eq_div_pow]
  exact ⟨(Nat.le_div_iff_mul_le (Nat.two_pow_pos _)).mpr (by omega),
    (Nat.div_lt_iff_lt_mul (Nat.two_pow_pos _)).mpr (by omega)⟩

theorem nodeFor_range (b : Byte) (k : Fin 8) : 1 ≤ nodeFor b k ∧ nodeFor b k ≤ 255 := by
  obtain ⟨hlow, hhigh⟩ := nodeFor_bounds b k
  have hpos := Nat.two_pow_pos (7 - k.val)
  have hle : 2 ^ (8 - k.val) ≤ 2 ^ 8 := Nat.pow_le_pow_right (by decide) (by omega)
  omega

theorem levelOf_nodeFor (b : Byte) (k : Fin 8) : levelOf (nodeFor b k) = k := by
  obtain ⟨hlow, hhigh⟩ := nodeFor_bounds b k
  have hk := k.isLt
  have hlog : (nodeFor b k).log2 = 7 - k.val :=
    (Nat.log2_eq_iff (by have := nodeFor_range b k; omega)).mpr
      ⟨hlow, by rwa [show 7 - k.val + 1 = 8 - k.val by omega]⟩
  exact Fin.ext (by simp only [levelOf, hlog]; omega)

theorem treeIndex_nodeFor_ne (b : Byte) {j k : Fin 8} (h : j ≠ k) :
    treeIndex (nodeFor b j) ≠ treeIndex (nodeFor b k) := fun heq => h <| by
  obtain ⟨hposj, hj⟩ := nodeFor_range b j
  obtain ⟨hposk, hk⟩ := nodeFor_range b k
  have hnode : nodeFor b j = nodeFor b k := by rw [← treeIndex_val hposj hj, heq, treeIndex_val hposk hk]
  rw [← levelOf_nodeFor b j, hnode, levelOf_nodeFor]

/-- The levels `ks` are the next ones of b's path from node `n` down. -/
def Descends (b : Byte) : Nat → List (Fin 8) → Prop
  | _, [] => True
  | n, k :: ks => n = nodeFor b k ∧ Descends b (childNode b n k) ks

theorem Descends.cons {b : Byte} {n : Nat} {k : Fin 8} {ks : List (Fin 8)} (hn : n = nodeFor b k)
    (hks : Descends b (childNode b (nodeFor b k) k) ks) : Descends b n (k :: ks) := ⟨hn, hn ▸ hks⟩

theorem descends_levels (b : Byte) : Descends b 1 levels := by
  have hchild : ∀ k : Nat, (hk : k < 7) → childNode b (nodeFor b (k + 1)) ⟨k + 1, by omega⟩ = nodeFor b k :=
    fun k hk => (nodeFor_eq_child b hk).symm
  exact .cons (nodeFor_root b).symm <| .cons (hchild 6 (by decide)) <| .cons (hchild 5 (by decide)) <|
    .cons (hchild 4 (by decide)) <| .cons (hchild 3 (by decide)) <| .cons (hchild 2 (by decide)) <|
    .cons (hchild 1 (by decide)) <| .cons (hchild 0 (by decide)) trivial

/-! ### A step at a level -/

/-- The entries of a level in the CACHE (R38). -/
def cachePair (c : Cache) (k : Fin 8) : BitPair := { zero := c.p0[k], one := c.p1[k] }

/-- From `m` to `m'` only what belongs to level k of b's path has changed, the counts of nodes and of free values,
DIRTY and the CACHE's BYTE, PROB and CUM apart. -/
structure OnlyLevel (b : Byte) (k : Fin 8) (m m' : Model) : Prop where
  configured : m'.configured = m.configured
  d : m'.d = m.d
  hist : m'.hist = m.hist
  hloaded : m'.hloaded = m.hloaded
  trees : ∀ i : Fin 255, i ≠ treeIndex (nodeFor b k) → m'.trees[i] = m.trees[i]
  scr : ∀ j : Fin 8, j ≠ k → m'.scr[j] = m.scr[j]
  pair : ∀ j : Fin 8, j ≠ k → cachePair m'.cache j = cachePair m.cache j

/-- `m` and `m'` agree on what an operation at level k of b's path reads, and on the level's CACHE entries. -/
structure AgreeAt (b : Byte) (k : Fin 8) (m m' : Model) : Prop where
  d : m'.d = m.d
  hist : m'.hist = m.hist
  tree : treeOf m' (nodeFor b k) = treeOf m (nodeFor b k)
  scr : m'.scr[k] = m.scr[k]
  pair : cachePair m'.cache k = cachePair m.cache k

section
variable {b : Byte} {j k : Fin 8} {ks : List (Fin 8)} {m m' m'' : Model} {f : Model → Fin 8 → Model}

theorem AgreeAt.refl (b : Byte) (k : Fin 8) (m : Model) : AgreeAt b k m m := ⟨rfl, rfl, rfl, rfl, rfl⟩

theorem AgreeAt.trans (h : AgreeAt b k m m') (h' : AgreeAt b k m' m'') : AgreeAt b k m m'' :=
  ⟨h'.d.trans h.d, h'.hist.trans h.hist, h'.tree.trans h.tree, h'.scr.trans h.scr,
    h'.pair.trans h.pair⟩

theorem AgreeAt.windowPaths (h : AgreeAt b k m m') : windowPaths m' = windowPaths m := by
  rw [Machine.windowPaths, Machine.windowPaths, window, window, h.d, h.hist]

theorem OnlyLevel.agreeAt (h : OnlyLevel b j m m') (hne : k ≠ j) : AgreeAt b k m m' :=
  ⟨h.d, h.hist, h.trees _ (treeIndex_nodeFor_ne b hne), h.scr k hne, h.pair k hne⟩

section
variable (hf : ∀ m k, OnlyLevel b k m (f m k))
include hf

theorem foldl_agreeAt (hk : k ∉ ks) (m : Model) : AgreeAt b k m (ks.foldl f m) := by
  induction ks generalizing m with
  | nil => exact .refl b k m
  | cons j ks ih =>
    have hne : k ≠ j := List.ne_of_not_mem_cons hk
    exact ((hf m j).agreeAt hne).trans (ih (List.not_mem_of_not_mem_cons hk) _)

/-- A level is read and written by its own step alone. -/
theorem foldl_at_level (hnodup : ks.Nodup) (hk : k ∈ ks) (m : Model) :
    ∃ mk, AgreeAt b k m mk ∧ AgreeAt b k (f mk k) (ks.foldl f m) := by
  obtain ⟨pre, post, rfl⟩ := List.append_of_mem hk
  have hpre : k ∉ pre := fun h => (List.nodup_append.mp hnodup).2.2 k h k List.mem_cons_self rfl
  have hpost : k ∉ post := (List.nodup_cons.mp (List.nodup_append.mp hnodup).2.1).1
  rw [List.foldl_append, List.foldl_cons]
  exact ⟨_, foldl_agreeAt hf hpre m, foldl_agreeAt hf hpost _⟩

theorem foldl_frame (m : Model) :
    (ks.foldl f m).configured = m.configured ∧ (ks.foldl f m).d = m.d ∧ (ks.foldl f m).hist = m.hist ∧
    (ks.foldl f m).hloaded = m.hloaded := by
  induction ks generalizing m with
  | nil => exact ⟨rfl, rfl, rfl, rfl⟩
  | cons k ks ih =>
    have hk := hf m k
    rw [List.foldl_cons, ← hk.configured, ← hk.d, ← hk.hist, ← hk.hloaded]
    exact ih _

/-- The trees off the path stay. -/
theorem foldl_other_trees {i : Fin 255} (hi : ∀ k ∈ ks, i ≠ treeIndex (nodeFor b k)) (m : Model) :
    (ks.foldl f m).trees[i] = m.trees[i] := by
  induction ks generalizing m with
  | nil => rfl
  | cons k ks ih =>
    obtain ⟨hk, hks⟩ := List.forall_mem_cons.mp hi
    rw [List.foldl_cons, ih hks, (hf m k).trees i hk]

/-- R34: steps that count the nodes they create count those missing before the first step. -/
theorem foldl_nodesUsed (hnodup : ks.Nodup)
    (hcount : ∀ m (k : Fin 8), (f m k).nodesUsed =
      m.nodesUsed + BitVec.ofNat 32 (createdNodes (windowPaths m) (treeOf m (nodeFor b k)))) (m : Model) :
    (ks.foldl f m).nodesUsed = ks.foldl (fun n (k : Fin 8) =>
      n + BitVec.ofNat 32 (createdNodes (windowPaths m) (treeOf m (nodeFor b k)))) m.nodesUsed := by
  induction ks generalizing m with
  | nil => rfl
  | cons k ks ih =>
    obtain ⟨hk, hks⟩ := List.nodup_cons.mp hnodup
    rw [List.foldl_cons, List.foldl_cons, ih hks, hcount]
    refine List.foldl_ext _ _ _ fun n j hj => ?_
    have hagree := (hf m k).agreeAt (ne_of_mem_of_not_mem hj hk)
    rw [hagree.windowPaths, hagree.tree]

end
end

end Sys2Proof.Machine
end

/-! ### Walks by levels

The walk of a byte, its commit and the direct updates of R154(a), each as a fold of steps at the byte's nodes. -/
section
namespace Sys2Proof.Machine

/-- Write the entries of a level. -/
def setCachePair (c : Cache) (k : Fin 8) (pair : BitPair) : Cache :=
  { c with p0 := c.p0.set k pair.zero, p1 := c.p1.set k pair.one }

/-- What a walk of `b` does to the model at a level (R152). -/
def walkStep (p : Params) (b : Byte) (m : Model) (k : Fin 8) : Model :=
  { (ctUpdate p (nodeFor b k) false k m).2 with
    cache := setCachePair m.cache k (ctUpdate p (nodeFor b k) false k m).1 }

/-- What a commit of `b` does at a level (R153). -/
def commitStep (p : Params) (b : Byte) (m : Model) (k : Fin 8) : Model :=
  invalidate k (if b.getLsbD k then ctReupdate p (nodeFor b k) true k m else m)

/-- A direct update with the true bit (R154(a)). -/
def directStep (p : Params) (b : Byte) (m : Model) (k : Fin 8) : Model :=
  (ctUpdate p (nodeFor b k) (b.getLsbD k) k m).2

section
variable (p : Params) (b : Byte) (m : Model) {ks : List (Fin 8)}

theorem cachePair_setCachePair_self (c : Cache) (k : Fin 8) (pair : BitPair) :
    cachePair (setCachePair c k pair) k = pair := by
  simp only [cachePair, setCachePair, getElem_set_self_fin]

theorem cachePair_setCachePair_ne (c : Cache) {j k : Fin 8} (pair : BitPair) (h : j ≠ k) :
    cachePair (setCachePair c k pair) j = cachePair c j := by
  simp only [cachePair, setCachePair, getElem_set_ne_fin _ _ h]

theorem onlyLevel_ctUpdate (bit : Bool) (k : Fin 8) : OnlyLevel b k m (ctUpdate p (nodeFor b k) bit k m).2 where
  configured := rfl
  d := rfl
  hist := rfl
  hloaded := rfl
  trees i hi := by rw [ctUpdate_trees, getElem_set_ne_fin _ _ hi]
  scr j hj := by rw [ctUpdate_scr, getElem_set_ne_fin _ _ hj]
  pair _ _ := rfl

theorem onlyLevel_directStep (k : Fin 8) : OnlyLevel b k m (directStep p b m k) := onlyLevel_ctUpdate p b m _ k

theorem onlyLevel_walkStep (k : Fin 8) : OnlyLevel b k m (walkStep p b m k) where
  __ := onlyLevel_ctUpdate p b m false k
  pair _ hj := cachePair_setCachePair_ne _ _ hj

theorem onlyLevel_invalidate {m' : Model} {k : Fin 8} (h : OnlyLevel b k m m') : OnlyLevel b k m (invalidate k m') where
  __ := h
  scr j hj := by rw [invalidate_scr, getElem_set_ne_fin _ _ hj, h.scr j hj]

theorem onlyLevel_refl (k : Fin 8) : OnlyLevel b k m m :=
  ⟨rfl, rfl, rfl, rfl, fun _ _ => rfl, fun _ _ => rfl, fun _ _ => rfl⟩

theorem onlyLevel_setTree (k : Fin 8) (t : CtTree) : OnlyLevel b k m (setTree (nodeFor b k) t m) where
  __ := onlyLevel_refl b m k
  trees i hi := by rw [setTree_trees, getElem_set_ne_fin _ _ hi]

theorem onlyLevel_commitStep (k : Fin 8) : OnlyLevel b k m (commitStep p b m k) := by
  refine onlyLevel_invalidate b m ?_
  split
  · rw [ctReupdate_true]
    exact onlyLevel_invalidate b m (onlyLevel_setTree b m k _)
  · exact onlyLevel_refl b m k

/-! ### What a level holds after its step -/

section
variable (k : Fin 8)

theorem treeOf_ctUpdate (n : Nat) (bit : Bool) : treeOf (ctUpdate p n bit k m).2 n =
    updatedTree p bit (windowPaths m) (treeOf m n) := by
  rw [treeOf, ctUpdate_trees, getElem_set_self_fin]

theorem scr_ctUpdate (n : Nat) (bit : Bool) : (ctUpdate p n bit k m).2.scr[k] =
    updateScratch p n (windowPaths m) (treeOf m n) m.fresh := by
  rw [ctUpdate_scr, getElem_set_self_fin]

theorem treeOf_walkStep : treeOf (walkStep p b m k) (nodeFor b k) =
    updatedTree p false (windowPaths m) (treeOf m (nodeFor b k)) := treeOf_ctUpdate p m k _ false

theorem scr_walkStep : (walkStep p b m k).scr[k] =
    updateScratch p (nodeFor b k) (windowPaths m) (treeOf m (nodeFor b k)) m.fresh :=
  scr_ctUpdate p m k _ false

theorem cachePair_walkStep : cachePair (walkStep p b m k).cache k =
    updatePair p (windowPaths m) (treeOf m (nodeFor b k)) := by
  rw [← ctUpdate_fst p (nodeFor b k) false k m]
  exact cachePair_setCachePair_self ..

theorem treeOf_directStep : treeOf (directStep p b m k) (nodeFor b k) =
    updatedTree p (b.getLsbD k) (windowPaths m) (treeOf m (nodeFor b k)) := treeOf_ctUpdate ..

theorem treeOf_invalidate (n : Nat) : treeOf (invalidate k m) n = treeOf m n := rfl

theorem treeOf_ctReupdate_true (n : Nat) : treeOf (ctReupdate p n true k m) n =
    correctedTree p m.scr[k] (treeOf m n) := by
  rw [ctReupdate_true, treeOf_invalidate, treeOf_setTree]

theorem treeOf_commitStep : treeOf (commitStep p b m k) (nodeFor b k) =
    if b.getLsbD k then correctedTree p m.scr[k] (treeOf m (nodeFor b k)) else treeOf m (nodeFor b k) := by
  rw [commitStep, treeOf_invalidate]
  split
  · exact treeOf_ctReupdate_true ..
  · rfl

theorem valid_commitStep : (commitStep p b m k).scr[k].valid = false := by
  rw [commitStep, invalidate_scr, getElem_set_self_fin]
  rfl

end

/-! ### The folds -/

theorem foldl_walkLevel_model {w : Walking Unit} (h : Descends b w.node ks) :
    (ks.foldl (walkLevel p (known b)) w).model = ks.foldl (walkStep p b) w.model := by
  induction ks generalizing w with
  | nil => rfl
  | cons k ks ih =>
    obtain ⟨hnode, hks⟩ := h
    have hstep : (walkLevel p (known b) w k).model = walkStep p b w.model k := by
      rw [walkStep, ← hnode]
      rfl
    rw [List.foldl_cons, ih hks, hstep, List.foldl_cons]

theorem foldl_commitLevel {n : Nat} (h : Descends b n ks) :
    (ks.foldl (commitLevel p b) (n, m)).2 = ks.foldl (commitStep p b) m := by
  induction ks generalizing n m with
  | nil => rfl
  | cons k ks ih =>
    obtain ⟨hnode, hks⟩ := h
    have hstep : commitLevel p b (n, m) k = (childNode b n k, commitStep p b m k) := by
      rw [commitStep, ← hnode]
      rfl
    rw [List.foldl_cons, hstep, ih _ hks, List.foldl_cons]

/-- The model of a walk of `b` before its last writes (R152). -/
def walkedModel : Model := levels.foldl (walkStep p b) m

/-- The model of a commit of `b` before its last writes (R153). -/
def committedModel : Model := levels.foldl (commitStep p b) m

/-- The running values of a walk of `b` after its last level. -/
def walkedValues : Walking Unit := levels.foldl (walkLevel p (known b)) (walkStart m ())

theorem walkedValues_model : (walkedValues p b m).model = walkedModel p b m :=
  foldl_walkLevel_model p b (descends_levels b)

/-- The walk of a known byte: its levels, then BYTE, PROB, CUM and DIRTY (R152). -/
theorem walk_known_eq : (walk p (known b) m ()).1 =
    { walkedModel p b m with
      cache := { (walkedModel p b m).cache with
        byte := b, prob := (walkedValues p b m).prob, cum := (walkedValues p b m).cum }
      dirty := true } := by
  have hbyte : BitVec.ofNat 8 ((walkedValues p b m).node - 256) = b := walk_known_byte p b m
  rw [walk_eq_result, Walking.result, ← walkedValues, walkedValues_model, hbyte]

theorem walk_known_trees : (walk p (known b) m ()).1.trees = (walkedModel p b m).trees := by rw [walk_known_eq]

theorem walk_known_scr : (walk p (known b) m ()).1.scr = (walkedModel p b m).scr := by rw [walk_known_eq]

theorem walk_known_nodesUsed : (walk p (known b) m ()).1.nodesUsed = (walkedModel p b m).nodesUsed := by
  rw [walk_known_eq]

theorem walk_known_treeOf (n : Nat) : treeOf (walk p (known b) m ()).1 n = treeOf (walkedModel p b m) n := by
  rw [treeOf, treeOf, walk_known_trees]

theorem walk_known_cachePair (k : Fin 8) :
    cachePair (walk p (known b) m ()).1.cache k = cachePair (walkedModel p b m).cache k := by
  rw [walk_known_eq]
  rfl

/-- R152: a walk changes none of these. -/
theorem walk_known_frame : (walk p (known b) m ()).1.configured = m.configured ∧
    (walk p (known b) m ()).1.d = m.d ∧ (walk p (known b) m ()).1.hist = m.hist ∧
    (walk p (known b) m ()).1.hloaded = m.hloaded := by
  rw [walk_known_eq]
  exact foldl_frame (onlyLevel_walkStep p b) m

theorem commit_eq : commit p b m = { committedModel p b m with
    hist := (b :: (committedModel p b m).hist).take (committedModel p b m).d.toNat
    dirty := false
    cache := freeCache (committedModel p b m).fresh
    fresh := (committedModel p b m).fresh + 1 } := by
  rw [commit, foldl_commitLevel p b m (descends_levels b), committedModel]

theorem trees_commit : (commit p b m).trees = (committedModel p b m).trees := by rw [commit_eq]

theorem treeOf_commit (n : Nat) : treeOf (commit p b m) n = treeOf (committedModel p b m) n := by
  rw [treeOf, treeOf, trees_commit]

theorem nodup_levels : levels.Nodup := by decide

theorem mem_levels (k : Fin 8) : k ∈ levels := by revert k; decide

/-! ### The walk and the commit, read at a level -/

section
variable (k : Fin 8)

theorem treeOf_walkedModel : treeOf (walkedModel p b m) (nodeFor b k) =
    updatedTree p false (windowPaths m) (treeOf m (nodeFor b k)) := by
  obtain ⟨mk, hbefore, hafter⟩ := foldl_at_level (onlyLevel_walkStep p b) nodup_levels (mem_levels k) m
  rw [walkedModel, hafter.tree, treeOf_walkStep, hbefore.windowPaths, hbefore.tree]

theorem scr_walkedModel : ∃ c, (walkedModel p b m).scr[k] =
    updateScratch p (nodeFor b k) (windowPaths m) (treeOf m (nodeFor b k)) c := by
  obtain ⟨mk, hbefore, hafter⟩ := foldl_at_level (onlyLevel_walkStep p b) nodup_levels (mem_levels k) m
  exact ⟨mk.fresh, by rw [walkedModel, hafter.scr, scr_walkStep, hbefore.windowPaths, hbefore.tree]⟩

theorem cachePair_walkedModel : cachePair (walkedModel p b m).cache k =
    updatePair p (windowPaths m) (treeOf m (nodeFor b k)) := by
  obtain ⟨mk, hbefore, hafter⟩ := foldl_at_level (onlyLevel_walkStep p b) nodup_levels (mem_levels k) m
  rw [walkedModel, hafter.pair, cachePair_walkStep, hbefore.windowPaths, hbefore.tree]

theorem trees_walkedModel_other {i : Fin 255} (hi : ∀ k : Fin 8, i ≠ treeIndex (nodeFor b k)) :
    (walkedModel p b m).trees[i] = m.trees[i] :=
  foldl_other_trees (onlyLevel_walkStep p b) (fun k _ => hi k) m

theorem treeOf_committedModel : treeOf (committedModel p b m) (nodeFor b k) =
    if b.getLsbD k then correctedTree p m.scr[k] (treeOf m (nodeFor b k)) else treeOf m (nodeFor b k) := by
  obtain ⟨mk, hbefore, hafter⟩ := foldl_at_level (onlyLevel_commitStep p b) nodup_levels (mem_levels k) m
  rw [committedModel, hafter.tree, treeOf_commitStep, hbefore.scr, hbefore.tree]

theorem valid_committedModel : (committedModel p b m).scr[k].valid = false := by
  obtain ⟨mk, -, hafter⟩ := foldl_at_level (onlyLevel_commitStep p b) nodup_levels (mem_levels k) m
  rw [committedModel, hafter.scr, valid_commitStep]

theorem trees_committedModel_other {i : Fin 255} (hi : ∀ k : Fin 8, i ≠ treeIndex (nodeFor b k)) :
    (committedModel p b m).trees[i] = m.trees[i] :=
  foldl_other_trees (onlyLevel_commitStep p b) (fun k _ => hi k) m

end

/-- R153: a commit creates no node. -/
theorem nodesUsed_commit : (commit p b m).nodesUsed = m.nodesUsed := by
  have hstep : ∀ m k, (commitStep p b m k).nodesUsed = m.nodesUsed := fun m k => by
    rw [commitStep, invalidate_nodesUsed]
    split <;> rfl
  rw [commit_eq]
  unfold committedModel
  generalize levels = ks
  induction ks generalizing m with
  | nil => rfl
  | cons k ks ih => exact (ih _).trans (hstep m k)

end

/-- A tree of the store is one on b's path or off it. -/
theorem onPath_or_offPath (b : Byte) (i : Fin 255) :
    (∃ k : Fin 8, i = treeIndex (nodeFor b k)) ∨ ∀ k : Fin 8, i ≠ treeIndex (nodeFor b k) := by
  by_cases h : ∃ k : Fin 8, i = treeIndex (nodeFor b k)
  · exact .inl h
  · exact .inr fun k heq => h ⟨k, heq⟩

/-- The trees after a walk of `b` and its commit, with `restore`, are those after the true updates. -/
theorem trees_commit_walk_known {p : Params} (b : Byte) {m : Model} (hrestore : p.reupdateCounters = .restore)
    (hwf : ∀ i : Fin 255, (m.trees[i]).wf = true) (i : Fin 255) :
    (commit p b (walk p (known b) m ()).1).trees[i] = (levels.foldl (directStep p b) m).trees[i] := by
  obtain ⟨k, rfl⟩ | hoff := onPath_or_offPath b i
  · obtain ⟨mk, hbefore, hafter⟩ := foldl_at_level (onlyLevel_directStep p b) nodup_levels (mem_levels k) m
    have hdirect : treeOf (levels.foldl (directStep p b) m) (nodeFor b k) =
        updatedTree p (b.getLsbD k) (windowPaths m) (treeOf m (nodeFor b k)) := by
      rw [hafter.tree, treeOf_directStep, hbefore.windowPaths, hbefore.tree]
    obtain ⟨c, hscr⟩ := scr_walkedModel p b m k
    change treeOf (commit p b (walk p (known b) m ()).1) (nodeFor b k) = treeOf _ (nodeFor b k)
    rw [hdirect, treeOf_commit, treeOf_committedModel, walk_known_scr, walk_known_treeOf, treeOf_walkedModel, hscr]
    cases b.getLsbD k with
    | false => rfl
    | true => exact correctedTree_updatedTree hrestore _ c (nodup_windowPaths m) (hwf _)
  · rw [trees_commit, trees_committedModel_other p b _ hoff, walk_known_trees,
      trees_walkedModel_other p b m hoff, foldl_other_trees (onlyLevel_directStep p b) (fun k _ => hoff k) m]

/-- Settles O42: off the path no tree changes; on it, the correction of a level whose bit is 1 meets the true
update, and at the other levels the dummy bit is the true one. -/
theorem walkThenCommitEqualsTrueUpdates : Obligations.WalkThenCommitEqualsTrueUpdates := by
  intro p b m hrestore hwf committed direct
  refine ⟨Vector.ext fun i hi => trees_commit_walk_known b hrestore hwf ⟨i, hi⟩, ?_⟩
  have hwalk := foldl_nodesUsed (onlyLevel_walkStep p b) nodup_levels (fun _ _ => rfl) m
  have hdirect := foldl_nodesUsed (onlyLevel_directStep p b) nodup_levels (fun _ _ => rfl) m
  calc committed.nodesUsed
    _ = (walk p (known b) m ()).1.nodesUsed := by rw [nodesUsed_commit]
    _ = (levels.foldl (walkStep p b) m).nodesUsed := walk_known_nodesUsed p b m
    _ = direct.nodesUsed := hwalk.trans hdirect.symm

end Sys2Proof.Machine
end

/-! ### The choices of a walk

Whatever picks the bits, a walk is the walk of the byte it takes (R154(c)). -/
section
namespace Sys2Proof.Machine

section
variable {σ : Type} {p : Params} {choose : Chooser σ} {b b' : Byte} {k : Fin 8} {ks js : List (Fin 8)}

/-- What a chooser answers at a level: from the level's p0 and its c1 (R151, R152). -/
def pick (p : Params) (choose : Chooser σ) (w : Walking σ) (k : Fin 8) : Bool × σ :=
  choose k (levelP0 p w k) (numAdd w.cum (numMul w.prob (levelP0 p w k))) w.outer

/-- From `w` the chooser picks the bits of `b` at the levels `ks`. -/
def Follows (p : Params) (choose : Chooser σ) (b : Byte) : List (Fin 8) → Walking σ → Prop
  | [], _ => True
  | k :: ks, w => (pick p choose w k).1 = b.getLsbD k ∧ Follows p choose b ks (walkLevel p choose w k)

theorem Follows.congr {w : Walking σ} (h : Follows p choose b ks w)
    (hbits : ∀ k : Fin 8, k ∈ ks → b.getLsbD k = b'.getLsbD k) : Follows p choose b' ks w := by
  induction ks generalizing w with
  | nil => trivial
  | cons k ks ih =>
    obtain ⟨hbit, hrest⟩ := h
    obtain ⟨hk, hks⟩ := List.forall_mem_cons.mp hbits
    exact ⟨hbit.trans hk, ih hrest hks⟩

/-- One bit of a byte can be chosen. -/
theorem exists_byte_with_bit (b : Byte) (k : Fin 8) (x : Bool) :
    ∃ b' : Byte, b'.getLsbD k = x ∧ ∀ j : Fin 8, j ≠ k → b.getLsbD j = b'.getLsbD j := by
  by_cases hx : b.getLsbD k = x
  · exact ⟨b, hx, fun _ _ => rfl⟩
  · refine ⟨b ^^^ BitVec.twoPow 8 k, ?_, fun j hj => ?_⟩
    · have hflip : (b ^^^ BitVec.twoPow 8 k).getLsbD k = !b.getLsbD k := by
        rw [BitVec.getLsbD_xor, BitVec.getLsbD_twoPow]
        simp
      rw [hflip]
      exact Bool.not_eq.mpr hx
    · have hne : k.val ≠ j.val := Fin.val_ne_of_ne hj.symm
      rw [BitVec.getLsbD_xor, BitVec.getLsbD_twoPow]
      simp [hne]

theorem exists_follows (p : Params) (choose : Chooser σ) (hnodup : ks.Nodup) (w : Walking σ) :
    ∃ b, Follows p choose b ks w := by
  induction ks generalizing w with
  | nil => exact ⟨0, trivial⟩
  | cons k ks ih =>
    obtain ⟨hk, hks⟩ := List.nodup_cons.mp hnodup
    obtain ⟨b, hrest⟩ := ih hks (walkLevel p choose w k)
    obtain ⟨b', hbit, hother⟩ := exists_byte_with_bit b k (pick p choose w k).1
    exact ⟨b', hbit.symm, hrest.congr fun j hj => hother j (ne_of_mem_of_not_mem hj hk)⟩

/-- Where the chooser picks the bits of `b`, the walk takes the steps of the known byte. -/
theorem Follows.foldl_eq {w : Walking Unit} {o : σ} (h : Follows p choose b ks (w.withOuter o)) :
    ∃ o', ks.foldl (walkLevel p choose) (w.withOuter o) = (ks.foldl (walkLevel p (known b)) w).withOuter o' := by
  induction ks generalizing w o with
  | nil => exact ⟨o, rfl⟩
  | cons k ks ih =>
    obtain ⟨hbit, hrest⟩ := h
    have hstep := walkLevel_of_choice (choose := choose) (o := o) w (Prod.ext hbit rfl)
    rw [hstep] at hrest
    rw [List.foldl_cons, hstep, List.foldl_cons]
    exact ih hrest

theorem Follows.split {w : Walking σ} (h : Follows p choose b (ks ++ k :: js) w) :
    Follows p choose b ks w ∧ (pick p choose (ks.foldl (walkLevel p choose) w) k).1 = b.getLsbD k := by
  induction ks generalizing w with
  | nil => exact ⟨trivial, h.1⟩
  | cons j ks ih =>
    obtain ⟨hbit, hrest⟩ := h
    obtain ⟨hks, hk⟩ := ih hrest
    exact ⟨⟨hbit, hks⟩, hk⟩

/-- R154(c): a walk is the walk of a known byte, which its chooser picks. -/
theorem exists_walk_eq_known (p : Params) (choose : Chooser σ) (m : Model) (o : σ) :
    ∃ b o', walk p choose m o = ((walk p (known b) m ()).1, o') ∧ Follows p choose b levels (walkStart m o) := by
  obtain ⟨b, hfollows⟩ := exists_follows p choose nodup_levels (walkStart m o)
  obtain ⟨o', hfold⟩ := Follows.foldl_eq (w := walkStart m ()) hfollows
  refine ⟨b, o', ?_, hfollows⟩
  rw [walk_eq_result, show walkStart m o = (walkStart m ()).withOuter o from rfl, hfold,
    Walking.result_withOuter, ← walk_eq_result]

/-- The model a walk leaves is that of the walk of its byte. -/
theorem walk_model_eq_known (p : Params) (choose : Chooser σ) (m : Model) (o : σ) :
    (walk p choose m o).1 = (walk p (known (walk p choose m o).1.cache.byte) m ()).1 := by
  obtain ⟨b, o', hwalk, -⟩ := exists_walk_eq_known p choose m o
  rw [hwalk, walk_known_byte]

end

/-! ### The running masses -/

section
variable (p : Params) (b : Byte) {ks js : List (Fin 8)} {k : Fin 8}

/-- The pair CtUpdate with bit 0 returns at the walk's node. -/
def levelPair (w : Walking Unit) (k : Fin 8) : BitPair := (ctUpdate p w.node false k w.model).1

theorem cachePair_walkLevel_self (w : Walking Unit) (k : Fin 8) :
    cachePair (walkLevel p (known b) w k).model.cache k = levelPair p w k :=
  cachePair_setCachePair_self ..

theorem cachePair_foldl_walkLevel (hk : k ∉ ks) (w : Walking Unit) :
    cachePair (ks.foldl (walkLevel p (known b)) w).model.cache k = cachePair w.model.cache k := by
  induction ks generalizing w with
  | nil => rfl
  | cons j ks ih =>
    rw [List.foldl_cons, ih (List.not_mem_of_not_mem_cons hk)]
    exact cachePair_setCachePair_ne _ _ (List.ne_of_not_mem_cons hk)

/-- A walk's CACHE holds at the end the pair of each level. -/
theorem cachePair_foldl_split (hk : k ∉ js) (w : Walking Unit) :
    cachePair ((ks ++ k :: js).foldl (walkLevel p (known b)) w).model.cache k =
      levelPair p (ks.foldl (walkLevel p (known b)) w) k := by
  rw [List.foldl_append, List.foldl_cons, cachePair_foldl_walkLevel p b hk, cachePair_walkLevel_self]

/-- R152: prob and cum after a level. -/
theorem walkLevel_known_masses (w : Walking Unit) (k : Fin 8) :
    ((walkLevel p (known b) w k).prob, (walkLevel p (known b) w k).cum) =
      (numMul w.prob (if b.getLsbD k then (levelPair p w k).one else (levelPair p w k).zero),
       if b.getLsbD k then numAdd w.cum (numMul w.prob (levelPair p w k).zero) else w.cum) :=
  Prod.ext (apply_ite (numMul w.prob) _ _ _).symm rfl

/-- R152: PROB and CUM run over the pairs recorded in the CACHE. -/
theorem massRun_eq (hnodup : (ks ++ js).Nodup) (m : Model) {c : Cache}
    (hc : ∀ k, cachePair c k = cachePair ((ks ++ js).foldl (walkLevel p (known b)) (walkStart m ())).model.cache k) :
    massRun b c ks = ((ks.foldl (walkLevel p (known b)) (walkStart m ())).prob,
      (ks.foldl (walkLevel p (known b)) (walkStart m ())).cum) := by
  induction ks using List.reverseRecOn generalizing js with
  | nil => rfl
  | append_singleton ks k ih =>
    rw [List.append_assoc, List.singleton_append] at hnodup hc
    have hk : k ∉ js := (List.nodup_cons.mp (List.nodup_append.mp hnodup).2.1).1
    have hpair : cachePair c k = levelPair p (ks.foldl (walkLevel p (known b)) (walkStart m ())) k :=
      (hc k).trans (cachePair_foldl_split p b hk _)
    have hzero : c.p0[k] = (levelPair p (ks.foldl (walkLevel p (known b)) (walkStart m ())) k).zero :=
      congrArg BitPair.zero hpair
    have hone : c.p1[k] = (levelPair p (ks.foldl (walkLevel p (known b)) (walkStart m ())) k).one :=
      congrArg BitPair.one hpair
    rw [massRun_append_level, ih hnodup hc, hzero, hone, List.foldl_append, List.foldl_cons, List.foldl_nil,
      walkLevel_known_masses]

end
end Sys2Proof.Machine
end

/-! ### The obligations of 43_bdt.md -/
section
namespace Sys2Proof.Machine

section
variable (p : Params) (b : Byte) (m : Model) (k : Fin 8)

theorem updateScratch_owner (ps : List KeyPath) (t : CtTree) (c : Nat) :
    (updateScratch p (nodeFor b k) ps t c).owner.toNat = nodeFor b k := by
  have hle := (nodeFor_range b k).2
  exact Nat.mod_eq_of_lt (by omega)

/-- R152, R220: the recorded pair of a level is what CtUpdate with bit 0 returns at its node. -/
theorem walk_known_pair :
    cachePair (walk p (known b) m ()).1.cache k = (ctUpdate p (nodeFor b k) false k m).1 := by
  rw [walk_known_cachePair, cachePair_walkedModel, ctUpdate_fst]

/-- R152: PROB and CUM. -/
theorem walk_known_masses :
    massRun b (walk p (known b) m ()).1.cache levels =
      ((walk p (known b) m ()).1.cache.prob, (walk p (known b) m ()).1.cache.cum) := by
  rw [massRun_eq p b (js := []) (by decide) m fun k => ?_, walk_known_eq]
  · rfl
  · rw [walk_known_cachePair, ← walkedValues_model]
    rfl

/-- Settles O37: each level holds what its own update leaves, and the running values are those of the levels. -/
theorem walkOfAKnownByte : Obligations.WalkOfAKnownByte := by
  intro p b m w run
  have hmass : run = (w.cache.prob, w.cache.cum) := walk_known_masses p b m
  obtain ⟨hconfigured, hd, hhist, hloaded⟩ := walk_known_frame p b m
  refine ⟨rfl, walk_known_byte p b m, by rw [hmass], by rw [hmass], hhist, hloaded, hd, hconfigured,
    fun k => ?_⟩
  obtain ⟨c, hscr⟩ := scr_walkedModel p b m k
  rw [← walk_known_scr] at hscr
  have hpair := walk_known_pair p b m k
  obtain ⟨hpr, hsat, -, hbm⟩ := treeMix_agree p c m.fresh (windowPaths m) (treeOf m (nodeFor b k))
  rw [show w.scr[k] = _ from hscr]
  refine ⟨rfl, updateScratch_owner .., ?_⟩
  intro u
  rw [show u.2.scr[k] = _ from scr_ctUpdate ..]
  refine ⟨congrArg BitPair.zero hpair, congrArg BitPair.one hpair, ?_, rfl, rfl, hpr, hsat, hbm⟩
  rw [walk_known_treeOf, treeOf_walkedModel, treeOf_ctUpdate]

/-- A path off the window's is no path of an update. -/
theorem not_mem_windowPaths {q : KeyPath} (hq : ∀ i < m.d.toNat, q ≠ pathKey m i) : q ∉ windowPaths m := by
  rw [windowPaths, pathPrefixes_eq_map_take, window]
  intro hmem
  obtain ⟨i, hi, rfl⟩ := List.mem_map.mp hmem
  rw [List.mem_range, List.length_take] at hi
  exact hq i (by omega) (by rw [List.take_take, pathKey, Nat.min_eq_left (by omega)])

theorem treeGet_updatedTree_other {bit : Bool} {ps : List KeyPath} {t : CtTree} {q : KeyPath} (hq : q ∉ ps) :
    treeGet (updatedTree p bit ps t) q = treeGet t q := by
  rw [updatedTree, treeGet_putNodes_other _ hq, treeGet_createPath (.inl hq)]

theorem treeGet_correctedTree_other {scr : Scratch} {t : CtTree} {q : KeyPath} (hq : q ∉ scr.path) :
    treeGet (correctedTree p scr t) q = treeGet t q := treeGet_putNodes_other _ hq

/-- R153: a commit changes no node off the path of a level's scratch. -/
theorem treeGet_commit_other {q : KeyPath} (hq : q ∉ m.scr[k].path) :
    treeGet (treeOf (commit p b m) (nodeFor b k)) q = treeGet (treeOf m (nodeFor b k)) q := by
  rw [treeOf_commit, treeOf_committedModel]
  split
  · exact treeGet_correctedTree_other p hq
  · rfl

theorem ne_treeIndex_nodeFor {i : Fin 255} (h : i.val + 1 ≠ nodeFor b k) : i ≠ treeIndex (nodeFor b k) :=
  fun heq => by
    obtain ⟨hpos, hle⟩ := nodeFor_range b k
    exact h (heq ▸ treeIndex_val hpos hle)

end

/-- Settles O38: the eight trees are written at their own levels only, along the window's path and then along the
scratch's, which is the window's. -/
theorem walkTouchesOnlyTheWindowsPath : Obligations.WalkTouchesOnlyTheWindowsPath := by
  intro p b m w t ht
  have hother : ∀ i : Fin 255, (∀ k : Fin 8, i.val + 1 ≠ nodeFor b k) → w.trees[i] = m.trees[i] := by
    intro i hi
    rw [walk_known_trees]
    exact trees_walkedModel_other p b m fun k => ne_treeIndex_nodeFor b k (hi k)
  have hnode : ∀ (k : Fin 8) (q : KeyPath), q ∉ windowPaths m →
      treeGet (treeOf w (nodeFor b k)) q = treeGet (treeOf m (nodeFor b k)) q := fun k q hq => by
    rw [walk_known_treeOf, treeOf_walkedModel, treeGet_updatedTree_other p hq]
  obtain rfl | rfl : t = w ∨ t = commit p b w := by simpa using ht
  · exact ⟨hother, fun k q hq => hnode k q (not_mem_windowPaths m hq)⟩
  · refine ⟨fun i hi => ?_, fun k q hq => ?_⟩
    · rw [trees_commit, trees_committedModel_other p b w fun k => ne_treeIndex_nodeFor b k (hi k), hother i hi]
    · have hq' := not_mem_windowPaths m hq
      obtain ⟨c, hscr⟩ := scr_walkedModel p b m k
      rw [← walk_known_scr] at hscr
      rw [treeGet_commit_other p b w k (by rw [hscr]; exact hq'), hnode k q hq']

theorem levels_split (k : Fin 8) :
    levels.filter (fun j => decide (k < j)) ++ k :: levels.filter (fun j => decide (j < k)) = levels := by
  revert k
  decide

/-- R151: a target's choice. -/
theorem pick_target (p : Params) (x : F64) (w : Walking Unit) (k : Fin 8) :
    (pick p (target x) w k).1 = !numLt x (numAdd w.cum (numMul w.prob (levelP0 p w k))) := rfl

/-- R151: the byte that a target picks has at each level the bit that the level's c1 decides. -/
theorem target_bit {p : Params} {x : F64} {m : Model} {b : Byte} {k : Fin 8} {pre post : List (Fin 8)}
    (hsplit : pre ++ k :: post = levels) (hfollows : Follows p (target x) b levels (walkStart m ())) {c : Cache}
    (hc : ∀ j, cachePair c j = cachePair (walk p (known b) m ()).1.cache j) :
    b.getLsbD k = !numLt x (numAdd (massRun b c pre).2 (numMul (massRun b c pre).1 c.p0[k])) := by
  have hnodup := nodup_levels
  rw [← hsplit] at hfollows hnodup
  obtain ⟨hbefore, hpick⟩ := hfollows.split
  obtain ⟨_, hfold⟩ := Follows.foldl_eq (w := walkStart m ()) hbefore
  have hfold : pre.foldl (walkLevel p (target x)) (walkStart m ()) =
      pre.foldl (walkLevel p (known b)) (walkStart m ()) := hfold
  have hcache : ∀ j, cachePair c j =
      cachePair ((pre ++ k :: post).foldl (walkLevel p (known b)) (walkStart m ())).model.cache j := fun j => by
    rw [hc, hsplit, walk_known_cachePair, ← walkedValues_model]
    rfl
  have hpost : k ∉ post := (List.nodup_cons.mp (List.nodup_append.mp hnodup).2.1).1
  have hp0 : c.p0[k] = levelP0 p (pre.foldl (walkLevel p (known b)) (walkStart m ())) k :=
    congrArg BitPair.zero ((hcache k).trans (cachePair_foldl_split p b hpost _))
  rw [← hpick, hfold, pick_target, massRun_eq p b hnodup m hcache, hp0]

/-- Settles O39: the walk picks the bits of its byte, and each level compares x with the running values there. -/
theorem targetWalkIsTheWalkOfItsByte : Obligations.TargetWalkIsTheWalkOfItsByte := by
  intro p x m w
  obtain ⟨b, o', hwalk, hfollows⟩ := exists_walk_eq_known p (target x) m ()
  have hw : w = (walk p (known b) m ()).1 := congrArg Prod.fst hwalk
  have hb : w.cache.byte = b := by rw [hw, walk_known_byte]
  rw [hb]
  exact ⟨hw, fun k => target_bit (levels_split k) hfollows fun j => by rw [hw]⟩

theorem query_of_clean (choose : Chooser Unit) {s : State} (h : s.model.dirty = false) :
    query choose s = setModel (walk s.params choose s.model ()).1 s := by
  rw [query, h, if_neg Bool.false_ne_true]

theorem query_of_dirty (choose : Chooser Unit) {s : State} (h : s.model.dirty = true) : query choose s = s :=
  if_pos h

/-- R151: a comparison with a NaN is false, so a NaN target picks every bit 1. -/
theorem walk_target_nan_byte (p : Params) {x : F64} (hnan : numIsNaN x = true) (m : Model) :
    (walk p (target x) m ()).1.cache.byte = 0xFF := by
  obtain ⟨b, o', hwalk, hfollows⟩ := exists_walk_eq_known p (target x) m ()
  have hones : ∀ k : Fin 8, (0xFF : Byte).getLsbD k = true := by decide
  rw [hwalk, walk_known_byte]
  refine BitVec.eq_of_getLsbD_eq fun i hi => ?_
  have hbit := target_bit (levels_split ⟨i, hi⟩) hfollows fun _ => rfl
  rw [numLt_nan (.inl hnan)] at hbit
  exact hbit.trans (hones ⟨i, hi⟩).symm

/-- Settles O40: every bit of the byte is 1. -/
theorem nanTargetDecodesToFf : Obligations.NanTargetDecodesToFf := by
  intro x s hnan hconfigured hloaded hclean hcap
  have hpass : firstFailure s (.decode x) = none := by
    simp [firstFailure, hconfigured, hloaded, hclean, hcap]
  have hbyte := walk_target_nan_byte s.params hnan s.model
  rw [exec_of_pass hpass, commandEffect, query_of_clean _ hclean]
  generalize (walk s.params (target x) s.model ()).1 = m at hbyte
  rw [setModel_model, hbyte]
  exact ⟨m, rfl⟩

/-- R153, R159: the byte enters a full window, and the oldest leaves it. -/
theorem take_cons_eq_dropLast {h : List Byte} {d : Nat} (b : Byte) (hlen : h.length = d) (hpos : 0 < d) :
    (b :: h).take d = b :: h.dropLast := by
  obtain ⟨n, rfl⟩ : ∃ n, d = n + 1 := ⟨d - 1, by omega⟩
  rw [List.take_succ_cons, List.dropLast_eq_take, hlen, Nat.add_sub_cancel]

/-- R153: the trees a commit leaves alone. -/
theorem trees_commit_other (p : Params) (b : Byte) (m : Model) {i : Fin 255}
    (hi : ∀ k : Fin 8, b.getLsbD k = true → i ≠ treeIndex (nodeFor b k)) :
    (commit p b m).trees[i] = m.trees[i] := by
  obtain ⟨k, rfl⟩ | hoff := onPath_or_offPath b i
  · have hbit : ¬ b.getLsbD k = true := fun h => hi k h rfl
    change treeOf (commit p b m) (nodeFor b k) = treeOf m (nodeFor b k)
    rw [treeOf_commit, treeOf_committedModel, if_neg hbit]
  · rw [trees_commit, trees_committedModel_other p b m hoff]

section
variable (p : Params) (b : Byte) (m : Model)

theorem commit_frame : (commit p b m).configured = m.configured ∧ (commit p b m).d = m.d ∧
    (commit p b m).hist = (b :: m.hist).take m.d.toNat ∧ (commit p b m).hloaded = m.hloaded := by
  obtain ⟨hconfigured, hd, hhist, hloaded⟩ := foldl_frame (onlyLevel_commitStep p b) (ks := levels) m
  rw [← committedModel] at hconfigured hd hhist hloaded
  rw [commit_eq, ← hhist, ← hd]
  exact ⟨hconfigured, rfl, rfl, hloaded⟩

theorem commit_valid (k : Fin 8) : (commit p b m).scr[k].valid = false := by
  rw [commit_eq]
  exact valid_committedModel p b m k

theorem commit_dirty : (commit p b m).dirty = false := rfl

end

/-- Settles O41: the commit by its levels, each corrected from its own scratch and then cleared. -/
theorem updateCommitsThePendingByte : Obligations.UpdateCommitsThePendingByte := by
  intro b s hconfigured hloaded hdirty hb hlen hpos
  have hpass : firstFailure s (.update b) = none := by simp [firstFailure, hconfigured, hloaded, hdirty, hb]
  obtain ⟨hconfigured', hd, hhist, hloaded'⟩ := commit_frame s.params b s.model
  refine ⟨commit s.params b s.model, exec_of_pass hpass, hhist.trans (take_cons_eq_dropLast b hlen hpos),
    commit_dirty .., hloaded'.trans hloaded, hconfigured'.trans hconfigured, hd, nodesUsed_commit ..,
    commit_valid _ _ _, fun i hi => ?_, fun k hbit => ⟨?_, fun q hq => treeGet_commit_other _ b s.model k hq⟩⟩
  · exact trees_commit_other _ b s.model fun k hbit => ne_treeIndex_nodeFor b k (hi k hbit)
  · rw [treeOf_commit, treeOf_committedModel, if_pos hbit, treeOf_ctReupdate_true]

end Sys2Proof.Machine
end

/-! ### Commands that complete

Each command's checks pass under its premises, and its next state is its effect. -/
section
namespace Sys2Proof.Machine

section
variable {p : Params} {inp : List Byte} {b : Byte} {ks : List (Fin 8)}

theorem decodeEvents_mode (p0s : List F64) (d : Decoder) : (decodeEvents inp p0s d).2.mode = d.mode := by
  induction p0s generalizing d with
  | nil => rfl
  | cons p0 p0s ih => exact (ih _).trans (decodeBit_mode inp p0 d)

theorem pick_coded (w : Walking Unit) (d : Decoder) (k : Fin 8) :
    pick p (coded inp) (w.withOuter d) k = decodeBit inp (levelP0 p w k) d := rfl

/-- R223: a coded walk that picks the bits of `b` decodes them at the p0 of the walk of `b`. -/
theorem Follows.decodeEvents_eq (hnodup : ks.Nodup) {w : Walking Unit} {d : Decoder}
    (h : Follows p (coded inp) b ks (w.withOuter d)) :
    ∃ d', decodeEvents inp
        (ks.map (fun (k : Fin 8) => (ks.foldl (walkLevel p (known b)) w).model.cache.p0[k])) d =
      (ks.map (fun (k : Fin 8) => b.getLsbD k), d') := by
  induction ks generalizing w d with
  | nil => exact ⟨d, rfl⟩
  | cons k ks ih =>
    obtain ⟨hk, hnodup⟩ := List.nodup_cons.mp hnodup
    obtain ⟨hbit, hrest⟩ := h
    rw [pick_coded] at hbit
    rcases hpick : decodeBit inp (levelP0 p w k) d with ⟨x, d₁⟩
    rw [hpick] at hbit
    obtain rfl : x = b.getLsbD k := hbit
    rw [walkLevel_coded w hpick] at hrest
    have hp0 : ((k :: ks).foldl (walkLevel p (known b)) w).model.cache.p0[k] = levelP0 p w k := by
      rw [List.foldl_cons, foldl_walkLevel_cache_p0 hk, walkLevel_cache_p0, getElem_set_self_fin]
    obtain ⟨d', hevents⟩ := ih hnodup hrest
    exact ⟨d', by rw [List.map_cons, List.map_cons, hp0, decodeEvents, hpick, List.foldl_cons, hevents]⟩

/-- R223: DecodeByte decodes some byte, at the p0 of that byte's walk. -/
theorem exists_decodeByte (p : Params) (inp : List Byte) (m : Model) (d : Decoder) :
    ∃ b d', decodeEvents inp ((byteEvents p b m).map (·.2)) d = ((byteEvents p b m).map (·.1), d') := by
  obtain ⟨b, -, -, hfollows⟩ := exists_walk_eq_known p (coded inp) m d
  obtain ⟨d', hevents⟩ := Follows.decodeEvents_eq (w := walkStart m ()) nodup_levels hfollows
  exact ⟨b, d', by rw [byteEvents_p0s, byteEvents_bits, hevents]⟩

theorem encodeByte_model (p : Params) (b : Byte) (m : Model) (e : Encoder) :
    (encodeByte p b m e).1 = commit p b (walk p (known b) m ()).1 := rfl

/-- R153: the byte of a commit is the newest of the window. -/
theorem commit_hist_head (p : Params) (b : Byte) {m : Model} (hpos : 0 < m.d.toNat) :
    (commit p b m).hist.head? = some b := by
  obtain ⟨n, hn⟩ : ∃ n, m.d.toNat = n + 1 := ⟨m.d.toNat - 1, by omega⟩
  rw [(commit_frame p b m).2.2.1, hn, List.take_succ_cons, List.head?_cons]

theorem encodeByte_hist_head (p : Params) (b : Byte) {m : Model} (hpos : 0 < m.d.toNat) :
    (commit p b (walk p (known b) m ()).1).hist.head? = some b :=
  commit_hist_head p b (by rwa [(walk_known_frame p b m).2.1])

end

/-- Settles O55: the decoded byte is the one whose bits the coded walk picks. -/
theorem decbyteDecodesAByte : Obligations.DecbyteDecodesAByte := by
  intro s hconfigured hloaded hclean hactive hcap hpos
  have hpass : firstFailure s .decbyte = none := by
    simp [firstFailure, hconfigured, hloaded, hclean, hactive, hcap]
  obtain ⟨b, d, hevents⟩ := exists_decodeByte s.params s.inp s.model s.dec
  have hbyte := decodeByte_eq hevents s.enc
  have hmode := decodeEvents_mode (inp := s.inp) ((byteEvents s.params b s.model).map (·.2)) s.dec
  rw [hevents] at hmode
  rw [encodeByte_model] at hbyte
  refine ⟨b, commit s.params b (walk s.params (known b) s.model ()).1, d, ?_, commit_dirty ..,
    encodeByte_hist_head s.params b hpos, hmode.trans hactive, ?_, fun e => rfl⟩
  · rw [exec_of_pass hpass, commandEffect, hbyte]
    rfl
  · have h := hevents
    rw [byteEvents_bits, byteEvents, List.map_map] at h
    exact h

/-- Settles O54: the walk, its coder events and the commit. -/
theorem encbyteCodesAByte : Obligations.EncbyteCodesAByte := by
  intro b s hconfigured hloaded hclean hactive hcap hpos w
  have hpass : firstFailure s (.encbyte b) = none := by
    simp [firstFailure, hconfigured, hloaded, hclean, hactive, hcap]
  refine ⟨commit s.params b w, ?_, rfl, commit_dirty .., encodeByte_hist_head s.params b hpos⟩
  rw [exec_of_pass hpass, commandEffect, encodeByte_enc]
  rfl

/-! ### The decoder -/

theorem decRenorm_pos_le (inp : List Byte) (fuel : Nat) (d : Decoder) :
    (decRenorm inp fuel d).pos ≤ d.pos + fuel := by
  induction fuel generalizing d with
  | zero => exact le_rfl
  | succ fuel ih =>
    rw [decRenorm_succ]
    split
    · omega
    · next c _ =>
      have h := ih (decPass inp c d)
      rw [decPass_pos] at h
      omega

/-- Settles O51: the bit DecodeBit decides, and the loop that mirrors the encoder's. -/
theorem dbitDecidesByTheThreshold : Obligations.DbitDecidesByTheThreshold := by
  intro p0 s hlegal hactive t
  have hpass : firstFailure s (.dbit p0) = none := by simp [firstFailure, hlegal, hactive]
  have hmirror : ∀ e : Encoder, e.low = s.dec.low → e.high = s.dec.high → _ := fun e hlow hhigh =>
    decodeBit_mirrors s.inp p0 hlow.symm hhigh.symm
  have hmode := decodeBit_mode s.inp p0 s.dec
  have hmax : (decodeBit s.inp p0 s.dec).2.pos ≤ s.dec.pos + 24 := by
    rw [decodeBit_dec]
    exact decRenorm_pos_le ..
  have hbit : (decodeBit s.inp p0 s.dec).1 = decide (s.dec.low.toNat + t ≤ s.dec.code.toNat) :=
    decodeBit_bit s.inp p0 s.dec
  have hres : BitVec.ofNat 8 (decide (s.dec.low.toNat + t ≤ s.dec.code.toNat)).toNat =
      if s.dec.code.toNat < s.dec.low.toNat + t then 0x00 else 0x01 := by
    split
    · next h => rw [decide_eq_false (by omega)]; rfl
    · next h => rw [decide_eq_true (by omega)]; rfl
  rw [exec_of_pass hpass, commandEffect]
  rcases hdec : decodeBit s.inp p0 s.dec with ⟨bit, d⟩
  rw [hdec] at hmirror hmode hmax hbit
  obtain ⟨-, -, hpos, -⟩ := hmirror { freshEncoder with low := s.dec.low, high := s.dec.high } rfl rfl
  refine ⟨d, hmode.trans hactive, hpos, hmax, ?_, ?_, fun e hlow hhigh => ?_⟩
  · rw [← hres, ← hbit]
    rfl
  · rw [decodeEvents, decodeEvents, hdec, ← hbit]
  · obtain ⟨hlow', hhigh', -⟩ := hmirror e hlow hhigh
    exact ⟨hlow', hhigh'⟩

/-! ### The other commands -/

/-- Settles O20: the check of the symbol, and the table's entry. -/
theorem ktAppendsTheTableEntry : Obligations.KtAppendsTheTableEntry :=
  fun _ _ _ _ => ⟨fun hsym => exec_of_pass (if_neg (by omega)), fun hsym => exec_of_fail (if_pos hsym)⟩

/-- Settles O24: the update's parts, written at their own places. -/
theorem ctupdRunsTheUpdate : Obligations.CtupdRunsTheUpdate := by
  intro node bit s hnode hbit hconfigured hloaded hclean hcap
  have hpass : firstFailure s (.ctupd node bit) = none := by
    simp [firstFailure, hnode, Nat.not_lt.mpr hbit, hconfigured, hloaded, hclean, Nat.not_lt.mpr hcap]
  refine ⟨(ctUpdate s.params node.toNat _ (levelOf node.toNat) s.model).2, _, _, rfl, exec_of_pass hpass, rfl,
    fun i hi => ?_, fun k hk => ?_⟩
  · have hne : i ≠ treeIndex node.toNat := fun heq => hi (heq ▸ treeIndex_val (by omega) (by omega))
    rw [ctUpdate_trees, getElem_set_ne_fin _ _ hne]
  · rw [ctUpdate_scr, getElem_set_ne_fin _ _ hk]

/-- Settles O33: the fields of the new model, and the check of the order. -/
theorem initBuildsTheModel : Obligations.InitBuildsTheModel := by
  intro d s
  refine ⟨fun hlow hhigh => ⟨initModel (d.setWidth 4) s.model, exec_of_pass (if_neg (by omega)), rfl, ?_,
    fun i => Vector.getElem_replicate i.isLt, rfl, rfl, rfl, fun k => ?_⟩, fun hbad => exec_of_fail (if_pos hbad)⟩
  · change (d.setWidth 4).toNat = d.toNat
    rw [BitVec.toNat_setWidth, Nat.mod_eq_of_lt (by omega)]
  · exact congrArg Scratch.valid (Vector.getElem_ofFn k.isLt)

/-- Settles O34: the seed reversed, read position by position. -/
theorem loadhistReversesTheSeed : Obligations.LoadhistReversesTheSeed := by
  intro seed s hconfigured hlen hclean
  have hpass : firstFailure s (.loadhist seed) = none := by simp [firstFailure, hconfigured, hlen, hclean]
  refine ⟨seed.reverse, ?_, by rw [List.length_reverse, hlen], fun i hi => ?_⟩
  · rw [exec_of_pass hpass, Nat.add_assoc]
    rfl
  · rw [List.getElem?_reverse (by omega), hlen]

/-- Settles O35: the checks pass, and a query of a clean model walks. -/
theorem queriesWalkACleanModel : Obligations.QueriesWalkACleanModel := by
  intro s hconfigured hloaded hclean hcap
  have hpass : firstFailure s (.predict 0) = none := by simp [firstFailure, hconfigured, hloaded, hclean, hcap]
  refine ⟨fun b => ⟨_, rfl, rfl, ?_⟩, fun x => ⟨_, rfl, rfl, ?_⟩⟩
  · rw [exec_of_pass (i := .predict b) hpass, exec_of_pass (i := .cumprob b) hpass,
      commandEffect, commandEffect, query_of_clean _ hclean]
    generalize (walk s.params (known b) s.model ()).1 = m
    exact ⟨rfl, rfl⟩
  · rw [exec_of_pass (i := .decode x) hpass, commandEffect, query_of_clean _ hclean]
    generalize (walk s.params (target x) s.model ()).1 = m
    rfl

/-- Settles O36: the checks pass, and a query of a dirty model changes nothing. -/
theorem queriesRereadADirtyModel : Obligations.QueriesRereadADirtyModel := by
  intro b x s hconfigured hloaded hdirty
  refine ⟨?_, ?_, ?_⟩
  all_goals
    rw [exec_of_pass (by simp [firstFailure, hconfigured, hloaded, hdirty]), commandEffect,
      query_of_dirty _ hdirty]
    rfl

/-- Settles O44: the checks pass under each command's premises. -/
theorem encoderCommandsComplete : Obligations.EncoderCommandsComplete :=
  fun _ => ⟨exec_of_pass rfl,
    fun _ _ hbit hlegal hactive => exec_of_pass (by simp [firstFailure, hbit, hlegal, hactive]),
    fun hactive => exec_of_pass (by simp [firstFailure, hactive])⟩

end Sys2Proof.Machine
end

/-! ### Groups of fields

Each effect writes the groups of fields that its command names (R20, R75). -/
section
namespace Sys2Proof.Machine

section
variable {σ : Type} (p : Params) (choose : Chooser σ) (b : Byte) (m : Model)

/-- R152: a walk changes none of these. -/
theorem walk_frame (o : σ) : (walk p choose m o).1.configured = m.configured ∧
    (walk p choose m o).1.d = m.d ∧ (walk p choose m o).1.hist = m.hist ∧
    (walk p choose m o).1.hloaded = m.hloaded := by
  rw [walk_model_eq_known]
  exact walk_known_frame ..

theorem encodeByte_frame (e : Encoder) :
    (encodeByte p b m e).1.configured = m.configured ∧ (encodeByte p b m e).1.d = m.d := by
  obtain ⟨hconfigured, hd, -⟩ := walk_known_frame p b m
  obtain ⟨hconfigured', hd', -⟩ := commit_frame p b (walk p (known b) m ()).1
  exact ⟨hconfigured'.trans hconfigured, hd'.trans hd⟩

/-- R223: DecodeByte leaves the model that EncodeByte of its byte leaves. -/
theorem decodeByte_model_eq (inp : List Byte) (d : Decoder) :
    ∃ b, ∀ e, (decodeByte p inp m d).2.1 = (encodeByte p b m e).1 := by
  obtain ⟨b, d', hevents⟩ := exists_decodeByte p inp m d
  exact ⟨b, fun e => by rw [decodeByte_eq hevents e]⟩

theorem decodeByte_frame (inp : List Byte) (d : Decoder) :
    (decodeByte p inp m d).2.1.configured = m.configured ∧ (decodeByte p inp m d).2.1.d = m.d := by
  obtain ⟨b, hmodel⟩ := decodeByte_model_eq p m inp d
  rw [hmodel freshEncoder]
  exact encodeByte_frame ..

theorem ctReupdate_frame (n : Nat) (bit : Bool) (k : Fin 8) :
    (ctReupdate p n bit k m).configured = m.configured ∧ (ctReupdate p n bit k m).d = m.d ∧
    (ctReupdate p n bit k m).hist = m.hist ∧ (ctReupdate p n bit k m).hloaded = m.hloaded := by
  cases bit <;> exact ⟨rfl, rfl, rfl, rfl⟩

/-- A query changes of the model nothing but what a walk changes. -/
theorem query_frame (choose : Chooser Unit) (s : State) :
    (query choose s).enc = s.enc ∧ (query choose s).dec = s.dec ∧
    (query choose s).model.configured = s.model.configured ∧ (query choose s).model.d = s.model.d ∧
    (query choose s).model.hist = s.model.hist ∧ (query choose s).model.hloaded = s.model.hloaded := by
  cases hdirty : s.model.dirty with
  | true => simp [query_of_dirty choose hdirty]
  | false => simp [query_of_clean choose hdirty, walk_frame]

end

/-- Settles O14: fault entry changes no group, and each effect its own. -/
theorem onlyTheNamedCommandsChangeAGroup : Obligations.OnlyTheNamedCommandsChangeAGroup := by
  intro i s t h
  obtain ⟨c, rfl⟩ | ⟨-, rfl⟩ := exec_next h
  · simp
  cases i with
  | predict b => simp [commandEffect, query_frame]
  | cumprob b => simp [commandEffect, query_frame]
  | decode x => simp [commandEffect, query_frame]
  | ctreupd node bit => simp [commandEffect, ctReupdate_frame]
  | update b => simp [commandEffect, commit_frame]
  | encbyte b => simp [commandEffect, encodeByte_frame]
  | decbyte => simp [commandEffect, decodeByte_frame]
  | _ => simp [commandEffect]

/-! ### A reupdate, field by field -/

section
variable (p : Params) (n : Nat) (bit : Bool) (k : Fin 8) (m : Model)

theorem ctReupdate_valid : (ctReupdate p n bit k m).scr[k].valid = false := by
  cases bit with
  | false => rw [ctReupdate_false, invalidate_scr, getElem_set_self_fin]; rfl
  | true => rw [ctReupdate_true, invalidate_scr, getElem_set_self_fin]; rfl

theorem ctReupdate_scr_other {j : Fin 8} (hj : j ≠ k) : (ctReupdate p n bit k m).scr[j] = m.scr[j] := by
  cases bit with
  | false => rw [ctReupdate_false, invalidate_scr, getElem_set_ne_fin _ _ hj]
  | true => rw [ctReupdate_true, invalidate_scr, getElem_set_ne_fin _ _ hj, setTree_scr]

theorem ctReupdate_trees_other {i : Fin 255} (hi : i ≠ treeIndex n) :
    (ctReupdate p n bit k m).trees[i] = m.trees[i] := by
  cases bit with
  | false => rfl
  | true => rw [ctReupdate_true, invalidate_trees, setTree_trees, getElem_set_ne_fin _ _ hi]

theorem treeGet_ctReupdate_other {q : KeyPath} (hq : q ∉ m.scr[k].path) :
    treeGet (treeOf (ctReupdate p n bit k m) n) q = treeGet (treeOf m n) q := by
  cases bit with
  | false => rfl
  | true => rw [treeOf_ctReupdate_true, treeGet_correctedTree_other p hq]

/-- R129: only trees, scratch and the count of free values change. -/
theorem ctReupdate_eq : ctReupdate p n bit k m =
    { m with trees := (ctReupdate p n bit k m).trees, scr := (ctReupdate p n bit k m).scr
             fresh := (ctReupdate p n bit k m).fresh } := by
  cases bit <;> rfl

variable {p}

theorem treeGet_correctedTree {scr : Scratch} {t : CtTree} {i : Nat} {q : KeyPath} {v : CtNode}
    (hnodup : scr.path.Nodup) (hq : scr.path[i]? = some q) (hv : treeGet t q = some v) :
    treeGet (correctedTree p scr t) q = some (reupdateNode p scr i v) := by
  refine treeGet_putNodes_getElem? hnodup hq ?_
  rw [List.getElem?_mapIdx, nodesAt, List.getElem?_map, hq, Option.map_some, hv, Option.getD_some, Option.map_some]

/-- R129: the counters of a corrected node, in both modes. -/
theorem reupdateNode_counts {scr : Scratch} {i : Nat} {c : Counts} (v : CtNode) (hc : scr.saved[i]? = some c) :
    (reupdateNode p scr i v).counts = match p.reupdateCounters with
      | .restore => age { n0 := c.n0, n1 := c.n1 + 1 }
      | .adjust => age { n0 := BitVec.ofNat 8 (v.counts.n0.toNat - 1), n1 := v.counts.n1 + 1 } := by
  have hsaved : scr.saved.getD i v.counts = c := by rw [List.getD_eq_getElem?_getD, hc, Option.getD_some]
  change reupdateCounts p (scr.saved.getD i v.counts) v.counts = _
  rw [hsaved]
  cases hmode : p.reupdateCounters <;> simp only [reupdateCounts, hmode]

theorem reupdateNode_beta_kept {scr : Scratch} {i : Nat} (v : CtNode) (hsat : scr.sat[i]? ≠ some false) :
    (reupdateNode p scr i v).beta = v.beta := by
  rw [reupdateNode]
  cases hs : scr.sat[i]? with
  | none => rfl
  | some x => cases x with
    | false => exact absurd hs hsat
    | true => rfl

theorem reupdateNode_beta_mixed {scr : Scratch} {i : Nat} {b d : BitPair} (v : CtNode)
    (hsat : scr.sat[i]? = some false) (hb : scr.bm[i]? = some b) (hd : scr.pr[i + 1]? = some d) :
    (reupdateNode p scr i v).beta = numDiv b.one d.one := by
  rw [reupdateNode, hsat, hb, topPair_drop hd]

end

/-- Settles O30: the tree of the scratch's owner is corrected along the scratch's path, node by node. -/
theorem ctreupdCorrectsThePath : Obligations.CtreupdCorrectsThePath := by
  intro node bit s hbit hconfigured hclean hok k scr hnode hvalid howner
  have hscr : ¬ (scr.valid = false ∨ scr.owner ≠ node) := by simp [hvalid, howner]
  have hpass : firstFailure s (.ctreupd node bit) = none := by
    rw [firstFailure, if_neg hnode, if_neg (Nat.not_lt.mpr hbit), if_neg (by simp [hconfigured]),
      if_neg (by simp [hclean]), if_neg hscr]
  obtain ⟨-, -, -, -, -, -, hscratch, -⟩ := hok
  obtain ⟨-, -, hpath, -⟩ := (hscratch k hvalid).2
  have hnodup : scr.path.Nodup := hpath ▸ nodup_pathPrefixes _
  refine ⟨ctReupdate s.params node.toNat (operandBit bit) k s.model, exec_of_pass hpass, ctReupdate_valid ..,
    ?_, ?_, ?_, ?_, ?_, ?_⟩
  · exact fun j hj => ctReupdate_scr_other _ _ _ _ _ hj
  · exact ctReupdate_eq ..
  · intro hzero
    rw [operandBit, hzero]
    rfl
  · intro i hi
    exact ctReupdate_trees_other _ _ _ _ _ fun heq => hi (heq ▸ treeIndex_val (by omega) (by omega))
  · exact fun q hq => treeGet_ctReupdate_other _ _ _ _ _ hq
  · intro hone i q c v hq hc hv
    have htree : treeGet (treeOf (ctReupdate s.params node.toNat (operandBit bit) k s.model) node.toNat) q =
        some (reupdateNode s.params scr i v) := by
      rw [operandBit, hone, decide_eq_true rfl, treeOf_ctReupdate_true]
      exact treeGet_correctedTree hnodup hq hv
    exact ⟨_, htree, reupdateNode_counts v hc, reupdateNode_beta_kept v,
      fun b d hsat hb hd => reupdateNode_beta_mixed v hsat hb hd⟩

end Sys2Proof.Machine
end

/-! ### The shape of a tree, by its reads

`TreeOk` speaks of a tree's entries. By reads, a write along a full path keeps it whatever is written there, so
long as the counters are in bounds: an update and a reupdate are both such writes. -/
section
namespace Sys2Proof.Machine

/-- The reads of a tree of order `d` (R30, R32, R33). -/
structure TreeShape (d : Nat) (t : CtTree) : Prop where
  wf : t.wf = true
  root : treeGet t [] = some newNode
  node : ∀ q v, treeGet t q = some v → q.length ≤ d ∧ CountsOk v.counts ∧ (treeGet t q.dropLast).isSome = true
  child : ∀ q v, treeGet t q = some v → 0 < q.length → q.length < d →
    ∃ r, (treeGet t r).isSome = true ∧ r.length = q.length + 1 ∧ r.dropLast = q

section
variable {d : Nat} {t t' : CtTree} {ks : List Byte} {q : KeyPath}

theorem any_child_iff (hwf : t.wf = true) :
    t.any (fun c => c.1.length == q.length + 1 && c.1.dropLast == q) = true ↔
      ∃ r, (treeGet t r).isSome = true ∧ r.length = q.length + 1 ∧ r.dropLast = q := by
  simp only [List.any_eq_true, Bool.and_eq_true, beq_iff_eq]
  constructor
  · rintro ⟨⟨r, v⟩, hmem, hlen, hdrop⟩
    exact ⟨r, by rw [treeGet_of_mem hwf hmem]; rfl, hlen, hdrop⟩
  · rintro ⟨r, hsome, hlen, hdrop⟩
    obtain ⟨v, hv⟩ := Option.isSome_iff_exists.mp hsome
    exact ⟨(r, v), mem_of_treeGet hv, hlen, hdrop⟩

theorem treeOk_iff_treeShape : TreeOk d t ↔ TreeShape d t := by
  constructor
  · rintro ⟨hwf, hroot, hnodes⟩
    refine ⟨hwf, hroot, fun q v hv => ?_, fun q v hv hpos hlt => ?_⟩
    · obtain ⟨hlen, hcounts, hparent, -⟩ := hnodes (q, v) (mem_of_treeGet hv)
      exact ⟨hlen, hcounts, hparent⟩
    · obtain ⟨-, -, -, hchild⟩ := hnodes (q, v) (mem_of_treeGet hv)
      exact (any_child_iff hwf).mp (hchild hpos hlt)
  · intro h
    refine ⟨h.wf, h.root, fun e he => ?_⟩
    have hv := treeGet_of_mem h.wf he
    obtain ⟨hlen, hcounts, hparent⟩ := h.node e.1 e.2 hv
    exact ⟨hlen, hcounts, hparent, fun hpos hlt => (any_child_iff h.wf).mpr (h.child e.1 e.2 hv hpos hlt)⟩

theorem mem_pathPrefixes : q ∈ pathPrefixes ks ↔ ∃ i < ks.length, q = ks.take (i + 1) := by
  rw [pathPrefixes_eq_map_take]
  simp only [List.mem_map, List.mem_range, eq_comm]

theorem nil_not_mem_pathPrefixes (ks : List Byte) : [] ∉ pathPrefixes ks := fun h => by
  obtain ⟨i, hi, heq⟩ := mem_pathPrefixes.mp h
  have hlen := congrArg List.length heq
  rw [List.length_nil, List.length_take] at hlen
  omega

theorem dropLast_take_succ {i : Nat} (hi : i < ks.length) : (ks.take (i + 1)).dropLast = ks.take i := by
  rw [List.dropLast_eq_take, List.length_take, List.take_take]
  congr 1
  omega

/-- The parent of a path's node is the root or the path's node before it. -/
theorem dropLast_mem_pathPrefixes (h : q ∈ pathPrefixes ks) : q.dropLast = [] ∨ q.dropLast ∈ pathPrefixes ks := by
  obtain ⟨i, hi, rfl⟩ := mem_pathPrefixes.mp h
  rw [dropLast_take_succ hi]
  cases i with
  | zero => exact .inl List.take_zero
  | succ i => exact .inr (mem_pathPrefixes.mpr ⟨i, by omega, rfl⟩)

/-- A path's node above its end has the path's next node below it. -/
theorem exists_child_in_pathPrefixes (h : q ∈ pathPrefixes ks) (hlt : q.length < ks.length) :
    ∃ r ∈ pathPrefixes ks, r.length = q.length + 1 ∧ r.dropLast = q := by
  obtain ⟨i, hi, rfl⟩ := mem_pathPrefixes.mp h
  rw [List.length_take] at hlt ⊢
  refine ⟨ks.take (i + 2), mem_pathPrefixes.mpr ⟨i + 1, by omega, rfl⟩, by rw [List.length_take]; omega,
    dropLast_take_succ (by omega)⟩

/-- A write along a full path keeps the shape, whatever it writes there within the bounds of R30. -/
theorem TreeShape.write_path (h : TreeShape d t) (hks : ks.length = d) (hwf : t'.wf = true)
    (hoff : ∀ q ∉ pathPrefixes ks, treeGet t' q = treeGet t q)
    (hon : ∀ q ∈ pathPrefixes ks, ∃ v, treeGet t' q = some v ∧ CountsOk v.counts) : TreeShape d t' := by
  have hroot : treeGet t' [] = some newNode := (hoff [] (nil_not_mem_pathPrefixes ks)).trans h.root
  have hsome : ∀ q ∈ pathPrefixes ks, (treeGet t' q).isSome = true := fun q hq => by
    obtain ⟨v, hv, -⟩ := hon q hq
    rw [hv]
    rfl
  have hgrow : ∀ q, (treeGet t q).isSome = true → (treeGet t' q).isSome = true := fun q hq => by
    by_cases hmem : q ∈ pathPrefixes ks
    · exact hsome q hmem
    · rwa [hoff q hmem]
  refine ⟨hwf, hroot, fun q v hv => ?_, fun q v hv hpos hlt => ?_⟩
  · by_cases hmem : q ∈ pathPrefixes ks
    · obtain ⟨w, hw, hcounts⟩ := hon q hmem
      obtain rfl : v = w := Option.some.inj (hv.symm.trans hw)
      refine ⟨?_, hcounts, ?_⟩
      · obtain ⟨i, -, rfl⟩ := mem_pathPrefixes.mp hmem
        rw [List.length_take]
        omega
      · obtain hnil | hparent := dropLast_mem_pathPrefixes hmem
        · rw [hnil, hroot]
          rfl
        · exact hsome _ hparent
    · obtain ⟨hlen, hcounts, hparent⟩ := h.node q v ((hoff q hmem).symm.trans hv)
      exact ⟨hlen, hcounts, hgrow _ hparent⟩
  · by_cases hmem : q ∈ pathPrefixes ks
    · obtain ⟨r, hr, hlen, hdrop⟩ := exists_child_in_pathPrefixes hmem (hks ▸ hlt)
      exact ⟨r, hsome r hr, hlen, hdrop⟩
    · obtain ⟨r, hr, hlen, hdrop⟩ := h.child q v ((hoff q hmem).symm.trans hv) hpos hlt
      exact ⟨r, hgrow r hr, hlen, hdrop⟩

/-! ### Counters in bounds -/

/-- R127: whatever two bytes are aged, the result is in bounds. -/
theorem countsOk_age (c : Counts) : CountsOk (age c) := by
  obtain ⟨h0, h1⟩ := age_toNat (c := c) rfl rfl
  have hn0 := c.n0.isLt
  have hn1 := c.n1.isLt
  rw [CountsOk, h0, h1]
  split <;> omega

theorem countsOk_updateNode (p : Params) (bit : Bool) (mix : PathMix) (i : Nat) (v : CtNode) :
    CountsOk (updateNode p bit mix i v).counts := countsOk_age _

theorem countsOk_reupdateNode (p : Params) (scr : Scratch) (i : Nat) (v : CtNode) :
    CountsOk (reupdateNode p scr i v).counts := by
  rw [reupdateNode, reupdateCounts]
  cases p.reupdateCounters <;> exact countsOk_age _

theorem TreeShape.countsOk_getD (h : TreeShape d t) (q : KeyPath) :
    CountsOk ((treeGet t q).getD newNode).counts := by
  cases hget : treeGet t q with
  | none => decide
  | some v => exact (h.node q v hget).2.1

/-! ### The tree of an update and of a reupdate -/

theorem treeGet_updatedTree (p : Params) (bit : Bool) {ps : List KeyPath} {i : Nat} (hnodup : ps.Nodup)
    (hq : ps[i]? = some q) : treeGet (updatedTree p bit ps t) q =
      some (updateNode p bit (treeMix p 0 ps t) i ((treeGet t q).getD newNode)) := by
  refine treeGet_putNodes_getElem? hnodup hq ?_
  rw [List.getElem?_mapIdx, nodesAt, List.getElem?_map, hq, Option.map_some, Option.map_some]

theorem TreeShape.updatedTree (h : TreeShape d t) (p : Params) (bit : Bool) (hks : ks.length = d) :
    TreeShape d (updatedTree p bit (pathPrefixes ks) t) := by
  refine h.write_path hks (putNodes_wf _ _ (createPath_wf _ h.wf)) (fun q hq => treeGet_updatedTree_other p hq)
    fun q hq => ?_
  obtain ⟨i, hi⟩ := List.mem_iff_getElem?.mp hq
  exact ⟨_, treeGet_updatedTree p bit (nodup_pathPrefixes ks) hi, countsOk_updateNode ..⟩

theorem TreeShape.correctedTree (h : TreeShape d t) (p : Params) {scr : Scratch} (hks : ks.length = d)
    (hpath : scr.path = pathPrefixes ks) (hsome : ∀ q ∈ scr.path, (treeGet t q).isSome = true) :
    TreeShape d (correctedTree p scr t) := by
  have hnodup : scr.path.Nodup := hpath ▸ nodup_pathPrefixes ks
  refine h.write_path hks (putNodes_wf _ _ h.wf) (fun q hq => treeGet_correctedTree_other p (hpath ▸ hq))
    fun q hq => ?_
  rw [← hpath] at hq
  obtain ⟨i, hi⟩ := List.mem_iff_getElem?.mp hq
  obtain ⟨v, hv⟩ := Option.isSome_iff_exists.mp (hsome q hq)
  exact ⟨_, treeGet_correctedTree hnodup hi hv, countsOk_reupdateNode ..⟩

theorem length_updatedTree (p : Params) (bit : Bool) {ps : List KeyPath} (hwf : t.wf = true) :
    (updatedTree p bit ps t).length = t.length + createdNodes ps t := by
  rw [updatedTree, length_putNodes _ (createPath_wf _ hwf), length_createPath, createdNodes]
  intro q hq
  rw [treeGet_createPath_of_mem hq]
  rfl

theorem length_correctedTree (p : Params) {scr : Scratch} (hwf : t.wf = true)
    (hsome : ∀ q ∈ scr.path, (treeGet t q).isSome = true) : (correctedTree p scr t).length = t.length :=
  length_putNodes _ hwf hsome

theorem createdNodes_le {ps : List KeyPath} (hnodup : ps.Nodup) : createdNodes ps t ≤ ps.length := by
  rw [createdNodes, createPath_count hnodup]
  exact List.length_filter_le ..

theorem isSome_treeGet_updatedTree (p : Params) (bit : Bool) {ps : List KeyPath} (hnodup : ps.Nodup)
    (h : q ∈ ps ∨ (treeGet t q).isSome = true) : (treeGet (updatedTree p bit ps t) q).isSome = true := by
  by_cases hmem : q ∈ ps
  · obtain ⟨i, hi⟩ := List.mem_iff_getElem?.mp hmem
    rw [treeGet_updatedTree p bit hnodup hi]
    rfl
  · rw [treeGet_updatedTree_other p hmem]
    exact h.resolve_left hmem

theorem isSome_treeGet_correctedTree (p : Params) {scr : Scratch} (hnodup : scr.path.Nodup)
    (h : (treeGet t q).isSome = true) : (treeGet (correctedTree p scr t) q).isSome = true := by
  by_cases hmem : q ∈ scr.path
  · obtain ⟨i, hi⟩ := List.mem_iff_getElem?.mp hmem
    obtain ⟨v, hv⟩ := Option.isSome_iff_exists.mp h
    rw [treeGet_correctedTree hnodup hi hv]
    rfl
  · rwa [treeGet_correctedTree_other p hmem]

end
end Sys2Proof.Machine
end

/-! ### The store and the scratch between commands

The part of `ConfiguredOk` that every single update and reupdate keeps. DIRTY and the CACHE, which only whole walks
and commits bring in order, are outside it. -/
section
namespace Sys2Proof.Machine

theorem sum_set_add_getElem {l : List Nat} {i : Nat} (a : Nat) (hi : i < l.length) :
    (l.set i a).sum + l[i] = l.sum + a := by
  induction l generalizing i with
  | nil => cases hi
  | cons x l ih => cases i with
    | zero =>
      rw [List.set_cons_zero, List.sum_cons, List.sum_cons, List.getElem_cons_zero]
      omega
    | succ i =>
      have := ih (Nat.lt_of_succ_lt_succ hi)
      rw [List.set_cons_succ, List.sum_cons, List.sum_cons, List.getElem_cons_succ]
      omega

/-- Replacing a tree changes the number of nodes by the difference of the trees' sizes. -/
theorem storedNodes_set {m m' : Model} {i : Fin 255} {t : CtTree} (h : m'.trees = m.trees.set i t) :
    storedNodes m' + (m.trees[i]).length = storedNodes m + t.length := by
  have hset : m'.trees.toList.map List.length = (m.trees.toList.map List.length).set i t.length := by
    rw [h, Vector.toList_set, List.map_set]
  have hget : (m.trees.toList.map List.length)[i.val]'(by simp) = (m.trees[i]).length := by simp
  rw [storedNodes, storedNodes, hset, ← hget]
  exact sum_set_add_getElem _ _

theorem length_pathPrefixes (ks : List Byte) : (pathPrefixes ks).length = ks.length := by
  rw [pathPrefixes_eq_map_take, List.length_map, List.length_range]

theorem getLastD_pathPrefixes (ks : List Byte) : (pathPrefixes ks).getLastD [] = ks := by
  rw [pathPrefixes_eq_map_take, List.getLastD_eq_getLast?, List.getLast?_map, List.getLast?_range]
  cases ks with
  | nil => rfl
  | cons k ks => simp

theorem ScratchOk.mono {m m' : Model} {k : Fin 8} (h : ScratchOk m k) (hd : m'.d = m.d) (hscr : m'.scr[k] = m.scr[k])
    (hgrow : ∀ (i : Fin 255) (q : KeyPath), (treeGet m.trees[i] q).isSome = true →
      (treeGet m'.trees[i] q).isSome = true) : ScratchOk m' k := by
  obtain ⟨howner, hlevel, hpath, hlen, hsaved, hpr, hbm, hsat, hcounts, hnodes⟩ := h
  rw [ScratchOk, hscr, hd]
  exact ⟨howner, hlevel, hpath, hlen, hsaved, hpr, hbm, hsat, hcounts, fun q hq => hgrow _ q (hnodes q hq)⟩

/-- What every update and reupdate keeps: the order, the trees and their count, the window, and every valid scratch. -/
structure StoreOk (m : Model) : Prop where
  order : m.d.toNat ≠ 0
  trees : ∀ n : Fin 255, TreeShape m.d.toNat m.trees[n]
  count : m.nodesUsed.toNat = storedNodes m
  hist : m.hloaded = true → m.hist.length = m.d.toNat
  scratch : ∀ k : Fin 8, m.scr[k].valid = true → m.hloaded = true ∧ ScratchOk m k

theorem configuredOk_iff {p : Params} {m : Model} : ConfiguredOk p m ↔
    StoreOk m ∧ m.nodesUsed.toNat ≤ p.nodeCap ∧ (m.dirty = true → m.hloaded = true) ∧
      (m.dirty = true → ∀ k : Fin 8,
        m.scr[k].valid = true ∧ m.scr[k].owner.toNat = nodeFor m.cache.byte k.val) := by
  constructor
  · rintro ⟨horder, htrees, hcount, hcap, hhist, hdirty, hscratch, hpending⟩
    have htrees := fun n => treeOk_iff_treeShape.mp (htrees n)
    exact ⟨⟨horder, htrees, hcount, hhist, hscratch⟩, hcap, hdirty, hpending⟩
  · rintro ⟨h, hcap, hdirty, hpending⟩
    have htrees := fun n => treeOk_iff_treeShape.mpr (h.trees n)
    exact ⟨h.order, htrees, h.count, hcap, h.hist, hdirty, h.scratch, hpending⟩

section
variable {m : Model} {p : Params} {n : Nat} {k : Fin 8}

theorem StoreOk.length_window (h : StoreOk m) (hloaded : m.hloaded = true) : (window m).length = m.d.toNat := by
  rw [window, ← h.hist hloaded, List.take_length]

/-- The CACHE, DIRTY and the count of free values are free. -/
theorem StoreOk.set_cache (h : StoreOk m) (c : Cache) (dirty : Bool) (fresh : Nat) :
    StoreOk { m with cache := c, dirty := dirty, fresh := fresh } :=
  ⟨h.order, h.trees, h.count, h.hist, h.scratch⟩

theorem StoreOk.set_hist (h : StoreOk m) {window : List Byte} (hlen : window.length = m.d.toNat) :
    StoreOk { m with hist := window, hloaded := true } :=
  ⟨h.order, h.trees, h.count, fun _ => hlen, fun k hk => ⟨rfl, (h.scratch k hk).2⟩⟩

theorem StoreOk.invalidate (h : StoreOk m) (k : Fin 8) : StoreOk (invalidate k m) := by
  refine ⟨h.order, h.trees, h.count, h.hist, fun j hj => ?_⟩
  by_cases hjk : j = k
  · rw [hjk, invalidate_scr, getElem_set_self_fin] at hj
    cases hj
  · have hscr : (Machine.invalidate k m).scr[j] = m.scr[j] := getElem_set_ne_fin _ _ hjk
    obtain ⟨hloaded, hok⟩ := h.scratch j (hscr ▸ hj)
    exact ⟨hloaded, hok.mono rfl hscr fun _ _ hq => hq⟩

/-! ### An update -/

theorem nodesUsed_ctUpdate (bit : Bool) (h : StoreOk m) (hloaded : m.hloaded = true)
    (hroom : m.nodesUsed.toNat + m.d.toNat < 2 ^ 32) :
    createdNodes (windowPaths m) (treeOf m n) ≤ m.d.toNat ∧ (ctUpdate p n bit k m).2.nodesUsed.toNat =
      m.nodesUsed.toNat + createdNodes (windowPaths m) (treeOf m n) := by
  have hle : createdNodes (windowPaths m) (treeOf m n) ≤ (windowPaths m).length :=
    createdNodes_le (nodup_windowPaths m)
  rw [windowPaths, length_pathPrefixes, h.length_window hloaded, ← windowPaths] at hle
  refine ⟨hle, ?_⟩
  rw [ctUpdate_nodesUsed, BitVec.toNat_add, BitVec.toNat_ofNat]
  omega

/-- R128: the scratch an update leaves is that of its node and window. -/
theorem scratchOk_ctUpdate (bit : Bool) (h : StoreOk m) (hloaded : m.hloaded = true) (hn : 1 ≤ n ∧ n ≤ 255)
    (hk : levelOf n = k) : ScratchOk (ctUpdate p n bit k m).2 k := by
  have howner : (BitVec.ofNat 8 n).toNat = n := Nat.mod_eq_of_lt (by omega)
  have hlen : (windowPaths m).length = m.d.toNat := by
    rw [windowPaths, length_pathPrefixes, h.length_window hloaded]
  obtain ⟨hpr, hbm, hsat⟩ := mixPath_lengths p m.fresh 0 (nodesAt (treeOf m n) (windowPaths m))
  rw [nodesAt_length, hlen] at hpr hbm hsat
  rw [ScratchOk, scr_ctUpdate, updateScratch, howner, treeOf_ctUpdate]
  refine ⟨by omega, hk, ?_, hlen, ?_, hpr, hbm, hsat, ?_, fun q hq => ?_⟩
  · exact congrArg pathPrefixes (getLastD_pathPrefixes _).symm
  · rw [List.length_map, nodesAt_length, hlen]
    rfl
  · intro c hc
    obtain ⟨v, hv, rfl⟩ := List.mem_map.mp hc
    obtain ⟨q, -, rfl⟩ := List.mem_map.mp hv
    exact (h.trees (treeIndex n)).countsOk_getD q
  · exact isSome_treeGet_updatedTree p bit (nodup_windowPaths m) (.inl hq)

theorem StoreOk.ctUpdate (bit : Bool) (h : StoreOk m) (hloaded : m.hloaded = true) (hn : 1 ≤ n ∧ n ≤ 255)
    (hk : levelOf n = k) (hroom : m.nodesUsed.toNat + m.d.toNat < 2 ^ 32) : StoreOk (ctUpdate p n bit k m).2 := by
  have hshape : TreeShape m.d.toNat (treeOf m n) := h.trees (treeIndex n)
  obtain ⟨-, hnodes⟩ := nodesUsed_ctUpdate (p := p) (n := n) (k := k) bit h hloaded hroom
  have hcount := storedNodes_set (ctUpdate_trees p n bit k m)
  rw [length_updatedTree p bit hshape.wf] at hcount
  refine ⟨h.order, fun i => ?_, ?_, h.hist, fun j hj => ⟨hloaded, ?_⟩⟩
  · rw [ctUpdate_trees, ctUpdate_d]
    by_cases hi : i = treeIndex n
    · rw [hi, getElem_set_self_fin]
      exact hshape.updatedTree p bit (h.length_window hloaded)
    · rw [getElem_set_ne_fin _ _ hi]
      exact h.trees i
  · have hsame : m.trees[treeIndex n].length = (treeOf m n).length := rfl
    rw [hnodes, h.count]
    omega
  · by_cases hjk : j = k
    · rw [hjk]
      exact scratchOk_ctUpdate bit h hloaded hn hk
    · have hscr : (Machine.ctUpdate p n bit k m).2.scr[j] = m.scr[j] := by
        rw [ctUpdate_scr, getElem_set_ne_fin _ _ hjk]
      obtain ⟨-, hok⟩ := h.scratch j (hscr ▸ hj)
      refine hok.mono rfl hscr fun i q hq => ?_
      rw [ctUpdate_trees]
      by_cases hi : i = treeIndex n
      · rw [hi] at hq ⊢
        rw [getElem_set_self_fin]
        exact isSome_treeGet_updatedTree p bit (nodup_windowPaths m) (.inr hq)
      · rwa [getElem_set_ne_fin _ _ hi]

/-! ### A reupdate -/

theorem StoreOk.correct (h : StoreOk m) (hvalid : m.scr[k].valid = true) (howner : m.scr[k].owner.toNat = n) :
    StoreOk (setTree n (correctedTree p m.scr[k] (treeOf m n)) m) := by
  have hshape : TreeShape m.d.toNat (treeOf m n) := h.trees (treeIndex n)
  obtain ⟨-, -, -, hpath, hlen, -, -, -, -, -, hnodes⟩ := h.scratch k hvalid
  rw [howner] at hnodes
  have hnodup : m.scr[k].path.Nodup := hpath ▸ nodup_pathPrefixes _
  have hcount := storedNodes_set (setTree_trees n (correctedTree p m.scr[k] (treeOf m n)) m)
  rw [length_correctedTree p hshape.wf hnodes] at hcount
  refine ⟨h.order, fun i => ?_, ?_, h.hist, fun j hj => ?_⟩
  · rw [setTree_trees, setTree_d]
    by_cases hi : i = treeIndex n
    · rw [hi, getElem_set_self_fin]
      exact hshape.correctedTree p (by rw [← length_pathPrefixes, ← hpath, hlen]) hpath hnodes
    · rw [getElem_set_ne_fin _ _ hi]
      exact h.trees i
  · have hsame : m.trees[treeIndex n].length = (treeOf m n).length := rfl
    rw [setTree_nodesUsed, h.count]
    omega
  · obtain ⟨hloaded, hok⟩ := h.scratch j hj
    refine ⟨hloaded, hok.mono rfl rfl fun i q hq => ?_⟩
    rw [setTree_trees]
    by_cases hi : i = treeIndex n
    · rw [hi] at hq ⊢
      rw [getElem_set_self_fin]
      exact isSome_treeGet_correctedTree p hnodup hq
    · rwa [getElem_set_ne_fin _ _ hi]

theorem StoreOk.ctReupdate (h : StoreOk m) (bit : Bool) (hvalid : m.scr[k].valid = true)
    (howner : m.scr[k].owner.toNat = n) : StoreOk (ctReupdate p n bit k m) := by
  cases bit with
  | false =>
    rw [ctReupdate_false]
    exact h.invalidate k
  | true =>
    rw [ctReupdate_true]
    exact (h.correct hvalid howner).invalidate k

/-! ### A walk and a commit -/

variable {b : Byte} {ks : List (Fin 8)}

theorem StoreOk.foldl_walkStep (h : StoreOk m) (hloaded : m.hloaded = true)
    (hroom : m.nodesUsed.toNat + ks.length * m.d.toNat < 2 ^ 32) :
    StoreOk (ks.foldl (walkStep p b) m) ∧
      (ks.foldl (walkStep p b) m).nodesUsed.toNat ≤ m.nodesUsed.toNat + ks.length * m.d.toNat := by
  induction ks generalizing m with
  | nil => exact ⟨h, Nat.le_add_right ..⟩
  | cons k ks ih =>
    rw [List.length_cons, Nat.succ_mul] at hroom ⊢
    have hone : m.nodesUsed.toNat + m.d.toNat < 2 ^ 32 := by omega
    have hstep : StoreOk (walkStep p b m k) :=
      (h.ctUpdate (p := p) false hloaded (nodeFor_range b k) (levelOf_nodeFor b k) hone).set_cache _ _ _
    obtain ⟨hnew, hused⟩ := nodesUsed_ctUpdate (p := p) (n := nodeFor b k) (k := k) false h hloaded hone
    have hframe := onlyLevel_walkStep p b m k
    have hused : (walkStep p b m k).nodesUsed.toNat = _ := hused
    obtain ⟨hrest, hle⟩ := ih hstep (hframe.hloaded.trans hloaded) (by rw [hframe.d]; omega)
    rw [hframe.d] at hle
    exact ⟨hrest, hle.trans (by omega)⟩

theorem StoreOk.commitStep (h : StoreOk m) (hvalid : m.scr[k].valid = true)
    (howner : m.scr[k].owner.toNat = nodeFor b k) : StoreOk (Machine.commitStep p b m k) := by
  refine StoreOk.invalidate ?_ k
  split
  · exact h.ctReupdate true hvalid howner
  · exact h

theorem StoreOk.foldl_commitStep (h : StoreOk m) (hnodup : ks.Nodup)
    (hpending : ∀ k : Fin 8, k ∈ ks → m.scr[k].valid = true ∧ m.scr[k].owner.toNat = nodeFor b k) :
    StoreOk (ks.foldl (Machine.commitStep p b) m) := by
  induction ks generalizing m with
  | nil => exact h
  | cons k ks ih =>
    obtain ⟨hk, hnodup⟩ := List.nodup_cons.mp hnodup
    obtain ⟨⟨hvalid, howner⟩, hrest⟩ := List.forall_mem_cons.mp hpending
    refine ih (h.commitStep hvalid howner) hnodup fun j hj => ?_
    rw [(onlyLevel_commitStep p b m k).scr j (ne_of_mem_of_not_mem hj hk)]
    exact hrest j hj

end
end Sys2Proof.Machine
end

/-! ### The invariant of the core

`Inv` at reset, and through every step: fault entry touches STATUS alone, and the effect of a command is an update of
a model, an encoder or a decoder that meets its part of `Inv`. -/
section
namespace Sys2Proof.Machine

/-! ### The model -/

section
variable {p : Params} {m : Model}

theorem treeShape_newTree (d : Nat) : TreeShape d newTree := by
  have hread : ∀ q v, treeGet newTree q = some v → q = [] ∧ v = newNode := fun q v hv => by
    rw [newTree, treeGet] at hv
    split at hv
    · next hq => exact ⟨hq.symm, (Option.some.inj hv).symm⟩
    · cases hv
  refine ⟨rfl, rfl, fun q v hv => ?_, fun q v hv hpos => ?_⟩
  · obtain ⟨rfl, rfl⟩ := hread q v hv
    exact ⟨Nat.zero_le d, by decide, rfl⟩
  · obtain ⟨rfl, -⟩ := hread q v hv
    exact absurd hpos (Nat.lt_irrefl 0)

theorem storedNodes_initModel (d : BitVec 4) (m : Model) : storedNodes (initModel d m) = 255 := by
  rw [storedNodes, initModel, Vector.toList_replicate, List.map_replicate, List.sum_replicate]
  rfl

theorem valid_initModel (d : BitVec 4) (m : Model) (k : Fin 8) : (initModel d m).scr[k].valid = false :=
  congrArg Scratch.valid (Vector.getElem_ofFn k.isLt)

/-- A clean model is in order when its store is. -/
theorem configuredOk_of_clean (hstore : StoreOk m) (hcap : m.nodesUsed.toNat ≤ p.nodeCap) (hclean : m.dirty = false) :
    ConfiguredOk p m :=
  configuredOk_iff.mpr ⟨hstore, hcap, fun h => absurd h (by simp [hclean]), fun h => absurd h (by simp [hclean])⟩

theorem configuredOk_initModel {d : BitVec 4} (hd : d.toNat ≠ 0) (hcap : 255 ≤ p.nodeCap) (m : Model) :
    ConfiguredOk p (initModel d m) := by
  refine configuredOk_of_clean ⟨hd, fun n => ?_, (storedNodes_initModel d m).symm, ?_, fun k hk => ?_⟩ hcap rfl
  · rw [show (initModel d m).trees[n] = newTree from Vector.getElem_replicate n.isLt]
    exact treeShape_newTree _
  · exact fun h => absurd h Bool.false_ne_true
  · cases (valid_initModel d m k).symm.trans hk

theorem ConfiguredOk.loadhist (h : ConfiguredOk p m) {seed : List Byte} (hlen : seed.length = m.d.toNat) :
    ConfiguredOk p { m with hist := seed.reverse, hloaded := true } := by
  obtain ⟨hstore, hcap, -, hpending⟩ := configuredOk_iff.mp h
  exact configuredOk_iff.mpr
    ⟨hstore.set_hist (by rw [List.length_reverse, hlen]), hcap, fun _ => rfl, hpending⟩

theorem ConfiguredOk.ctUpdate (h : ConfiguredOk p m) (hloaded : m.hloaded = true) (hclean : m.dirty = false)
    {n : Nat} (hn : 1 ≤ n ∧ n ≤ 255) (bit : Bool) (hroom : m.nodesUsed.toNat + m.d.toNat ≤ p.nodeCap)
    (hmax : p.nodeCap < 2 ^ 32) : ConfiguredOk p (ctUpdate p n bit (levelOf n) m).2 := by
  obtain ⟨hstore, -⟩ := configuredOk_iff.mp h
  have hone : m.nodesUsed.toNat + m.d.toNat < 2 ^ 32 := by omega
  obtain ⟨hnew, hused⟩ := nodesUsed_ctUpdate (p := p) (n := n) (k := levelOf n) bit hstore hloaded hone
  exact configuredOk_of_clean (hstore.ctUpdate bit hloaded hn rfl hone) (by rw [hused]; omega) hclean

theorem ConfiguredOk.ctReupdate (h : ConfiguredOk p m) (hclean : m.dirty = false) {n : Nat} {k : Fin 8} (bit : Bool)
    (hvalid : m.scr[k].valid = true) (howner : m.scr[k].owner.toNat = n) :
    ConfiguredOk p (ctReupdate p n bit k m) := by
  obtain ⟨hstore, hcap, -⟩ := configuredOk_iff.mp h
  refine configuredOk_of_clean (hstore.ctReupdate bit hvalid howner) ?_ ?_ <;> rw [ctReupdate_eq]
  · exact hcap
  · exact hclean

/-- R152, R153: a walk leaves each level the scratch of its node. -/
theorem ConfiguredOk.walk (h : ConfiguredOk p m) (hloaded : m.hloaded = true) (b : Byte)
    (hroom : m.nodesUsed.toNat + 8 * m.d.toNat ≤ p.nodeCap) (hmax : p.nodeCap < 2 ^ 32) :
    ConfiguredOk p (walk p (known b) m ()).1 := by
  obtain ⟨hstore, -⟩ := configuredOk_iff.mp h
  obtain ⟨hwalked, hle⟩ := hstore.foldl_walkStep (p := p) (b := b) (ks := levels) hloaded
    (show m.nodesUsed.toNat + 8 * m.d.toNat < 2 ^ 32 by omega)
  obtain ⟨-, -, -, hloaded'⟩ := walk_known_frame p b m
  refine configuredOk_iff.mpr ⟨?_, ?_, fun _ => hloaded'.trans hloaded, fun _ k => ?_⟩
  · rw [walk_known_eq]
    exact hwalked.set_cache _ _ _
  · rw [walk_known_nodesUsed]
    exact hle.trans hroom
  · obtain ⟨c, hscr⟩ := scr_walkedModel p b m k
    rw [walk_known_scr, walk_known_byte, hscr]
    exact ⟨rfl, updateScratch_owner ..⟩

/-- R153: a commit of the pending byte. -/
theorem ConfiguredOk.commit (h : ConfiguredOk p m) (hdirty : m.dirty = true) :
    ConfiguredOk p (commit p m.cache.byte m) := by
  obtain ⟨hstore, hcap, hdirtyLoaded, hpending⟩ := configuredOk_iff.mp h
  have hloaded := hdirtyLoaded hdirty
  have hcommitted : StoreOk (committedModel p m.cache.byte m) :=
    hstore.foldl_commitStep nodup_levels fun k _ => hpending hdirty k
  obtain ⟨-, -, -, hloaded'⟩ := foldl_frame (onlyLevel_commitStep p m.cache.byte) (ks := levels) m
  obtain ⟨-, hd, hhist, -⟩ := commit_frame p m.cache.byte m
  refine configuredOk_of_clean ?_ (by rwa [nodesUsed_commit]) (commit_dirty ..)
  rw [commit_eq]
  refine ⟨hcommitted.order, hcommitted.trees, hcommitted.count, fun h => ?_, hcommitted.scratch⟩
  have hlen := hcommitted.hist h
  change ((m.cache.byte :: (committedModel p m.cache.byte m).hist).take _).length = _
  rw [List.length_take, List.length_cons, hlen, Nat.min_eq_left (Nat.le_succ _)]

theorem ConfiguredOk.encodeByte (h : ConfiguredOk p m) (hloaded : m.hloaded = true) (b : Byte)
    (hroom : m.nodesUsed.toNat + 8 * m.d.toNat ≤ p.nodeCap) (hmax : p.nodeCap < 2 ^ 32) (e : Encoder) :
    ConfiguredOk p (encodeByte p b m e).1 := by
  have hcommit := (h.walk hloaded b hroom hmax).commit (by rw [walk_known_eq])
  rwa [walk_known_byte] at hcommit

theorem modelOk_of_configuredOk (hconfigured : m.configured = true) (h : ConfiguredOk p m) : ModelOk p m :=
  ⟨fun hnot => absurd hnot (by simp [hconfigured]), fun _ => h⟩

end

section
variable {i : Instr} {s : State}

/-- The first check of a row of R243 passes, and the rest of the row does. -/
theorem check_eq_none {c : Prop} [Decidable c] {code : Byte} {rest : Option Byte} :
    (if c then some code else rest) = none ↔ ¬ c ∧ rest = none := by
  by_cases h : c <;> simp [h]

theorem modelOk_query (choose : Chooser Unit) (hmax : s.params.nodeCap < 2 ^ 32) (h : ModelOk s.params s.model)
    (hpass : firstFailure s (.predict 0) = none) : ModelOk s.params (query choose s).model := by
  obtain ⟨hconfigured, hloaded, hcap⟩ : s.model.configured = true ∧ s.model.hloaded = true ∧
      (s.model.dirty = false → s.model.nodesUsed.toNat + 8 * s.model.d.toNat ≤ s.params.nodeCap) := by
    simpa [firstFailure, check_eq_none] using hpass
  cases hdirty : s.model.dirty with
  | true => rwa [query_of_dirty choose hdirty]
  | false =>
    rw [query_of_clean choose hdirty, setModel_model, walk_model_eq_known]
    refine modelOk_of_configuredOk ((walk_frame ..).1.trans hconfigured) ?_
    exact (h.2 hconfigured).walk hloaded _ (hcap hdirty) hmax

theorem modelOk_commandEffect (hparams : ParamsOk s.params) (h : ModelOk s.params s.model)
    (hpass : firstFailure s i = none) : ModelOk s.params (commandEffect i s).model := by
  obtain ⟨-, -, hmin, hmax⟩ := hparams
  cases i with
  | init d =>
    have hd : ¬ (d.toNat < 1 ∨ 15 < d.toNat) := by simpa [firstFailure, check_eq_none] using hpass
    refine modelOk_of_configuredOk rfl (configuredOk_initModel ?_ hmin _)
    rw [BitVec.toNat_setWidth]
    omega
  | ctupd node bit =>
    obtain ⟨hnode, -, hconfigured, hloaded, hclean, hroom⟩ : node.toNat ≠ 0 ∧ bit.toNat ≤ 1 ∧
        s.model.configured = true ∧ s.model.hloaded = true ∧ s.model.dirty = false ∧
        s.model.nodesUsed.toNat + s.model.d.toNat ≤ s.params.nodeCap := by
      simpa [firstFailure, check_eq_none] using hpass
    have hn : 1 ≤ node.toNat ∧ node.toNat ≤ 255 := by omega
    exact modelOk_of_configuredOk hconfigured ((h.2 hconfigured).ctUpdate hloaded hclean hn _ hroom hmax)
  | ctreupd node bit =>
    obtain ⟨-, -, hconfigured, hclean, hvalid, howner⟩ : node.toNat ≠ 0 ∧ bit.toNat ≤ 1 ∧
        s.model.configured = true ∧ s.model.dirty = false ∧ s.model.scr[levelOf node.toNat].valid = true ∧
        s.model.scr[levelOf node.toNat].owner = node := by
      simpa [firstFailure, check_eq_none] using hpass
    exact modelOk_of_configuredOk ((ctReupdate_frame ..).1.trans hconfigured)
      ((h.2 hconfigured).ctReupdate hclean _ hvalid (congrArg BitVec.toNat howner))
  | loadhist seed =>
    obtain ⟨hconfigured, hlen, -⟩ : s.model.configured = true ∧ seed.length = s.model.d.toNat ∧
        s.model.dirty = false := by
      simpa only [firstFailure, check_eq_none, ne_eq, not_not, Bool.not_eq_false, Bool.not_eq_true, and_true]
        using hpass
    exact modelOk_of_configuredOk hconfigured ((h.2 hconfigured).loadhist hlen)
  | predict b => exact modelOk_query (known b) hmax h hpass
  | cumprob b => exact modelOk_query (known b) hmax h hpass
  | decode x => exact modelOk_query (target x) hmax h hpass
  | update b =>
    obtain ⟨hconfigured, -, hdirty, hbyte⟩ : s.model.configured = true ∧ s.model.hloaded = true ∧
        s.model.dirty = true ∧ b = s.model.cache.byte := by
      simpa [firstFailure, check_eq_none] using hpass
    rw [hbyte]
    exact modelOk_of_configuredOk ((commit_frame ..).1.trans hconfigured) ((h.2 hconfigured).commit hdirty)
  | encbyte b =>
    obtain ⟨hconfigured, hloaded, -, -, hroom⟩ : s.model.configured = true ∧ s.model.hloaded = true ∧
        s.model.dirty = false ∧ s.enc.mode ≠ .flushed ∧
        s.model.nodesUsed.toNat + 8 * s.model.d.toNat ≤ s.params.nodeCap := by
      simpa [firstFailure, check_eq_none] using hpass
    exact modelOk_of_configuredOk ((encodeByte_frame s.params b s.model s.enc).1.trans hconfigured)
      ((h.2 hconfigured).encodeByte hloaded b hroom hmax s.enc)
  | decbyte =>
    obtain ⟨hconfigured, hloaded, -, -, hroom⟩ : s.model.configured = true ∧ s.model.hloaded = true ∧
        s.model.dirty = false ∧ s.dec.mode ≠ .idle ∧
        s.model.nodesUsed.toNat + 8 * s.model.d.toNat ≤ s.params.nodeCap := by
      simpa [firstFailure, check_eq_none] using hpass
    obtain ⟨b, hmodel⟩ := decodeByte_model_eq s.params s.model s.inp s.dec
    refine modelOk_of_configuredOk ((decodeByte_frame ..).1.trans hconfigured) ?_
    change ConfiguredOk s.params (decodeByte s.params s.inp s.model s.dec).2.1
    rw [hmodel s.enc]
    exact (h.2 hconfigured).encodeByte hloaded b hroom hmax s.enc
  | _ => exact h

end

/-! ### The coders -/

theorem intervalOk_full : IntervalOk 0x000000 0xFFFFFF := by decide

theorem packerOk_of_acc {e : Encoder} (h : e.acc = 0) : PackerOk e := by
  rw [PackerOk, h]
  exact Nat.two_pow_pos _

theorem packerOk_encPass (c : Scaling) {e : Encoder} (h : PackerOk e) : PackerOk (encPass c e) := by
  have hemit : PackerOk (scalingEmit c e) := by
    cases c with
    | e1 => exact packerOk_emitPend false h
    | e2 => exact packerOk_emitPend true h
    | e3 => exact h
  exact hemit

theorem packerOk_encRenorm (fuel : Nat) {e : Encoder} (h : PackerOk e) : PackerOk (encRenorm fuel e) := by
  induction fuel generalizing e with
  | zero => exact h
  | succ fuel ih =>
    rw [encRenorm_succ]
    split
    · exact h
    · exact ih (packerOk_encPass _ h)

theorem packerOk_encodeBit (x : Bool) (p0 : F64) {e : Encoder} (h : PackerOk e) : PackerOk (encodeBit x p0 e) :=
  packerOk_encRenorm maxPasses (e := narrowed x p0 e) h

theorem packerOk_encodeEvents (events : List (Bool × F64)) {e : Encoder} (h : PackerOk e) :
    PackerOk (encodeEvents events e) := by
  induction events generalizing e with
  | nil => exact h
  | cons ev events ih => exact ih (packerOk_encodeBit ev.1 ev.2 h)

theorem packerOk_flushBits {e : Encoder} (h : PackerOk e) : PackerOk (flushBits e) :=
  packerOk_of_acc (flushBits_acc h)

theorem decodeEvents_intervalOk {inp : List Byte} (p0s : List F64) {d : Decoder} (h : IntervalOk d.low d.high) :
    IntervalOk (decodeEvents inp p0s d).2.low (decodeEvents inp p0s d).2.high := by
  induction p0s generalizing d with
  | nil => exact h
  | cons p0 p0s ih => exact ih (decodeBit_intervalOk inp p0 h)

section
variable {s : State}

theorem encoderOk_commandEffect (i : Instr) (h : IntervalOk s.enc.low s.enc.high ∧ PackerOk s.enc) :
    IntervalOk (commandEffect i s).enc.low (commandEffect i s).enc.high ∧ PackerOk (commandEffect i s).enc := by
  obtain ⟨hinterval, hpacker⟩ := h
  have hquery : ∀ choose, (query choose s).enc = s.enc := fun choose => (query_frame choose s).1
  cases i with
  | einit => exact ⟨intervalOk_full, packerOk_of_acc rfl⟩
  | ebit bit p0 => exact ⟨encodeBit_intervalOk _ p0 hinterval, packerOk_encodeBit _ p0 hpacker⟩
  | eflush => exact ⟨by simpa [commandEffect] using hinterval, packerOk_flushBits hpacker⟩
  | encbyte b =>
    refine ⟨encodeByte_intervalOk hinterval, ?_⟩
    change PackerOk (encodeByte s.params b s.model s.enc).2
    rw [encodeByte_enc]
    exact packerOk_encodeEvents _ hpacker
  | predict b => simpa [commandEffect, hquery] using ⟨hinterval, hpacker⟩
  | cumprob b => simpa [commandEffect, hquery] using ⟨hinterval, hpacker⟩
  | decode x => simpa [commandEffect, hquery] using ⟨hinterval, hpacker⟩
  | _ => exact ⟨hinterval, hpacker⟩

theorem decoderOk_commandEffect (i : Instr) (h : IntervalOk s.dec.low s.dec.high) :
    IntervalOk (commandEffect i s).dec.low (commandEffect i s).dec.high := by
  have hquery : ∀ choose, (query choose s).dec = s.dec := fun choose => (query_frame choose s).2.1
  cases i with
  | dinit =>
    rw [commandEffect, seedDecoder_eq]
    exact intervalOk_full
  | dbit p0 => exact decodeBit_intervalOk s.inp p0 h
  | decbyte =>
    obtain ⟨b, d', hevents⟩ := exists_decodeByte s.params s.inp s.model s.dec
    have hok := decodeEvents_intervalOk (inp := s.inp) ((byteEvents s.params b s.model).map (·.2)) h
    rw [hevents] at hok
    rw [commandEffect, decodeByte_eq hevents s.enc]
    exact hok
  | predict b => simpa [commandEffect, hquery] using h
  | cumprob b => simpa [commandEffect, hquery] using h
  | decode x => simpa [commandEffect, hquery] using h
  | _ => exact h

end

/-! ### The obligations -/

theorem inv_launch {p : Params} (cmd inp : List Byte) (hparams : ParamsOk p) : Inv (launch p cmd inp) := by
  refine ⟨hparams, ⟨fun _ => rfl, fun h => ?_⟩, ⟨fun _ => ?_, fun h => ?_⟩, intervalOk_full,
    packerOk_of_acc rfl, intervalOk_full⟩
  · cases h
  · exact ⟨rfl, reset_tree, rfl, rfl, rfl, fun k => congrArg Scratch.valid (reset_scratch k)⟩
  · cases h

/-- Settles O9: RESET is a launch, and a launched model holds nothing. -/
theorem resetAndLaunchMeetTheInvariant : Obligations.ResetAndLaunchMeetTheInvariant :=
  ⟨inv_launch [] [] (by decide +kernel), fun s => inv_launch s.cmd s.inp, fun _ cmd inp => inv_launch cmd inp⟩

theorem inv_raiseFault {s : State} (c : FaultCode) (h : Inv s) : Inv (raiseFault c s) := by
  obtain ⟨hparams, -, hrest⟩ := h
  exact ⟨hparams, ⟨fun h => Bool.noConfusion h, fun _ => faultByte_range c⟩, hrest⟩

theorem inv_commandEffect {i : Instr} {s : State} (h : Inv s) (hpass : firstFailure s i = none) :
    Inv (commandEffect i s) := by
  obtain ⟨hparams, hstatus, hmodel, hinterval, hpacker, hdec⟩ := h
  obtain ⟨hfault, hfcode, -⟩ := commandEffect_completed hpass
  obtain ⟨-, -, hparams', -⟩ := streamsExtend_commandEffect i s
  obtain ⟨hinterval', hpacker'⟩ := encoderOk_commandEffect i ⟨hinterval, hpacker⟩
  refine ⟨hparams' ▸ hparams, ?_, ?_, hinterval', hpacker', decoderOk_commandEffect i hdec⟩
  · rwa [StatusOk, hfault, hfcode]
  · rw [hparams']
    exact modelOk_commandEffect hparams hmodel hpass

/-- Settles O10: fault entry writes a code of R240, and each effect keeps its part of the invariant. -/
theorem everyStepKeepsTheInvariant : Obligations.EveryStepKeepsTheInvariant := by
  intro s t h hstep
  obtain ⟨-, ⟨c, rfl⟩ | ⟨i, -, -, -, hpass, rfl⟩⟩ := step_next hstep
  · exact inv_raiseFault c h
  · exact inv_commandEffect h hpass

end Sys2Proof.Machine
end

/-! ### The KT table

R110's fraction reaches the one rounding multiplied by a sixteenth of 1.0 in units, above and below. -/
section
namespace Sys2Proof.Machine

/-! ### One fraction, one rounding -/

section
variable {a b c d : Nat}

theorem roundUnits_mul_left (hc : 0 < c) (a b : Nat) : roundUnits (c * a) (c * b) = roundUnits a b := by
  have hscale : roundScale (c * a) (c * b) = roundScale a b := by
    rw [roundScale, roundScale, Nat.mul_div_mul_left _ _ hc]
  rw [roundUnits_eq, roundUnits_eq, hscale, Nat.mul_assoc, roundQuotient_mul_left hc]

theorem numRound_mul_left (neg : Bool) (hc : 0 < c) (a b : Nat) : numRound neg (c * a) (c * b) = numRound neg a b := by
  rw [numRound, numRound, roundUnits_mul_left hc]

/-- Fractions in order are rounded to values in order. -/
theorem roundedUnits_le_of_mul_le (hb : 0 < b) (hd : 0 < d) (h : a * d ≤ c * b) :
    roundedUnits a b ≤ roundedUnits c d :=
  calc roundedUnits a b
    _ = roundedUnits (d * a) (d * b) := by rw [roundedUnits, roundedUnits, roundUnits_mul_left hd]
    _ ≤ roundedUnits (b * c) (d * b) :=
        roundedUnits_mono (Nat.mul_pos hd hb) (by rwa [Nat.mul_comm d, Nat.mul_comm b])
    _ = roundedUnits c d := by rw [Nat.mul_comm d, roundedUnits, roundedUnits, roundUnits_mul_left hb]

end

/-! ### The entries -/

theorem HasUnits.sign_of_pos {x : F64} {u : Nat} (h : HasUnits x u) (hpos : 0 < u) : numSign x = false :=
  Bool.eq_false_iff.mpr fun hneg => hpos.ne' (h.eq_zero_of_sign hneg)

theorem sixteenth_pos : 0 < sixteenth := (Nat.two_pow_pos 52).trans_le two_pow_le_sixteenth

/-- Settles O21: the exact sums of sixteenths divided, and the sixteenths cancelled. -/
theorem ktIsTheCorrectlyRoundedFraction : Obligations.KtIsTheCorrectlyRoundedFraction := by
  intro n0 n1 sym
  have hcount := hasUnits_pseudoCount (if sym then n1 else n0)
  have htotal := hasUnits_total { n0 := n0, n1 := n1 }
  have hcountPos := Nat.mul_pos (show 0 < 16 * (if sym then n1 else n0).toNat + 1 by omega) sixteenth_pos
  have htotalPos := Nat.mul_pos (show 0 < 16 * n0.toNat + 16 * n1.toNat + 2 by omega) sixteenth_pos
  rw [kt, numDiv_of_finite hcount.1 htotal.1 (by rw [htotal.numUnits_eq]; exact htotalPos.ne'),
    hcount.sign_of_pos hcountPos, htotal.sign_of_pos htotalPos, hcount.numUnits_eq, htotal.numUnits_eq,
    Nat.mul_comm _ sixteenth, Nat.mul_comm _ sixteenth, Nat.mul_assoc, ← Nat.mul_add]
  exact numRound_mul_left false sixteenth_pos _ _

/-- The count of the symbol in R110's fraction. -/
def symbolCount (n0 n1 : Byte) (sym : Bool) : Nat := (if sym then n1 else n0).toNat

/-- An entry's value in units. -/
def ktUnits (n0 n1 : Byte) (sym : Bool) : Nat :=
  roundedUnits ((16 * symbolCount n0 n1 sym + 1) * unitsPerOne) (16 * (n0.toNat + n1.toNat) + 2)

section
variable (n0 n1 : Byte) (sym : Bool)

theorem symbolCount_bounds : symbolCount n0 n1 sym ≤ n0.toNat + n1.toNat ∧
    n0.toNat + n1.toNat ≤ symbolCount n0 n1 sym + 255 := by
  have h0 := n0.isLt
  have h1 := n1.isLt
  rw [symbolCount]
  split <;> omega

/-- R111: an entry is at least 1 / (16 * 255 + 2), the rounded KT(255, 0, 1). -/
theorem ktUnits_least : ktUnits 255 0 true ≤ ktUnits n0 n1 sym := by
  obtain ⟨-, hle⟩ := symbolCount_bounds n0 n1 sym
  have hcount : symbolCount 255 0 true = 0 := rfl
  have hsum : (255 : Byte).toNat + (0 : Byte).toNat = 255 := rfl
  have hfraction : (16 * 0 + 1) * (16 * (n0.toNat + n1.toNat) + 2) ≤
      (16 * symbolCount n0 n1 sym + 1) * (16 * 255 + 2) := by omega
  rw [ktUnits, ktUnits, hcount, hsum]
  refine roundedUnits_le_of_mul_le (by omega) (by omega) ?_
  rw [Nat.mul_right_comm, Nat.mul_right_comm _ unitsPerOne]
  exact Nat.mul_le_mul_right _ hfraction

theorem ktUnits_pos : 0 < ktUnits n0 n1 sym := by
  have hpos : 0 < ktUnits 255 0 true := by decide +kernel
  exact hpos.trans_le (ktUnits_least n0 n1 sym)

/-- R111: the numerator is below the denominator by at least one part in 2^53. -/
theorem ktUnits_lt_one : ktUnits n0 n1 sym < unitsPerOne := by
  obtain ⟨hle, -⟩ := symbolCount_bounds n0 n1 sym
  have h0 := n0.isLt
  have h1 := n1.isLt
  obtain ⟨g, hone, hg, hbelow⟩ := exists_step_below_one
  have hfraction : (16 * symbolCount n0 n1 sym + 1) * 2 ^ 53 ≤ (2 ^ 53 - 1) * (16 * (n0.toNat + n1.toNat) + 2) := by
    omega
  have hround : ktUnits n0 n1 sym ≤ (2 ^ 53 - 1) * g := by
    refine roundedUnits_le (by omega) hbelow ?_
    calc (16 * symbolCount n0 n1 sym + 1) * unitsPerOne
      _ = (16 * symbolCount n0 n1 sym + 1) * 2 ^ 53 * g := by rw [hone, Nat.mul_assoc]
      _ ≤ (2 ^ 53 - 1) * (16 * (n0.toNat + n1.toNat) + 2) * g := Nat.mul_le_mul_right _ hfraction
      _ = (2 ^ 53 - 1) * g * (16 * (n0.toNat + n1.toNat) + 2) := by ring
  omega

theorem hasUnits_kt : HasUnits (kt n0 n1 sym) (ktUnits n0 n1 sym) := by
  rw [ktIsTheCorrectlyRoundedFraction]
  exact hasUnits_numRound (by omega) (fun h => absurd h Bool.false_ne_true)
    ((ktUnits_lt_one n0 n1 sym).trans (by decide +kernel))

theorem kt_mirror : kt n0 n1 sym = kt n1 n0 (!sym) := by
  rw [ktIsTheCorrectlyRoundedFraction, ktIsTheCorrectlyRoundedFraction, Nat.add_comm n1.toNat]
  cases sym <;> rfl

theorem kt_equal_counts : kt n0 n0 sym = 0x3FE0000000000000#64 := by
  have hhalf : numRound false unitsPerOne 2 = 0x3FE0000000000000#64 := by decide +kernel
  have htotal : 16 * (n0.toNat + n0.toNat) + 2 = (16 * n0.toNat + 1) * 2 := by ring
  rw [ktIsTheCorrectlyRoundedFraction, ite_self, htotal, numRound_mul_left false (Nat.succ_pos _), hhalf]

end

/-- Settles O22: the value of an entry lies between the least entry and 1.0. -/
theorem ktTableProperties : Obligations.KtTableProperties := fun n0 n1 sym =>
  ⟨(hasUnits_zero.numLt_iff (hasUnits_kt n0 n1 sym)).mpr (ktUnits_pos n0 n1 sym),
    ((hasUnits_kt n0 n1 sym).numLt_iff hasUnits_numOne).mpr (ktUnits_lt_one n0 n1 sym), kt_mirror n0 n1 sym,
    kt_equal_counts n0 sym,
    ((hasUnits_kt 255 0 true).numLe_iff (hasUnits_kt n0 n1 sym)).mpr (ktUnits_least n0 n1 sym)⟩

end Sys2Proof.Machine
end
